-- ==== Sys2Proof/Word.lean ====
section
/-! DEFINITION. The word types of the block and their plainest arithmetic (00_scope.md R8). -/

namespace Sys2Proof

/-- One small block of the bit store, a 64-bit register or a packed relative word (R6, R72). -/
abbrev Word := BitVec 64

/-- A `u32`: a command word, an absolute count, a sampling-table element (R6, R75, R110). -/
abbrev Word32 := BitVec 32

/-- One byte of the host's record (R81). -/
abbrev Byte := BitVec 8

/-- `ceil(a/b) = (a + b - 1) div b` (R8). -/
def ceilDiv (a b : Nat) : Nat := (a + b - 1) / b

/-- `mask(n) = 2^n - 1` as a 64-bit word, for `n <= 64` (R8). -/
def mask (n : Nat) : Word := BitVec.ofNat 64 (2 ^ n - 1)

end Sys2Proof
end

