-- ==== Sys2Proof/Config.lean ====
section
/-! DEFINITION. What an implementation fixes (00_scope.md R7). The two OPEN parameters have no body: nothing can be proved
about their values beyond what the spec says of them. -/

namespace Sys2Proof.Config

/-- A number with no known value, from which `maxBits` is taken (log entry 7). -/
opaque rawMaxBits : Word32

/-- `MAX_BITS`, OPEN with `1 <= MAX_BITS <= 2^32 - 1` (R7, D9; log entry 7): any 32-bit value but 0. -/
def maxBits : Word32 := if rawMaxBits = 0 then 1 else rawMaxBits

/-- `REG_BASE`, OPEN: the host address of the register window (R7, D46; log entry 8). -/
opaque regBase : Nat

/-- `NOT_FOUND_VALUE`, which R7 and D7 fix at `2^64 - 1`. -/
def notFoundValue : Word := 0xFFFFFFFFFFFFFFFF

/-- Capacity of the linear scan of the group search: at most 10 groups (R6, R265, D34). -/
def linearScanGroups : Nat := 10

end Sys2Proof.Config
end

