-- ==== Sys2Proof/Syntax.lean ====
section
/-! DEFINITION. The commands of the block: one constructor per row of the opcode map (30_encoding.md R113). -/

namespace Sys2Proof

/-- A command, with the fields its word carries (R111). Operands come from ARG0 and ARG1 (R112). -/
inductive Instr where
  /-- POPCNT, R142 -/
  | popcnt
  /-- SELW, R147 -/
  | selw
  /-- RI_CLR, R166 -/
  | riClr
  /-- RI_SETABS, R167 -/
  | riSetabs
  /-- RI_SETREL K, R168 -/
  | riSetrel (k : BitVec 3)
  /-- RI_GETABS, R169 -/
  | riGetabs
  /-- RI_GETREL K, R170 -/
  | riGetrel (k : BitVec 3)
  /-- RI_LOAD, R171 -/
  | riLoad
  /-- RI_GETPACK, R172 -/
  | riGetpack
  /-- RI_SETPACK, R173 -/
  | riSetpack
  /-- BV_CLEAR, R190 -/
  | bvClear
  /-- BV_SET V, R191 -/
  | bvSet (v : Bool)
  /-- BV_PUSH V, R193 -/
  | bvPush (v : Bool)
  /-- BV_GET, R194 -/
  | bvGet
  /-- BV_WRWORD, R195 -/
  | bvWrword
  /-- BV_RDWORD, R196 -/
  | bvRdword
  /-- BV_BUILD FS1, FS0, R197 -/
  | bvBuild (fs1 fs0 : Bool)
  /-- RANK0, R233 -/
  | rank0
  /-- RANK1, R232 -/
  | rank1
  /-- COUNT0, R235 -/
  | count0
  /-- COUNT1, R234 -/
  | count1
  /-- RT_LEN, R236 -/
  | rtLen
  /-- SELECT0, R270 -/
  | select0
  /-- SELECT1, R269 -/
  | select1
  /-- SMP_LEN V, R271 -/
  | smpLen (v : Bool)
  /-- SMP_READ V, R272 -/
  | smpRead (v : Bool)
  deriving DecidableEq, Repr

end Sys2Proof
end

