-- ==== Sys2Proof/Machine/State.lean ====
section
/-! DEFINITION. Every piece of state the spec gives the block (10_state.md, 70_reset_and_hazards.md R320), the stops of the
model, and the state after reset. -/

namespace Sys2Proof.Machine

/-- The four storage spaces whose elements come into existence and go (20_memory.md R70). -/
inductive Space where
  | blockMem | rankMem | sel1Mem | sel0Mem
  deriving DecidableEq, Repr

/-- The model's stops. None of them is a fault of the block: the block's own faults (60_exceptions.md R291) are next states.
Each marks an internal access that the spec says no unit ever makes; the invariant of Safety.lean excludes all three
(log entry 12). -/
inductive Fault where
  /-- Raised by an internal read of an element that does not exist, which R88 excludes ("refused by the command before any
  access"). Raised in the rank, select and RI_LOAD datapaths. Safe. -/
  | absentElement (space : Space)
  /-- Raised by the in-word select unit for a rank that is not below the population count: "undefined and no unit ever asks
  it" (R143). Safe. -/
  | undefinedSelect
  /-- Raised by the group search when no group of its bracket qualifies; R264 says that one always does. Safe. -/
  | noGroup
  deriving DecidableEq, Repr

/-- Why the model has no meaning for an instruction. -/
inductive Refusal where
  /-- Raised by an arm of exec whose instruction has no meaning yet. No arm does: every command is modelled. Safe. -/
  | notModelled (mnemonic : String)
  deriving DecidableEq, Repr

/-- The block's fault codes (60_exceptions.md R291). -/
inductive ErrCode where
  | illegalCommand | frozenWrite | notBuilt | indexRange | capacity
  deriving DecidableEq, Repr

/-- A rank-index entry (20_memory.md R72, 41_rankindex.md R160): a 32-bit absolute count and seven relative counts packed in
one 64-bit word (R73). -/
structure RankEntry where
  abs : Word32
  rel : Word
  deriving DecidableEq, Repr

/-- What the block latches when a command is issued (10_state.md R32, R33, R34, R56). -/
structure Latched where
  cmd : Word32
  arg0 : Word
  arg1 : Word
  deriving DecidableEq, Repr

/-- BLOCK_MEM: (word index, word) pairs, indexes strictly rising, no listed word 0; an unlisted word reads 0 (log entry 9). -/
abbrev BlockMem := List (Nat × Word)

/-- What can happen next, in the order of the agenda (log entry 2). Widths are in bits; data of a 32-bit access is in the low
half (log entry 16). -/
inductive HostEvent where
  /-- The host reads `width` bits at host address `addr` (20_memory.md R78). -/
  | read (addr width : Nat)
  /-- The host writes `data` at host address `addr` (20_memory.md R78). -/
  | write (addr width : Nat) (data : Word)
  /-- The command engine takes its turn: it executes and commits the running command, if there is one. -/
  | engine
  /-- The platform's reset input (70_reset_and_hazards.md R320, R321). -/
  | reset
  deriving DecidableEq, Repr

/-- The whole state. STATUS.BUSY, FROZEN, FS1 and FS0 are computed from `running`, `frozen`, `fs1` and `fs0` (log entry 15). -/
structure State where
  /-- ARG0 (R33) -/
  arg0 : Word
  /-- ARG1 (R34) -/
  arg1 : Word
  /-- RES (R35) -/
  res : Word
  /-- STATUS.ERR (R38) -/
  err : Bool
  /-- STATUS.FOUND (R39) -/
  found : Bool
  /-- STATUS.STICKY_ERR (R42) -/
  stickyErr : Bool
  /-- STATUS.OVERRUN (R43) -/
  overrun : Bool
  /-- STATUS.ERRCODE (R44) -/
  errCode : BitVec 4
  /-- the latched command and operands, which exist only while BUSY = 1 (R32, R56) -/
  running : Option Latched
  /-- RIX (R49) -/
  rix : RankEntry
  /-- `size` (R50) -/
  size : Word32
  /-- `ones` (R50) -/
  ones : Word32
  /-- `frozen` (R50, R55) -/
  frozen : Bool
  /-- `fs1` (R50) -/
  fs1 : Bool
  /-- `fs0` (R50) -/
  fs0 : Bool
  /-- BLOCK_MEM (R50, R70) -/
  blk : BlockMem
  /-- RANK_MEM: the existing entries, `rtLen` many (R52) -/
  rt : List RankEntry
  /-- SEL1_MEM: the existing elements, `s1Len` many (R53) -/
  s1 : List Word32
  /-- SEL0_MEM: the existing elements, `s0Len` many (R53) -/
  s0 : List Word32
  /-- MAXBITS, the constant `MAX_BITS` (R48); nothing writes it (log entry 7) -/
  maxBits : Word32
  /-- the model's own: what happens next (log entry 2) -/
  agenda : List HostEvent
  /-- the model's own: what the last host read returned (log entry 3) -/
  rdata : Word
  deriving DecidableEq, Repr

/-- The block right after reset (70_reset_and_hazards.md R320). The values of `agenda` and `rdata`, the model's own fields, are
DESIGN CHOICE (log entries 2 and 3). -/
def State.reset : State where
  arg0 := 0
  arg1 := 0
  res := 0
  err := false
  found := false
  stickyErr := false
  overrun := false
  errCode := 0
  running := none
  rix := { abs := 0, rel := 0 }
  size := 0
  ones := 0
  frozen := false
  fs1 := false
  fs0 := false
  blk := []
  rt := []
  s1 := []
  s0 := []
  maxBits := Config.maxBits
  agenda := []
  rdata := 0

end Sys2Proof.Machine
end

