-- ==== Sys2Proof/Machine/Flags.lean ====
section
/-! DEFINITION. STATUS (10_state.md R36 to R45): its fault codes, its 32-bit word, and what a host write of it does. -/

namespace Sys2Proof.Machine

/-- The code of a fault in STATUS.ERRCODE (60_exceptions.md R291). -/
def ErrCode.toBits : ErrCode → BitVec 4
  | .illegalCommand => 1
  | .frozenWrite => 2
  | .notBuilt => 3
  | .indexRange => 4
  | .capacity => 5

/-- STATUS.BUSY: a command is executing, which is to say one is latched (R37). -/
def State.busy (s : State) : Bool := s.running.isSome

/-- The 32-bit STATUS register (R36): BUSY 0, ERR 1, FOUND 2, FROZEN 3, FS1 4, FS0 5, STICKY_ERR 6, OVERRUN 7, ERRCODE 11:8,
and bits 31:12 read 0 (R45). -/
def State.statusWord (s : State) : Word32 :=
  (0 : BitVec 20) ++ s.errCode ++ BitVec.ofBool s.overrun ++ BitVec.ofBool s.stickyErr ++ BitVec.ofBool s.fs0 ++
    BitVec.ofBool s.fs1 ++ BitVec.ofBool s.frozen ++ BitVec.ofBool s.found ++ BitVec.ofBool s.err ++ BitVec.ofBool s.busy

/-- A host write of STATUS: written bit 6 clears STICKY_ERR, written bit 7 clears OVERRUN, and nothing else changes (R45). -/
def State.writeStatus (s : State) (v : Word32) : State :=
  { s with stickyErr := s.stickyErr && !v.getLsbD 6, overrun := s.overrun && !v.getLsbD 7 }

end Sys2Proof.Machine
end

