-- ==== Sys2Proof/Machine/Operands.lean ====
section
/-! DEFINITION. The operand forms of a command (30_encoding.md R112): the latched ARG0 and ARG1, and the sub-field number K. -/

namespace Sys2Proof.Machine

/-- `ARG0` of a command: the value latched at issue (00_scope.md R9, 10_state.md R33). In a state with no command latched, where
no step ever executes one, it is the register itself (log entry 5). -/
def State.opnd0 (s : State) : Word :=
  match s.running with
  | some l => l.arg0
  | none => s.arg0

/-- `ARG1` of a command: the value latched at issue (00_scope.md R9, 10_state.md R34); as `opnd0` where none is latched. -/
def State.opnd1 (s : State) : Word :=
  match s.running with
  | some l => l.arg1
  | none => s.arg1

/-- `ARG0` read as an index, a count or a rank: the full 64-bit natural, never truncated (R112). -/
def State.index (s : State) : Nat := s.opnd0.toNat

/-- Width `w_K` of relative sub-field K = 1..7 (20_memory.md R73). There is no other sub-field: width 0. -/
def relWidth : Nat → Nat
  | 1 => 7
  | 2 => 8
  | 3 => 8
  | 4 => 9
  | 5 => 9
  | 6 => 9
  | 7 => 9
  | _ => 0

/-- Offset `o_K` of relative sub-field K = 1..7 (20_memory.md R73). -/
def relOffset : Nat → Nat
  | 1 => 0
  | 2 => 7
  | 3 => 15
  | 4 => 23
  | 5 => 32
  | 6 => 41
  | 7 => 50
  | _ => 0

end Sys2Proof.Machine
end

