-- ==== Sys2Proof/Machine/Ops.lean ====
section
/-! DEFINITION. The named operations over the storage spaces and registers, the ways a command ends, and the raising of a
fault. -/

namespace Sys2Proof.Machine

/-! ### BLOCK_MEM -/

/-- The word at an index; an unlisted word reads 0. -/
def BlockMem.read : BlockMem → Nat → Word
  | [], _ => 0
  | c :: m, w => if c.1 = w then c.2 else BlockMem.read m w

/-- Put a word into a list of words with other indexes, before the first larger index. -/
def BlockMem.insert (w : Nat) (v : Word) : BlockMem → BlockMem
  | [] => [(w, v)]
  | c :: m => if w < c.1 then (w, v) :: c :: m else c :: BlockMem.insert w v m

/-- Write one word. Writing 0, which an unlisted word reads as, removes the entry (log entry 9). -/
def BlockMem.write (m : BlockMem) (w : Nat) (v : Word) : BlockMem :=
  let others := m.filter fun c => c.1 != w
  if v = 0 then others else BlockMem.insert w v others

/-- Zero every word from index `n` on. -/
def BlockMem.keepBelow (m : BlockMem) (n : Nat) : BlockMem := m.filter fun c => c.1 < n

/-- The canonical form: indexes strictly rising, no listed word 0. -/
def BlockMem.wf : BlockMem → Bool
  | [] => true
  | c :: m => c.2 != 0 && (match m with | [] => true | d :: _ => c.1 < d.1) && BlockMem.wf m

/-! ### Existing elements (20_memory.md R70, R88) -/

/-- `nb = ceil(size/64)`: how many words of BLOCK_MEM exist (10_state.md R50). -/
def State.nb (s : State) : Nat := ceilDiv s.size.toNat 64

/-- Read `BLK[w]`, which must exist (00_scope.md R9, 20_memory.md R88). -/
def State.blkWord (s : State) (w : Nat) : Except Fault Word :=
  if w < s.nb then .ok (s.blk.read w) else .error (.absentElement .blockMem)

/-- Read `RT[g]`, which must exist. -/
def State.rtEntry (s : State) (g : Nat) : Except Fault RankEntry :=
  match s.rt[g]? with
  | some e => .ok e
  | none => .error (.absentElement .rankMem)

/-- The sampling table of a bit value: `S1` for ones, `S0` for zeros (30_encoding.md R111, field V). -/
def State.samples (s : State) (v : Bool) : List Word32 := if v then s.s1 else s.s0

/-- Whether the sampling table of a bit value was requested: `fs_v` (10_state.md R41). -/
def State.hasSamples (s : State) (v : Bool) : Bool := if v then s.fs1 else s.fs0

/-- Read `S_v[k]`, which must exist. -/
def State.sample (s : State) (v : Bool) (k : Nat) : Except Fault Nat :=
  match (s.samples v)[k]? with
  | some p => .ok p.toNat
  | none => .error (.absentElement (if v then .sel1Mem else .sel0Mem))

/-- Bits of word `w` inside the vector: `min(64, size - 64w)` (42_bitvector.md R195, R197). -/
def State.bitsInWord (s : State) (w : Nat) : Nat := min 64 (s.size.toNat - 64 * w)

/-- How many bits have value `v`: `count_1 = numOnes`, `count_0 = size - numOnes` (44_select.md R260). -/
def State.countOf (s : State) (v : Bool) : Nat := if v then s.ones.toNat else s.size.toNat - s.ones.toNat

/-- `grow(n)`: the words from `ceil(size/64)` to `ceil(n/64) - 1` come into existence as 0, and `size <- n`
(42_bitvector.md R192). -/
def State.grow (s : State) (n : Nat) : State :=
  { s with blk := s.blk.keepBelow s.nb, size := BitVec.ofNat 32 n }

/-- Write `BLK[w]`. -/
def State.writeBlk (s : State) (w : Nat) (v : Word) : State := { s with blk := s.blk.write w v }

/-- Write one bit of the vector: `BLK[i div 64] <- (BLK[i div 64] & ~(1 << (i mod 64))) | (V << (i mod 64))`
(42_bitvector.md R191). -/
def State.writeBit (s : State) (i : Nat) (v : Bool) : State :=
  let w := s.blk.read (i / 64)
  s.writeBlk (i / 64) ((w &&& ~~~(1#64 <<< (i % 64))) ||| ((BitVec.ofBool v).setWidth 64 <<< (i % 64)))

/-! ### How a command ends -/

/-- Normal completion without a result (60_exceptions.md R293): RES unchanged. -/
def State.complete (s : State) : State :=
  { s with running := none, err := false, errCode := 0, found := true }

/-- Normal completion with a result in RES (60_exceptions.md R293, 10_state.md R35). -/
def State.completeWith (s : State) (v : Word) : State := { s.complete with res := v }

/-- `return NotFound` (60_exceptions.md R295): no fault, FOUND = 0, RES takes NOT_FOUND_VALUE. -/
def State.notFound (s : State) : State :=
  { s with running := none, err := false, errCode := 0, found := false, res := Config.notFoundValue }

/-- `raise Fault(code)` (60_exceptions.md R292): only STATUS changes. There is no trap entry and no return (R298). -/
def State.raiseFault (s : State) (code : ErrCode) : State :=
  { s with running := none, err := true, errCode := code.toBits, found := false, stickyErr := true }

/-- What one step of the machine answers. -/
abbrev Result := Host.Outcome State Fault Refusal

/-- End a command with the result its datapath computed, zero-extended to 64 bits (10_state.md R35); stop where the datapath
made an access that no unit ever makes (log entry 12). -/
def State.finish (s : State) : Except Fault Nat → Result
  | .ok r => .next (s.completeWith (BitVec.ofNat 64 r))
  | .error f => .fault f

end Sys2Proof.Machine
end

