-- ==== Sys2Proof/Machine/Popcount.lean ====
section
/-! DEFINITION. The PopCount unit and the in-word select unit (40_popcount.md R140 to R147). -/

namespace Sys2Proof.Machine

/-- How many of bits 0..n-1 of `v` are 1. -/
def onesBelow (v : Nat) : Nat → Nat
  | 0 => 0
  | n + 1 => onesBelow v n + if v.testBit n then 1 else 0

/-- The PopCount unit: the number of bits of `w` equal to 1 (R140). A direct counter, as R141 allows. -/
def popcount (w : Word) : Nat := onesBelow w.toNat 64

/-- Byte `k` of a word, `w[8k+7:8k]`. -/
def byteOf (w : Word) (k : Nat) : Byte := w.extractLsb' (8 * k) 8

/-- `c_k`, the population count of byte `k` (R144). -/
def byteCount (w : Word) (k : Nat) : Nat := onesBelow (byteOf w k).toNat 8

/-- The byte counts before byte `k`, `c_0 + ... + c_(k-1)`: `P_(k-1)` of R144, with `P_(-1) = 0`. -/
def countBeforeByte (w : Word) : Nat → Nat
  | 0 => 0
  | k + 1 => countBeforeByte w k + byteCount w k

/-- The in-word select lookup table (R145): the `q` in 0..7 with bit `q` of `b` = 1 and `popcount(b mod 2^q) = r`; the entries
that are never read, `r >= popcount(b)`, hold 0. Row `r` is 0..7. -/
def lut (r : Nat) (b : Byte) : Nat :=
  ((List.range 8).find? fun q => b.getLsbD q && onesBelow b.toNat q == r).getD 0

/-- The in-word select datapath (R146): `k*` is the least byte with `P_k > r`, and LUT gives the bit inside it. For
`r >= popcount(w)` no byte qualifies: it is undefined and no unit ever asks it (R143; log entry 12). -/
def selw (w : Word) (r : Nat) : Except Fault Nat :=
  match (List.range 8).find? fun k => decide (r < countBeforeByte w (k + 1)) with
  | some k => .ok (8 * k + lut (r - countBeforeByte w k) (byteOf w k))
  | none => .error .undefinedSelect

/-- POPCNT (R142). -/
def execPopcnt (s : State) : Result := .next (s.completeWith (BitVec.ofNat 64 (popcount s.opnd0)))

/-- SELW (R147). The bound is tested on the full 64-bit ARG1. -/
def execSelw (s : State) : Result :=
  if popcount s.opnd0 ≤ s.opnd1.toNat then .next s.notFound
  else s.finish (selw s.opnd0 s.opnd1.toNat)

end Sys2Proof.Machine
end

