-- ==== Sys2Proof/Machine/RankIndex.lean ====
section
/-! DEFINITION. The RankIndex packed-counter encoder and decoder and its commands (41_rankindex.md R160 to R173). -/

namespace Sys2Proof.Machine

/-- Encoder, absolute field (R161): keeps the low 32 bits of `v`; `rel` is untouched. -/
def setAbs (e : RankEntry) (v : Word) : RankEntry := { e with abs := v.setWidth 32 }

/-- Encoder, relative field K (R162): only bits `o_K + w_K - 1 : o_K` of `rel` change, `v` keeps its low `w_K` bits. -/
def setRel (e : RankEntry) (k : Nat) (v : Word) : RankEntry :=
  let m := mask (relWidth k) <<< relOffset k
  { e with rel := (e.rel &&& ~~~m) ||| ((v &&& mask (relWidth k)) <<< relOffset k) }

/-- Decoder, relative field K (R163); `getRel(e, 0) = 0`. -/
def getRel (e : RankEntry) (k : Nat) : Nat := ((e.rel >>> relOffset k) &&& mask (relWidth k)).toNat

/-- Decoder, absolute field (R164). -/
def getAbs (e : RankEntry) : Nat := e.abs.toNat

/-- RI_CLR (R166). -/
def execRiClr (s : State) : Result := .next { s.complete with rix := { abs := 0, rel := 0 } }

/-- RI_SETABS (R167). -/
def execRiSetabs (s : State) : Result := .next { s.complete with rix := setAbs s.rix s.opnd0 }

/-- RI_SETREL K (R168). K = 0, which no legal word carries, is ILLEGAL_COMMAND (log entry 14). -/
def execRiSetrel (k : BitVec 3) (s : State) : Result :=
  if k = 0 then .next (s.raiseFault .illegalCommand)
  else .next { s.complete with rix := setRel s.rix k.toNat s.opnd0 }

/-- RI_GETABS (R169). -/
def execRiGetabs (s : State) : Result := .next (s.completeWith (BitVec.ofNat 64 (getAbs s.rix)))

/-- RI_GETREL K (R170). K = 0, which no legal word carries, is ILLEGAL_COMMAND (log entry 14). -/
def execRiGetrel (k : BitVec 3) (s : State) : Result :=
  if k = 0 then .next (s.raiseFault .illegalCommand)
  else .next (s.completeWith (BitVec.ofNat 64 (getRel s.rix k.toNat)))

/-- RI_LOAD (R171). -/
def execRiLoad (s : State) : Result :=
  if s.frozen = false then .next (s.raiseFault .notBuilt)
  else if s.rt.length ≤ s.index then .next (s.raiseFault .indexRange)
  else match s.rtEntry s.index with
    | .ok e => .next { s.complete with rix := e }
    | .error f => .fault f

/-- RI_GETPACK (R172). -/
def execRiGetpack (s : State) : Result := .next (s.completeWith s.rix.rel)

/-- RI_SETPACK (R173). -/
def execRiSetpack (s : State) : Result := .next { s.complete with rix := { s.rix with rel := s.opnd0 } }

end Sys2Proof.Machine
end

