-- ==== Sys2Proof/Machine/BitVector.lean ====
section
/-! DEFINITION. The bit store and the build engine (42_bitvector.md R190 to R210). -/

namespace Sys2Proof.Machine

/-! ### Bit-store commands -/

/-- BV_CLEAR (R190): no word, entry or element exists any more. -/
def execBvClear (s : State) : Result :=
  .next { s.complete with size := 0, ones := 0, frozen := false, fs1 := false, fs0 := false, blk := [], rt := [], s1 := [], s0 := [] }

/-- BV_SET V (R191): overwrite bit `i`, growing the vector to `i + 1` bits first where `i` is past its end. -/
def execBvSet (v : Bool) (s : State) : Result :=
  .next (if s.frozen then s.raiseFault .frozenWrite
    else if s.maxBits.toNat ≤ s.index then s.raiseFault .capacity
    else ((if s.size.toNat ≤ s.index then s.grow (s.index + 1) else s).writeBit s.index v).complete)

/-- BV_PUSH V (R193): append one bit. -/
def execBvPush (v : Bool) (s : State) : Result :=
  .next (if s.frozen then s.raiseFault .frozenWrite
    else if s.maxBits.toNat ≤ s.size.toNat then s.raiseFault .capacity
    else
      let i := s.size.toNat
      let t := s.grow (i + 1)
      (t.writeBlk (i / 64) (t.blk.read (i / 64) ||| ((BitVec.ofBool v).setWidth 64 <<< (i % 64)))).complete)

/-- BV_GET (R194): bit `i` is bit `i mod 64` of `BLK[i div 64]` (20_memory.md R71). -/
def execBvGet (s : State) : Result :=
  if s.size.toNat ≤ s.index then .next (s.raiseFault .indexRange)
  else s.finish (do
    let w ← s.blkWord (s.index / 64)
    return (w.getLsbD (s.index % 64)).toNat)

/-- BV_WRWORD (R195): write one existing word, with the bits outside the vector forced to 0. -/
def execBvWrword (s : State) : Result :=
  if s.frozen then .next (s.raiseFault .frozenWrite)
  else if s.nb ≤ s.index then .next (s.raiseFault .indexRange)
  else .next (s.writeBlk s.index (s.opnd1 &&& mask (s.bitsInWord s.index))).complete

/-- BV_RDWORD (R196). -/
def execBvRdword (s : State) : Result :=
  if s.nb ≤ s.index then .next (s.raiseFault .indexRange)
  else match s.blkWord s.index with
    | .ok w => .next (s.completeWith w)
    | .error f => .fault f

/-! ### The build engine (R197) -/

/-- The build engine's hidden state (10_state.md R56): the rank table under construction, the ones and zeros before the current
word, and the sample lists. It lives inside one BV_BUILD only. -/
structure BuildAcc where
  rt : List RankEntry
  c1 : Nat
  c0 : Nat
  l1 : List Word32
  l0 : List Word32
  deriving DecidableEq, Repr

/-- Take one sample where the word holds the bit of rank `512*len(L)` (R204): `w` is the word searched, `c` the count before it,
`p` the count inside it, `base` the position of its bit 0. -/
def takeSample (wanted : Bool) (w : Word) (base c p : Nat) (l : List Word32) : Except Fault (List Word32) :=
  if wanted = true ∧ 512 * l.length < c + p then do
    let q ← selw w (512 * l.length - c)
    return l ++ [BitVec.ofNat 32 (base + q)]
  else return l

/-- Record the count before word `i`: the absolute count of a group's first word (R199), a relative count otherwise (R200). -/
def recordCount (rt : List RankEntry) (i c1 : Nat) : List RankEntry :=
  rt.modify (i / 8) fun e =>
    if i % 8 = 0 then setAbs e (BitVec.ofNat 64 c1) else setRel e (i % 8) (BitVec.ofNat 64 (c1 - getAbs e))

/-- One word of the pass over `blocks` (R197, R199, R200, R204). -/
def buildWord (s : State) (fs1 fs0 : Bool) (i : Nat) (a : BuildAcc) : Except Fault BuildAcc := do
  let w ← s.blkWord i
  let n := s.bitsInWord i
  let p1 := popcount w
  let p0 := n - p1
  let l1 ← takeSample fs1 w (64 * i) a.c1 p1 a.l1
  let l0 ← takeSample fs0 (~~~w &&& mask n) (64 * i) a.c0 p0 a.l0
  return { rt := recordCount a.rt i a.c1, c1 := a.c1 + p1, c0 := a.c0 + p0, l1, l0 }

/-- The engine after the first `i` words of the pass, from a rank table of `groups + 1` zero entries (R197). -/
def buildPass (s : State) (fs1 fs0 : Bool) : Nat → Except Fault BuildAcc
  | 0 => return { rt := List.replicate (ceilDiv s.nb 8 + 1) { abs := 0, rel := 0 }, c1 := 0, c0 := 0, l1 := [], l0 := [] }
  | i + 1 => do
    let a ← buildPass s fs1 fs0 i
    buildWord s fs1 fs0 i a

/-- Back-fill of a last group that is not full (R201): sub-fields from `((nb-1) mod 8) + 1` to 7 take the group's 1-count. -/
def backFill (nb c1 : Nat) (rt : List RankEntry) : List RankEntry :=
  if nb % 8 = 0 then rt
  else rt.modify ((nb - 1) / 8) fun e =>
    (List.range' ((nb - 1) % 8 + 1) (7 - (nb - 1) % 8)).foldl (fun e k => setRel e k (BitVec.ofNat 64 (c1 - getAbs e))) e

/-- The finished rank table: back-fill (R201), then the sentinel's absolute count (R202). -/
def finishRankTable (nb c1 : Nat) (rt : List RankEntry) : List RankEntry :=
  (backFill nb c1 rt).modify (ceilDiv nb 8) fun e => setAbs e (BitVec.ofNat 64 c1)

/-- BV_BUILD FS1, FS0 (R197): index the vector and freeze it (R205, R208, R209). -/
def execBvBuild (fs1 fs0 : Bool) (s : State) : Result :=
  if s.frozen then .next (s.raiseFault .frozenWrite)
  else match buildPass s fs1 fs0 s.nb with
    | .ok a => .next { s.complete with
        rt := finishRankTable s.nb a.c1 a.rt
        ones := BitVec.ofNat 32 a.c1
        s1 := if fs1 then a.l1 ++ [s.size] else []
        s0 := if fs0 then a.l0 ++ [s.size] else []
        fs1 := fs1
        fs0 := fs0
        frozen := true }
    | .error f => .fault f

end Sys2Proof.Machine
end

