-- ==== Sys2Proof/Machine/Rank.lean ====
section
/-! DEFINITION. The rank unit and the counts (43_rank.md R230 to R236). -/

namespace Sys2Proof.Machine

/-- The rank datapath (R230): one rank-table entry, one relative field and, unless `i mod 64 = 0`, one masked word. -/
def rank1At (s : State) (i : Nat) : Except Fault Nat := do
  let e ← s.rtEntry (i / 512)
  let r := getAbs e + getRel e (i / 64 % 8)
  if i % 64 = 0 then return r
  else
    let w ← s.blkWord (i / 64)
    return r + popcount (w &&& mask (i % 64))

/-- RANK1 (R232). -/
def execRank1 (s : State) : Result :=
  if s.frozen = false then .next (s.raiseFault .notBuilt)
  else if s.size.toNat < s.index then .next (s.raiseFault .indexRange)
  else s.finish (rank1At s s.index)

/-- RANK0 (R233): `i - rank1(i)`. -/
def execRank0 (s : State) : Result :=
  if s.frozen = false then .next (s.raiseFault .notBuilt)
  else if s.size.toNat < s.index then .next (s.raiseFault .indexRange)
  else s.finish (do
    let r ← rank1At s s.index
    return s.index - r)

/-- COUNT1 (R234). -/
def execCount1 (s : State) : Result :=
  if s.frozen = false then .next (s.raiseFault .notBuilt)
  else .next (s.completeWith (BitVec.ofNat 64 (s.countOf true)))

/-- COUNT0 (R235). -/
def execCount0 (s : State) : Result :=
  if s.frozen = false then .next (s.raiseFault .notBuilt)
  else .next (s.completeWith (BitVec.ofNat 64 (s.countOf false)))

/-- RT_LEN (R236). -/
def execRtLen (s : State) : Result :=
  if s.frozen = false then .next (s.raiseFault .notBuilt)
  else .next (s.completeWith (BitVec.ofNat 64 s.rt.length))

end Sys2Proof.Machine
end

