-- ==== Sys2Proof/Machine/Select.lean ====
section
/-! DEFINITION. The select unit and the sampling-table commands (44_select.md R260 to R272). -/

namespace Sys2Proof.Machine

/-- `A_v(g)`, the number of `v`-bits before group `g` (R261). -/
def groupCount (s : State) (v : Bool) (g : Nat) : Except Fault Nat := do
  let e ← s.rtEntry g
  return if v then getAbs e else 512 * g - getAbs e

/-- `R_v(g, j)`, the number of `v`-bits in the first `j` words of the group with entry `e` (R261). -/
def wordCount (v : Bool) (e : RankEntry) (j : Nat) : Nat := if v then getRel e j else 64 * j - getRel e j

/-- What step 1 of the datapath finds: the answer itself, or an inclusive bracket of groups (R262, R263). -/
inductive Bracket where
  | exact (pos : Nat)
  | groups (lo hi : Nat)
  deriving DecidableEq, Repr

/-- Step 1 (R262 with a sampling table, R263 without): a table lookup is exact when 512 divides `x`. -/
def bracket (s : State) (v : Bool) (x : Nat) : Except Fault Bracket :=
  if s.hasSamples v then do
    let a ← s.sample v (x / 512)
    if x % 512 = 0 then return .exact a
    else
      let b ← s.sample v (x / 512 + 1)
      return .groups (a / 512) ((b - 1) / 512)
  else return .groups 0 (s.rt.length - 2)

/-- Linear scan of the groups `lo .. lo + n - 1`: the largest with `A_v(g) <= x` (R264, R265; log entry 13). -/
def linearSearch (s : State) (v : Bool) (x lo : Nat) : Nat → Except Fault Nat
  | 0 => .error .noGroup
  | n + 1 => do
    let a ← groupCount s v (lo + n)
    if a ≤ x then return lo + n else linearSearch s v x lo n

/-- Binary search of the groups `lo .. hi` on `A_v` (R265; log entry 13). The first argument bounds the halvings. -/
def binarySearch (s : State) (v : Bool) (x : Nat) : Nat → Nat → Nat → Except Fault Nat
  | 0, _, _ => .error .noGroup
  | n + 1, lo, hi =>
    if hi ≤ lo then do
      let a ← groupCount s v lo
      if a ≤ x then return lo else .error .noGroup
    else do
      let mid := (lo + hi + 1) / 2
      let a ← groupCount s v mid
      if a ≤ x then binarySearch s v x n mid hi else binarySearch s v x n lo (mid - 1)

/-- Step 2, the group (R264): linear scan of at most 10 groups, binary search of more (R265, D34). -/
def findGroup (s : State) (v : Bool) (x lo hi : Nat) : Except Fault Nat :=
  if hi - lo + 1 ≤ Config.linearScanGroups then linearSearch s v x lo (hi + 1 - lo)
  else binarySearch s v x (hi - lo + 1) lo hi

/-- Step 3, the word (R266): the largest `j <= n` with `R_v(g, j) <= off`; `R_v(g, 0) = 0` always qualifies. -/
def findWord (v : Bool) (e : RankEntry) (off : Nat) : Nat → Nat
  | 0 => 0
  | j + 1 => if wordCount v e (j + 1) ≤ off then j + 1 else findWord v e off j

/-- The word searched in step 4 (R267): `BLK` for ones, `~BLK` for zeros. -/
def searchedWord (v : Bool) (w : Word) : Word := if v then w else ~~~w

/-- Steps 3 and 4 in group `g` (R266, R267). -/
def selectInGroup (s : State) (v : Bool) (x g : Nat) : Except Fault Nat := do
  let a ← groupCount s v g
  let e ← s.rtEntry g
  let off := x - a
  let j := findWord v e off 7
  let w ← s.blkWord (8 * g + j)
  let q ← selw (searchedWord v w) (off - wordCount v e j)
  return 512 * g + 64 * j + q

/-- The select datapath (R262 to R267). -/
def selectAt (s : State) (v : Bool) (x : Nat) : Except Fault Nat := do
  match ← bracket s v x with
  | .exact p => return p
  | .groups lo hi =>
    let g ← findGroup s v x lo hi
    selectInGroup s v x g

/-- The body SELECT1 and SELECT0 share (R269, R270): NOT_BUILT, then NotFound for `x >= count_v`, then the datapath. -/
def selectBody (v : Bool) (s : State) : Result :=
  if s.frozen = false then .next (s.raiseFault .notBuilt)
  else if s.countOf v ≤ s.index then .next s.notFound
  else s.finish (selectAt s v s.index)

/-- SELECT1 (R269). -/
def execSelect1 (s : State) : Result := selectBody true s

/-- SELECT0 (R270). -/
def execSelect0 (s : State) : Result := selectBody false s

/-- SMP_LEN V (R271). -/
def execSmpLen (v : Bool) (s : State) : Result :=
  if s.frozen = false then .next (s.raiseFault .notBuilt)
  else .next (s.completeWith (BitVec.ofNat 64 (s.samples v).length))

/-- SMP_READ V (R272). -/
def execSmpRead (v : Bool) (s : State) : Result :=
  if s.frozen = false then .next (s.raiseFault .notBuilt)
  else if (s.samples v).length ≤ s.index then .next (s.raiseFault .indexRange)
  else s.finish (s.sample v s.index)

end Sys2Proof.Machine
end

