-- ==== Sys2Proof/Machine/Dispatch.lean ====
section
/-! DEFINITION. The dispatch of a command to its meaning, one arm per row of the opcode map (30_encoding.md R113). -/

namespace Sys2Proof.Machine

def exec (i : Instr) (s : State) : Host.Outcome State Fault Refusal :=
  match i with
  | .popcnt => Sys2Proof.Machine.execPopcnt s
  | .selw => Sys2Proof.Machine.execSelw s
  | .riClr => Sys2Proof.Machine.execRiClr s
  | .riSetabs => Sys2Proof.Machine.execRiSetabs s
  | .riSetrel k => Sys2Proof.Machine.execRiSetrel k s
  | .riGetabs => Sys2Proof.Machine.execRiGetabs s
  | .riGetrel k => Sys2Proof.Machine.execRiGetrel k s
  | .riLoad => Sys2Proof.Machine.execRiLoad s
  | .riGetpack => Sys2Proof.Machine.execRiGetpack s
  | .riSetpack => Sys2Proof.Machine.execRiSetpack s
  | .bvClear => Sys2Proof.Machine.execBvClear s
  | .bvSet v => Sys2Proof.Machine.execBvSet v s
  | .bvPush v => Sys2Proof.Machine.execBvPush v s
  | .bvGet => Sys2Proof.Machine.execBvGet s
  | .bvWrword => Sys2Proof.Machine.execBvWrword s
  | .bvRdword => Sys2Proof.Machine.execBvRdword s
  | .bvBuild fs1 fs0 => Sys2Proof.Machine.execBvBuild fs1 fs0 s
  | .rank0 => Sys2Proof.Machine.execRank0 s
  | .rank1 => Sys2Proof.Machine.execRank1 s
  | .count0 => Sys2Proof.Machine.execCount0 s
  | .count1 => Sys2Proof.Machine.execCount1 s
  | .rtLen => Sys2Proof.Machine.execRtLen s
  | .select0 => Sys2Proof.Machine.execSelect0 s
  | .select1 => Sys2Proof.Machine.execSelect1 s
  | .smpLen v => Sys2Proof.Machine.execSmpLen v s
  | .smpRead v => Sys2Proof.Machine.execSmpRead v s

end Sys2Proof.Machine
end

