-- ==== Sys2Proof/WellFormed.lean ====
section
/-! DEFINITION. Which commands a legal command word can stand for (30_encoding.md R111, R115 (c)). -/

namespace Sys2Proof

/-- A command is well-formed when its sub-field number K, if it has one, is 1..7: K = 0 is illegal (R115 (c)). -/
def Instr.wellFormed : Instr → Bool
  | .riSetrel k | .riGetrel k => k != 0
  | .popcnt | .selw | .riClr | .riSetabs | .riGetabs | .riLoad | .riGetpack | .riSetpack => true
  | .bvClear | .bvSet _ | .bvPush _ | .bvGet | .bvWrword | .bvRdword | .bvBuild _ _ => true
  | .rank0 | .rank1 | .count0 | .count1 | .rtLen => true
  | .select0 | .select1 | .smpLen _ | .smpRead _ => true

end Sys2Proof
end

