-- ==== Sys2Proof/Decode.lean ====
section
/-! DEFINITION. The command decoder, total on 32-bit words (30_encoding.md R113, R115 to R117), and the encoder, written from
the same tables. -/

namespace Sys2Proof

/-- The four formats (R111). -/
inductive Format where
  | n | v | f | k
  deriving DecidableEq, Repr

/-- Why a word is illegal: the three cases of R115, and a byte string that is no 32-bit word (R110). -/
inductive DecodeError where
  /-- R115 (a): OPC is none of the 23 values. -/
  | unassignedOpcode
  /-- R115 (b): a reserved bit of the format is 1. -/
  | reservedBits
  /-- R115 (c): K-format and K = 0. -/
  | zeroSubfield
  /-- Not four bytes: every command is one 32-bit word (R110). -/
  | wrongLength
  deriving DecidableEq, Repr

/-- OPC, bits 7:0 (R111). -/
def opcField (c : Word32) : BitVec 8 := c.extractLsb' 0 8

/-- Bits 31:8, the `hi` of R117. -/
def hiField (c : Word32) : BitVec 24 := c.extractLsb' 8 24

/-- V or FS1, bit 8 (R111). -/
def bit8 (c : Word32) : Bool := c.getLsbD 8

/-- FS0, bit 9 (R111). -/
def bit9 (c : Word32) : Bool := c.getLsbD 9

/-- K, bits 10:8 (R111). -/
def kField (c : Word32) : BitVec 3 := c.extractLsb' 8 3

/-- How many bits above OPC the format uses; the rest are reserved (R111). -/
def Format.usedBits : Format → Nat
  | .n => 0
  | .v => 1
  | .f => 2
  | .k => 3

/-- The opcode map (R113): the format of an opcode and the command it selects, with its fields read from the word; none for an
opcode that is not in the map. For opcodes 0x30, 0x31 and 0x40, V selects the command (R117). -/
def opcodeEntry (opc : BitVec 8) (c : Word32) : Option (Format × Instr) :=
  match opc.toNat with
  | 0x01 => some (.n, .popcnt)
  | 0x02 => some (.n, .selw)
  | 0x10 => some (.n, .riClr)
  | 0x11 => some (.n, .riSetabs)
  | 0x12 => some (.k, .riSetrel (kField c))
  | 0x13 => some (.n, .riGetabs)
  | 0x14 => some (.k, .riGetrel (kField c))
  | 0x15 => some (.n, .riLoad)
  | 0x16 => some (.n, .riGetpack)
  | 0x17 => some (.n, .riSetpack)
  | 0x20 => some (.n, .bvClear)
  | 0x21 => some (.v, .bvSet (bit8 c))
  | 0x22 => some (.v, .bvPush (bit8 c))
  | 0x23 => some (.n, .bvGet)
  | 0x24 => some (.n, .bvWrword)
  | 0x25 => some (.n, .bvRdword)
  | 0x26 => some (.f, .bvBuild (bit8 c) (bit9 c))
  | 0x30 => some (.v, if bit8 c then .rank1 else .rank0)
  | 0x31 => some (.v, if bit8 c then .count1 else .count0)
  | 0x32 => some (.n, .rtLen)
  | 0x40 => some (.v, if bit8 c then .select1 else .select0)
  | 0x41 => some (.v, .smpLen (bit8 c))
  | 0x42 => some (.v, .smpRead (bit8 c))
  | _ => none

/-- The decode function of R117. -/
def decode (c : Word32) : Except DecodeError Instr :=
  match opcodeEntry (opcField c) c with
  | none => .error .unassignedOpcode
  | some (fmt, i) =>
    if (hiField c >>> fmt.usedBits) ≠ 0 then .error .reservedBits
    else if fmt = .k ∧ kField c = 0 then .error .zeroSubfield
    else .ok i

/-- The command whose four bytes, little-endian (20_memory.md R79), are given. -/
def decodeBytes : List Byte → Except DecodeError Instr
  | [b0, b1, b2, b3] => decode (b3 ++ b2 ++ b1 ++ b0)
  | _ => .error .wrongLength

/-- The opcode of a command (R113). -/
def opcodeOf : Instr → BitVec 8
  | .popcnt => 0x01
  | .selw => 0x02
  | .riClr => 0x10
  | .riSetabs => 0x11
  | .riSetrel _ => 0x12
  | .riGetabs => 0x13
  | .riGetrel _ => 0x14
  | .riLoad => 0x15
  | .riGetpack => 0x16
  | .riSetpack => 0x17
  | .bvClear => 0x20
  | .bvSet _ => 0x21
  | .bvPush _ => 0x22
  | .bvGet => 0x23
  | .bvWrword => 0x24
  | .bvRdword => 0x25
  | .bvBuild _ _ => 0x26
  | .rank0 | .rank1 => 0x30
  | .count0 | .count1 => 0x31
  | .rtLen => 0x32
  | .select0 | .select1 => 0x40
  | .smpLen _ => 0x41
  | .smpRead _ => 0x42

/-- Bits 31:8 of a command's word: V in bit 8, FS1 in bit 8 and FS0 in bit 9, or K in bits 10:8 (R111). -/
def fieldsOf : Instr → BitVec 24
  | .riSetrel k | .riGetrel k => k.setWidth 24
  | .bvSet v | .bvPush v | .smpLen v | .smpRead v => (BitVec.ofBool v).setWidth 24
  | .bvBuild fs1 fs0 => (BitVec.ofBool fs0 ++ BitVec.ofBool fs1).setWidth 24
  | .rank1 | .count1 | .select1 => 1
  | .rank0 | .count0 | .select0 => 0
  | .popcnt | .selw | .riClr | .riSetabs | .riGetabs | .riLoad | .riGetpack | .riSetpack => 0
  | .bvClear | .bvGet | .bvWrword | .bvRdword | .rtLen => 0

/-- The word of a command (R111, R113). -/
def encode (i : Instr) : Word32 := fieldsOf i ++ opcodeOf i

/-- The mnemonic of a command (R113). -/
def mnemonicOf : Instr → String
  | .popcnt => "POPCNT"
  | .selw => "SELW"
  | .riClr => "RI_CLR"
  | .riSetabs => "RI_SETABS"
  | .riSetrel _ => "RI_SETREL"
  | .riGetabs => "RI_GETABS"
  | .riGetrel _ => "RI_GETREL"
  | .riLoad => "RI_LOAD"
  | .riGetpack => "RI_GETPACK"
  | .riSetpack => "RI_SETPACK"
  | .bvClear => "BV_CLEAR"
  | .bvSet _ => "BV_SET"
  | .bvPush _ => "BV_PUSH"
  | .bvGet => "BV_GET"
  | .bvWrword => "BV_WRWORD"
  | .bvRdword => "BV_RDWORD"
  | .bvBuild _ _ => "BV_BUILD"
  | .rank0 => "RANK0"
  | .rank1 => "RANK1"
  | .count0 => "COUNT0"
  | .count1 => "COUNT1"
  | .rtLen => "RT_LEN"
  | .select0 => "SELECT0"
  | .select1 => "SELECT1"
  | .smpLen _ => "SMP_LEN"
  | .smpRead _ => "SMP_READ"

/-- One row of the printed opcode map: `(c & mask) == match` (R113). -/
structure OpcodeRow where
  mnemonic : String
  mtch : Word32
  msk : Word32
  kFormat : Bool
  deriving DecidableEq, Repr

/-- The opcode map as R113 prints it. The decoder does not use it: it is the other way of writing the same rule. -/
def opcodeRows : List OpcodeRow :=
  [⟨"POPCNT", 0x00000001, 0xFFFFFFFF, false⟩, ⟨"SELW", 0x00000002, 0xFFFFFFFF, false⟩,
    ⟨"RI_CLR", 0x00000010, 0xFFFFFFFF, false⟩, ⟨"RI_SETABS", 0x00000011, 0xFFFFFFFF, false⟩,
    ⟨"RI_SETREL", 0x00000012, 0xFFFFF8FF, true⟩, ⟨"RI_GETABS", 0x00000013, 0xFFFFFFFF, false⟩,
    ⟨"RI_GETREL", 0x00000014, 0xFFFFF8FF, true⟩, ⟨"RI_LOAD", 0x00000015, 0xFFFFFFFF, false⟩,
    ⟨"RI_GETPACK", 0x00000016, 0xFFFFFFFF, false⟩, ⟨"RI_SETPACK", 0x00000017, 0xFFFFFFFF, false⟩] ++
  [⟨"BV_CLEAR", 0x00000020, 0xFFFFFFFF, false⟩, ⟨"BV_SET", 0x00000021, 0xFFFFFEFF, false⟩,
    ⟨"BV_PUSH", 0x00000022, 0xFFFFFEFF, false⟩, ⟨"BV_GET", 0x00000023, 0xFFFFFFFF, false⟩,
    ⟨"BV_WRWORD", 0x00000024, 0xFFFFFFFF, false⟩, ⟨"BV_RDWORD", 0x00000025, 0xFFFFFFFF, false⟩,
    ⟨"BV_BUILD", 0x00000026, 0xFFFFFCFF, false⟩] ++
  [⟨"RANK0", 0x00000030, 0xFFFFFFFF, false⟩, ⟨"RANK1", 0x00000130, 0xFFFFFFFF, false⟩,
    ⟨"COUNT0", 0x00000031, 0xFFFFFFFF, false⟩, ⟨"COUNT1", 0x00000131, 0xFFFFFFFF, false⟩,
    ⟨"RT_LEN", 0x00000032, 0xFFFFFFFF, false⟩, ⟨"SELECT0", 0x00000040, 0xFFFFFFFF, false⟩,
    ⟨"SELECT1", 0x00000140, 0xFFFFFFFF, false⟩, ⟨"SMP_LEN", 0x00000041, 0xFFFFFEFF, false⟩,
    ⟨"SMP_READ", 0x00000042, 0xFFFFFEFF, false⟩]

/-- A word matches a row: `(c & mask) == match`, and `K != 0` for a K-format row (R113). -/
def OpcodeRow.accepts (r : OpcodeRow) (c : Word32) : Bool :=
  (c &&& r.msk) == r.mtch && (!r.kFormat || kField c != 0)

/-- The instruction the decoder reads from a word numbered as the opcode table numbers it: bit 0 is the least significant bit
of the one 32-bit word (R110). A number that needs more than 32 bits is no command word (log entry 25). -/
def decodeTableWord (_nbits w : Nat) : Option Instr :=
  if w < 2 ^ 32 then (decode (BitVec.ofNat 32 w)).toOption else none

end Sys2Proof
end

