-- ==== Sys2Proof/Machine/HostPort.lean ====
section
/-! DEFINITION. The host's register window (10_state.md R31 to R48, 20_memory.md R77 to R79, R87) and the reset input
(70_reset_and_hazards.md R320, R321). -/

namespace Sys2Proof.Machine

/-- Which accesses the window takes (20_memory.md R78): 32 bits at a multiple of 4, or 64 bits at a multiple of 8 other than
0x00. STATUS, at 0x04, takes no 64-bit access since 0x04 is no multiple of 8. -/
def accessOk (off width : Nat) : Bool :=
  (width == 32 && off % 4 == 0) || (width == 64 && off % 8 == 0 && off != 0)

/-- The 64-bit register at an offset (10_state.md R31); reserved offsets read 0 (R45). -/
def State.reg64 (s : State) (off : Nat) : Word :=
  match off with
  | 0x08 => s.arg0
  | 0x10 => s.arg1
  | 0x18 => s.res
  | 0x20 => s.size.setWidth 64
  | 0x28 => s.ones.setWidth 64
  | 0x30 => s.maxBits.setWidth 64
  | _ => 0

/-- What a 32-bit read returns: 0 at CMD (R32), STATUS (R36), or the low or the high half of a 64-bit register, the low half at
its offset and the high half at its offset + 4 (20_memory.md R78, R79). -/
def State.reg32 (s : State) (off : Nat) : Word32 :=
  match off with
  | 0x00 => 0
  | 0x04 => s.statusWord
  | _ => if off % 8 = 0 then (s.reg64 off).extractLsb' 0 32 else (s.reg64 (off - 4)).extractLsb' 32 32

/-- A host read at a window offset: the value returned, zero-extended to 64 bits. An access that is not allowed reads 0
(20_memory.md R78). A read has no side effect (R87). -/
def State.hostRead (s : State) (off width : Nat) : Word :=
  if accessOk off width = false then 0
  else if width = 64 then s.reg64 off
  else (s.reg32 off).setWidth 64

/-- A host write of CMD (10_state.md R32, R43): issue the command when no command runs, latching it with ARG0 and ARG1;
otherwise drop it and set OVERRUN. -/
def State.writeCmd (s : State) (c : Word32) : State :=
  match s.running with
  | none => { s with running := some { cmd := c, arg0 := s.arg0, arg1 := s.arg1 } }
  | some _ => { s with overrun := true }

/-- `r` with its low half replaced. -/
def setLow (r : Word) (v : Word32) : Word := r.extractLsb' 32 32 ++ v

/-- `r` with its high half replaced. -/
def setHigh (r : Word) (v : Word32) : Word := v ++ r.extractLsb' 0 32

/-- A 32-bit host write (10_state.md R31 to R34, R45). Read-only registers and reserved offsets ignore it. -/
def State.write32 (s : State) (off : Nat) (v : Word32) : State :=
  match off with
  | 0x00 => s.writeCmd v
  | 0x04 => s.writeStatus v
  | 0x08 => { s with arg0 := setLow s.arg0 v }
  | 0x0C => { s with arg0 := setHigh s.arg0 v }
  | 0x10 => { s with arg1 := setLow s.arg1 v }
  | 0x14 => { s with arg1 := setHigh s.arg1 v }
  | _ => s

/-- A 64-bit host write (10_state.md R31, R33, R34). Read-only registers and reserved offsets ignore it. -/
def State.write64 (s : State) (off : Nat) (v : Word) : State :=
  match off with
  | 0x08 => { s with arg0 := v }
  | 0x10 => { s with arg1 := v }
  | _ => s

/-- A host write at a window offset; the data of a 32-bit write is the low half of `v` (log entry 16). An access that is not
allowed writes nothing (20_memory.md R78). -/
def State.hostWrite (s : State) (off width : Nat) (v : Word) : State :=
  if accessOk off width = false then s
  else if width = 64 then s.write64 off v
  else s.write32 off (v.extractLsb' 0 32)

/-- The window offset of a host address; none outside the 256-byte window at REG_BASE (10_state.md R31). -/
def windowOffset (addr : Nat) : Option Nat :=
  if Config.regBase ≤ addr ∧ addr < Config.regBase + 256 then some (addr - Config.regBase) else none

/-- A host read. One outside the window does not reach the block (log entry 8). -/
def State.busRead (s : State) (addr width : Nat) : State :=
  match windowOffset addr with
  | some off => { s with rdata := s.hostRead off width }
  | none => s

/-- A host write. One outside the window does not reach the block (log entry 8). -/
def State.busWrite (s : State) (addr width : Nat) (v : Word) : State :=
  match windowOffset addr with
  | some off => s.hostWrite off width v
  | none => s

/-- The reset input (R320, R321): every piece of the block's state takes its reset value, so a running command is aborted. MAXBITS
is a constant, and what lies outside the block is not reset (log entry 17). -/
def State.resetInput (s : State) : State :=
  { State.reset with maxBits := s.maxBits, agenda := s.agenda, rdata := s.rdata }

end Sys2Proof.Machine
end

