-- ==== Sys2Proof/Machine/Engine.lean ====
section
/-! DEFINITION. The command engine's turn (10_state.md R32, R37) and the events of the agenda (log entry 2). -/

namespace Sys2Proof.Machine

/-- The engine's turn: decode and execute the running command and commit it (R32, 20_memory.md R90). An illegal word faults with
ILLEGAL_COMMAND before any other check (30_encoding.md R115, 60_exceptions.md R294). With no command running the block is idle
with its state held (60_exceptions.md R305). -/
def State.engineTurn (s : State) : Result :=
  match s.running with
  | none => .next s
  | some l =>
    match decode l.cmd with
    | .ok i => exec i s
    | .error _ => .next (s.raiseFault .illegalCommand)

/-- One event. -/
def State.takeEvent (s : State) : HostEvent → Result
  | .read addr width => .next (s.busRead addr width)
  | .write addr width data => .next (s.busWrite addr width data)
  | .engine => s.engineTurn
  | .reset => .next s.resetInput

/-- The next event of the agenda, taken off it; with nothing on the agenda, the engine's turn (log entry 4). -/
def State.nextEvent (s : State) : Result :=
  match s.agenda with
  | [] => s.engineTurn
  | e :: rest => { s with agenda := rest }.takeEvent e

end Sys2Proof.Machine
end

