-- ==== Sys2Proof/Machine/Step.lean ====
section
/-! DEFINITION. One step of the machine, and where a command word is placed so that the next step runs it. -/

namespace Sys2Proof.Machine

/-- One step: one host access, one reset, or one turn of the command engine (log entries 2 and 4). -/
def step (s : State) : Host.Outcome State Fault Refusal := s.nextEvent

/-- `s` with the command word `w` issued: latched with ARG0 and ARG1 as a write of CMD latches it (10_state.md R32), and the
engine's turn next on the agenda. The block fetches no instructions (20_memory.md R93; log entry 6). -/
def State.withFetchWord (s : State) (_nbits w : Nat) : State :=
  { s with
    running := some { cmd := BitVec.ofNat 32 w, arg0 := s.arg0, arg1 := s.arg1 }
    agenda := .engine :: s.agenda }

end Sys2Proof.Machine
end

