-- ==== Sys2Proof/Machine/Record.lean ====
section
/-! DEFINITION. The BitVector record, the host's image of a bit vector (20_memory.md R81 to R83, R86). -/

namespace Sys2Proof.Machine

/-- The fields of the record, in its order (R81). -/
structure Record where
  size : Word
  numOfOnes : Word
  blocks : List Word
  rankTable : List RankEntry
  select0Table : List Word32
  select1Table : List Word32
  deriving DecidableEq, Repr

/-- The `n` low bytes of a number, little-endian (R79, R81). -/
def bytesLE : Nat → Nat → List Byte
  | 0, _ => []
  | n + 1, v => BitVec.ofNat 8 v :: bytesLE n (v / 256)

/-- The number whose little-endian bytes are given. -/
def numberLE : List Byte → Nat
  | [] => 0
  | b :: bs => b.toNat + 256 * numberLE bs

/-- A `u64` (R81). -/
def u64 (v : Word) : List Byte := bytesLE 8 v.toNat

/-- A `u32` (R81). -/
def u32 (v : Word32) : List Byte := bytesLE 4 v.toNat

/-- A rankTable element: `abs` in bytes 0..3, zero padding in bytes 4..7, `rel` in bytes 8..15 (R83). -/
def entryBytes (e : RankEntry) : List Byte := u32 e.abs ++ bytesLE 4 0 ++ u64 e.rel

/-- A container: its element count, then its elements (R82). -/
def container {α : Type} (element : α → List Byte) (xs : List α) : List Byte :=
  u64 (BitVec.ofNat 64 xs.length) ++ xs.flatMap element

/-- The record's bytes (R81). -/
def Record.toBytes (r : Record) : List Byte :=
  u64 r.size ++ u64 r.numOfOnes ++ container u64 r.blocks ++ container entryBytes r.rankTable ++
    container u32 r.select0Table ++ container u32 r.select1Table

/-- Read a number of `n` bytes from the front. -/
def readNumber (n : Nat) (bs : List Byte) : Option (Nat × List Byte) :=
  if n ≤ bs.length then some (numberLE (bs.take n), bs.drop n) else none

/-- Read a `u64`. -/
def readU64 (bs : List Byte) : Option (Word × List Byte) :=
  (readNumber 8 bs).map fun p => (BitVec.ofNat 64 p.1, p.2)

/-- Read a `u32`. -/
def readU32 (bs : List Byte) : Option (Word32 × List Byte) :=
  (readNumber 4 bs).map fun p => (BitVec.ofNat 32 p.1, p.2)

/-- Read a rankTable element; the padding is ignored (R83). -/
def readEntry (bs : List Byte) : Option (RankEntry × List Byte) := do
  let (abs, bs) ← readU32 bs
  let (_, bs) ← readNumber 4 bs
  let (rel, bs) ← readU64 bs
  return ({ abs, rel }, bs)

/-- Read `n` elements. -/
def readElements {α : Type} (element : List Byte → Option (α × List Byte)) : Nat → List Byte → Option (List α × List Byte)
  | 0, bs => some ([], bs)
  | n + 1, bs => do
    let (x, bs) ← element bs
    let (xs, bs) ← readElements element n bs
    return (x :: xs, bs)

/-- Read a container (R82). -/
def readContainer {α : Type} (element : List Byte → Option (α × List Byte)) (bs : List Byte) : Option (List α × List Byte) := do
  let (n, bs) ← readU64 bs
  readElements element n.toNat bs

/-- The record some bytes hold; none when they do not have exactly the length R81 gives for their counts (R85 step 1). -/
def Record.ofBytes (bs : List Byte) : Option Record := do
  let (size, bs) ← readU64 bs
  let (numOfOnes, bs) ← readU64 bs
  let (blocks, bs) ← readContainer readU64 bs
  let (rankTable, bs) ← readContainer readEntry bs
  let (select0Table, bs) ← readContainer readU32 bs
  let (select1Table, bs) ← readContainer readU32 bs
  if bs.isEmpty then return { size, numOfOnes, blocks, rankTable, select0Table, select1Table } else none

end Sys2Proof.Machine
end

