-- ==== Sys2Proof/Machine/HostProc.lean ====
section
/-! DEFINITION. The host's side: its assembly notation (30_encoding.md R118, R119) as events of the agenda, and its save and load
procedures (20_memory.md R84, R85) as sequences of host accesses. -/

namespace Sys2Proof.Machine

/-! ### Assembly notation -/

/-- The registers `RD` may name (R118). -/
inductive HostReg where
  | res | status | size | numones | maxbits
  deriving DecidableEq, Repr

/-- A line of the notation (R118). -/
inductive Line where
  | wrArg0 (n : Word)
  | wrArg1 (n : Word)
  | cmd (m : Instr)
  | wait
  | rd (r : HostReg)
  | w1c (n : Word32)
  deriving DecidableEq, Repr

/-- Window offset and access width of a register (10_state.md R31). -/
def HostReg.access : HostReg → Nat × Nat
  | .status => (0x04, 32)
  | .res => (0x18, 64)
  | .size => (0x20, 64)
  | .numones => (0x28, 64)
  | .maxbits => (0x30, 64)

/-- The read of a register. -/
def HostReg.readEvent (r : HostReg) : HostEvent := .read (Config.regBase + r.access.1) r.access.2

/-- The host accesses of a line (R118). WAIT, which polls STATUS until BUSY = 0, is the engine's turn and the read that sees it
(log entry 19). -/
def Line.events : Line → List HostEvent
  | .wrArg0 n => [.write (Config.regBase + 0x08) 64 n]
  | .wrArg1 n => [.write (Config.regBase + 0x10) 64 n]
  | .cmd m => [.write (Config.regBase + 0x00) 32 ((encode m).setWidth 64)]
  | .wait => [.engine, HostReg.status.readEvent]
  | .rd r => [r.readEvent]
  | .w1c n => [.write (Config.regBase + 0x04) 32 (n.setWidth 64)]

/-- The pseudo-instructions (R119). -/
inductive Pseudo where
  | do0 (m : Instr)
  | do1 (m : Instr) (a : Word)
  | do2 (m : Instr) (a b : Word)
  | rank1 (i : Word)
  | rank0 (i : Word)
  | select1 (x : Word)
  | select0 (x : Word)
  | set (i : Word) (b : Bool)
  | push (b : Bool)
  | build (f1 f0 : Bool)
  | size (b : Bool)
  | setAbs (v : Word)
  | setRel (k : BitVec 3) (v : Word)
  | getAbs
  | getRel (k : BitVec 3)
  deriving DecidableEq, Repr

/-- Their expansions (R119). -/
def Pseudo.expand : Pseudo → List Line
  | .do0 m => [.cmd m, .wait]
  | .do1 m a => [.wrArg0 a, .cmd m, .wait]
  | .do2 m a b => [.wrArg0 a, .wrArg1 b, .cmd m, .wait]
  | .rank1 i => [.wrArg0 i, .cmd .rank1, .wait, .rd .res]
  | .rank0 i => [.wrArg0 i, .cmd .rank0, .wait, .rd .res]
  | .select1 x => [.wrArg0 x, .cmd .select1, .wait, .rd .status, .rd .res]
  | .select0 x => [.wrArg0 x, .cmd .select0, .wait, .rd .status, .rd .res]
  | .set i b => [.wrArg0 i, .cmd (.bvSet b), .wait]
  | .push b => [.cmd (.bvPush b), .wait]
  | .build f1 f0 => [.cmd (.bvBuild f1 f0), .wait]
  | .size b => [.cmd (if b then .count1 else .count0), .wait, .rd .res]
  | .setAbs v => [.wrArg0 v, .cmd .riSetabs, .wait]
  | .setRel k v => [.wrArg0 v, .cmd (.riSetrel k), .wait]
  | .getAbs => [.cmd .riGetabs, .wait, .rd .res]
  | .getRel k => [.cmd (.riGetrel k), .wait, .rd .res]

/-- The agenda of a program in the notation. -/
def programEvents (lines : List Line) : List HostEvent := lines.flatMap Line.events

/-! ### Host procedures (log entry 18) -/

/-- Go on after a step that answered a next state. -/
def andThen {α β : Type} (r : Host.Outcome α Fault Refusal) (f : α → Host.Outcome β Fault Refusal) :
    Host.Outcome β Fault Refusal :=
  match r with
  | .next a => f a
  | .fault e => .fault e
  | .refused e => .refused e

/-- `DO m` (R119): write CMD and wait for the commit. -/
def doCommand (m : Instr) (s : State) : Result := (s.hostWrite 0x00 32 ((encode m).setWidth 64)).engineTurn

/-- `DO m, a` (R119). -/
def doCommand1 (m : Instr) (a : Word) (s : State) : Result := doCommand m (s.hostWrite 0x08 64 a)

/-- `DO m, a, b` (R119). -/
def doCommand2 (m : Instr) (a b : Word) (s : State) : Result := doCommand m ((s.hostWrite 0x08 64 a).hostWrite 0x10 64 b)

/-- `RD RES` after a command. -/
def thenResult (r : Result) : Host.Outcome (Word × State) Fault Refusal :=
  andThen r fun t => .next (t.hostRead 0x18 64, t)

/-- Read elements 0..n-1 with a read-out command that takes the index in ARG0. -/
def readOut (m : Instr) : Nat → State → Host.Outcome (List Word × State) Fault Refusal
  | 0, s => .next ([], s)
  | n + 1, s => andThen (readOut m n s) fun p =>
    andThen (thenResult (doCommand1 m (BitVec.ofNat 64 n) p.2)) fun q => .next (p.1 ++ [q.1], q.2)

/-- Read rank-table entries 0..n-1: RI_LOAD, then RI_GETABS and RI_GETPACK (R84). -/
def readEntries : Nat → State → Host.Outcome (List RankEntry × State) Fault Refusal
  | 0, s => .next ([], s)
  | n + 1, s => andThen (readEntries n s) fun p =>
    andThen (doCommand1 .riLoad (BitVec.ofNat 64 n) p.2) fun t =>
    andThen (thenResult (doCommand .riGetabs t)) fun a =>
    andThen (thenResult (doCommand .riGetpack a.2)) fun r =>
    .next (p.1 ++ [{ abs := a.1.setWidth 32, rel := r.1 }], r.2)

/-- Read a sampling table: SMP_LEN, then each element with SMP_READ (R84). -/
def readSamples (v : Bool) (s : State) : Host.Outcome (List Word32 × State) Fault Refusal :=
  andThen (thenResult (doCommand (.smpLen v) s)) fun n =>
  andThen (readOut (.smpRead v) n.1.toNat n.2) fun p =>
  .next (p.1.map (BitVec.setWidth 32), p.2)

/-- The save procedure (R84), for a frozen, idle block: the record and the state it leaves. -/
def saveRecord (s : State) : Host.Outcome (Record × State) Fault Refusal :=
  let size := s.hostRead 0x20 64
  let numOfOnes := s.hostRead 0x28 64
  andThen (readOut .bvRdword (ceilDiv size.toNat 64) s) fun blocks =>
  andThen (thenResult (doCommand .rtLen blocks.2)) fun n =>
  andThen (readEntries n.1.toNat n.2) fun rankTable =>
  andThen (readSamples false rankTable.2) fun select0 =>
  andThen (readSamples true select0.2) fun select1 =>
  .next ({ size, numOfOnes, blocks := blocks.1, rankTable := rankTable.1, select0Table := select0.1, select1Table := select1.1 },
    select1.2)

/-- Step 1 of the load procedure (R85), less the length check that reading the record's bytes makes. -/
def loadCheck (r : Record) (s : State) : Bool :=
  r.blocks.length == ceilDiv r.size.toNat 64 && decide (r.size.toNat ≤ (s.hostRead 0x30 64).toNat) &&
    r.rankTable.length == ceilDiv r.blocks.length 8 + 1

/-- Step 4 of the load procedure (R85): write words `w`, `w + 1`, ... -/
def writeWords : Nat → List Word → State → Result
  | _, [], s => .next s
  | w, x :: xs, s => andThen (doCommand2 .bvWrword (BitVec.ofNat 64 w) x s) fun t => writeWords (w + 1) xs t

/-- A rank entry without the unused bits 63:59 of its packed word (R85 step 6). -/
def RankEntry.used (e : RankEntry) : RankEntry := { e with rel := e.rel &&& mask 59 }

/-- Step 6 of the load procedure (R85): does the rebuilt block agree with the record? -/
def verifyRecord (r : Record) (s : State) : Host.Outcome (Bool × State) Fault Refusal :=
  andThen (readEntries r.rankTable.length s) fun rankTable =>
  andThen (readSamples false rankTable.2) fun select0 =>
  andThen (readSamples true select0.2) fun select1 =>
  .next (s.hostRead 0x28 64 == r.numOfOnes && rankTable.1.map RankEntry.used == r.rankTable.map RankEntry.used &&
    select0.1 == r.select0Table && select1.1 == r.select1Table, select1.2)

/-- Step 7 of the load procedure (R85): leave the block cleared and report a failure. -/
def loadFailed (s : State) : Host.Outcome (Bool × State) Fault Refusal :=
  andThen (doCommand .bvClear s) fun t => .next (false, t)

/-- The load procedure (R85), for an idle block: whether the record was taken, and the state it leaves. -/
def loadRecord (r : Record) (s : State) : Host.Outcome (Bool × State) Fault Refusal :=
  if loadCheck r s = false then loadFailed s
  else
    andThen (doCommand .bvClear s) fun s2 =>
    andThen (if r.size = 0 then .next s2 else doCommand1 (.bvSet false) (r.size - 1) s2) fun s3 =>
    andThen (writeWords 0 r.blocks s3) fun s4 =>
    andThen (doCommand (.bvBuild (!r.select1Table.isEmpty) (!r.select0Table.isEmpty)) s4) fun s5 =>
    andThen (verifyRecord r s5) fun v =>
    if v.1 then .next v else loadFailed v.2

/-- Load from bytes: bytes of another length than R81 gives fail step 1 (R85). -/
def loadBytes (bs : List Byte) (s : State) : Host.Outcome (Bool × State) Fault Refusal :=
  match Record.ofBytes bs with
  | some r => loadRecord r s
  | none => loadFailed s

end Sys2Proof.Machine
end

