-- ==== Sys2Proof/Safety.lean ====
section
/-! DEFINITION. The mathematical functions the spec states results with (00_scope.md R10), and the invariant of the machine: what
the spec says of every state the block can be in. -/

namespace Sys2Proof.Machine

/-- `bit(p)`: bit `p mod 64` of `BLK[p div 64]` (R10, 20_memory.md R71). -/
def State.bit (s : State) (p : Nat) : Bool := (s.blk.read (p / 64)).getLsbD (p % 64)

/-- Whether position `p` is inside the vector and holds the bit `v` (R10). -/
def State.holds (s : State) (v : Bool) (p : Nat) : Bool := decide (p < s.size.toNat) && s.bit p == v

/-- `cnt_v(0, n)`: the number of positions below `n`, inside the vector, that hold `v` (R10). -/
def State.rank (s : State) (v : Bool) : Nat → Nat
  | 0 => 0
  | n + 1 => s.rank v n + if s.holds v n then 1 else 0

/-- `cnt_v(lo, hi)` for `lo <= hi` (R10). -/
def State.cnt (s : State) (v : Bool) (lo hi : Nat) : Nat := s.rank v hi - s.rank v lo

/-- `p = select_v(x)`: `p` holds `v`, and exactly `x` earlier positions do (R10). -/
def State.IsSelect (s : State) (v : Bool) (x p : Nat) : Prop := s.holds v p = true ∧ s.rank v p = x

/-- What the rank table is in the frozen phase (10_state.md R52, 42_bitvector.md R198, R203). -/
structure State.RankTableOk (s : State) : Prop where
  /-- `rtLen = ceil(nb/8) + 1` (R198) -/
  length : s.rt.length = ceilDiv s.nb 8 + 1
  /-- `RT[g].abs = cnt_1(0, 512g)` (R203) -/
  abs : ∀ (g : Nat) (e : RankEntry), s.rt[g]? = some e → getAbs e = s.cnt true 0 (512 * g)
  /-- `getRel(RT[g], K) = cnt_1(512g, 512g + 64K)` for K = 1..7 (R203) -/
  rel : ∀ (g : Nat) (e : RankEntry), s.rt[g]? = some e → ∀ k, 1 ≤ k → k ≤ 7 → getRel e k = s.cnt true (512 * g) (512 * g + 64 * k)
  /-- `RT[g].rel[63:59] = 0` (R203) -/
  unused : ∀ (g : Nat) (e : RankEntry), s.rt[g]? = some e → e.rel.extractLsb' 59 5 = 0

/-- What a requested sampling table is in the frozen phase (10_state.md R53, 42_bitvector.md R206). -/
structure State.SamplesOk (s : State) (v : Bool) : Prop where
  /-- `ceil(count_v/512) + 1` elements -/
  length : (s.samples v).length = ceilDiv (s.countOf v) 512 + 1
  /-- `S_v[k] = select_v(512k)` for every element but the last -/
  sample : ∀ k p, k < ceilDiv (s.countOf v) 512 → (s.samples v)[k]? = some p → s.IsSelect v (512 * k) p.toNat
  /-- the last element is `size` -/
  sentinel : (s.samples v)[ceilDiv (s.countOf v) 512]? = some s.size

/-- The invariant every step keeps. -/
structure State.Inv (s : State) : Prop where
  /-- `1 <= MAX_BITS` (00_scope.md R7) -/
  capacity : 1 ≤ s.maxBits.toNat
  /-- `size <= MAX_BITS` (10_state.md R50) -/
  sizeLe : s.size.toNat ≤ s.maxBits.toNat
  /-- BLOCK_MEM is in its canonical form -/
  blkWf : s.blk.wf = true
  /-- no word at or past `nb` is held (10_state.md R50), and the bits at positions `>= size` are 0 (R51) -/
  padding : ∀ p, s.size.toNat ≤ p → s.bit p = false
  /-- in the build phase no table exists and `ones` is 0 (10_state.md R41, R47, R52, R53) -/
  building : s.frozen = false → s.ones = 0 ∧ s.fs1 = false ∧ s.fs0 = false ∧ s.rt = [] ∧ s.s1 = [] ∧ s.s0 = []
  /-- in the frozen phase `ones` is the 1-count of the vector (42_bitvector.md R208) -/
  onesOk : s.frozen = true → s.ones.toNat = s.rank true s.size.toNat
  /-- in the frozen phase the rank table is that of R203 -/
  rankTable : s.frozen = true → s.RankTableOk
  /-- in the frozen phase a sampling table is that of R206 when it was requested, and empty otherwise (10_state.md R53) -/
  sampling : s.frozen = true → ∀ v, if s.hasSamples v then s.SamplesOk v else s.samples v = []
  /-- ERRCODE is 0 to 5, and not 0 exactly when ERR = 1 (10_state.md R44, 60_exceptions.md R292, R293) -/
  codes : s.errCode.toNat ≤ 5 ∧ (s.err = true ↔ s.errCode ≠ 0)
  /-- FOUND and ERR are never both 1 (10_state.md R38, R39) -/
  foundOrErr : ¬(s.found = true ∧ s.err = true)

/-! ### Terms the claims use -/

/-- The bit-vector state (10_state.md R50) of two states is the same. -/
def State.SameVector (s t : State) : Prop :=
  s.size = t.size ∧ s.ones = t.ones ∧ s.frozen = t.frozen ∧ s.fs1 = t.fs1 ∧ s.fs0 = t.fs0 ∧ s.blk = t.blk ∧ s.rt = t.rt ∧
    s.s1 = t.s1 ∧ s.s0 = t.s0

/-- The query commands (20_memory.md R92). -/
def isQuery : Instr → Bool
  | .popcnt | .selw | .riLoad | .bvGet | .bvRdword => true
  | .rank0 | .rank1 | .count0 | .count1 | .rtLen | .select0 | .select1 | .smpLen _ | .smpRead _ => true
  | .riClr | .riSetabs | .riSetrel _ | .riGetabs | .riGetrel _ | .riGetpack | .riSetpack => false
  | .bvClear | .bvSet _ | .bvPush _ | .bvWrword | .bvBuild _ _ => false

/-- The RI_ commands (10_state.md R49). -/
def isRi : Instr → Bool
  | .riClr | .riSetabs | .riSetrel _ | .riGetabs | .riGetrel _ | .riLoad | .riGetpack | .riSetpack => true
  | .popcnt | .selw | .bvGet | .bvRdword => false
  | .rank0 | .rank1 | .count0 | .count1 | .rtLen | .select0 | .select1 | .smpLen _ | .smpRead _ => false
  | .bvClear | .bvSet _ | .bvPush _ | .bvWrword | .bvBuild _ _ => false

/-- The table of relative sub-fields: K, offset `o_K`, width `w_K` (20_memory.md R73). -/
def relFields : List (Nat × Nat × Nat) :=
  [(1, 0, 7), (2, 7, 8), (3, 15, 8), (4, 23, 9), (5, 32, 9), (6, 41, 9), (7, 50, 9)]

/-- The opcodes of format N, V, F and K (30_encoding.md R113). -/
def opcodesN : List Nat := [0x01, 0x02, 0x10, 0x11, 0x13, 0x15, 0x16, 0x17, 0x20, 0x23, 0x24, 0x25, 0x32]
def opcodesV : List Nat := [0x21, 0x22, 0x30, 0x31, 0x40, 0x41, 0x42]
def opcodesF : List Nat := [0x26]
def opcodesK : List Nat := [0x12, 0x14]

/-- A command word that is illegal by 30_encoding.md R115: (a) its opcode is none of the 23, (b) a reserved bit of its format
is 1, or (c) it is K-format and K = 0. -/
def IllegalWord (c : Nat) : Prop :=
  (c % 256 = 0x00 ∨ (0x03 ≤ c % 256 ∧ c % 256 ≤ 0x0F) ∨ (0x18 ≤ c % 256 ∧ c % 256 ≤ 0x1F) ∨ (0x27 ≤ c % 256 ∧ c % 256 ≤ 0x2F) ∨
    (0x33 ≤ c % 256 ∧ c % 256 ≤ 0x3F) ∨ (0x43 ≤ c % 256 ∧ c % 256 ≤ 0xFF)) ∨
  ((c % 256 ∈ opcodesN ∧ c / 256 ≠ 0) ∨ (c % 256 ∈ opcodesV ∧ c / 512 ≠ 0) ∨ (c % 256 ∈ opcodesF ∧ c / 1024 ≠ 0) ∨
    (c % 256 ∈ opcodesK ∧ c / 2048 ≠ 0)) ∨
  (c % 256 ∈ opcodesK ∧ c / 256 % 8 = 0)

/-- The number of ones among bits 0..n-1 of a word. -/
def countBits (w : Word) (n : Nat) : Nat := (List.range n).countP fun j => w.getLsbD j

/-- The `n` bytes from offset `off` on hold the number `v`, little-endian: byte `j` of them holds bits `8j+7 : 8j` (R79). -/
def HoldsLE (bs : List Byte) (off n v : Nat) : Prop := ∀ j, j < n → ∃ b, bs[off + j]? = some b ∧ b.toNat = v / 256 ^ j % 256

/-- The result of a query that found something: RES where the command ended normally with FOUND = 1. -/
def answer : Result → Option Nat
  | .next t => if t.found then some t.res.toNat else none
  | .fault _ => none
  | .refused _ => none

/-- The state in which a command runs with operand `x` in the latched ARG0. -/
def State.withOperand (s : State) (x : Nat) : State := { s with running := some { cmd := 0, arg0 := BitVec.ofNat 64 x, arg1 := 0 } }

/-- What RANK1 (`v` = 1) or RANK0 answers for position `i`. -/
def rankAnswer (s : State) (v : Bool) (i : Nat) : Option Nat :=
  answer (exec (if v then .rank1 else .rank0) (s.withOperand i))

/-- What SELECT1 (`v` = 1) or SELECT0 answers for rank `x`; none for NotFound. -/
def selectAnswer (s : State) (v : Bool) (x : Nat) : Option Nat :=
  answer (exec (if v then .select1 else .select0) (s.withOperand x))

end Sys2Proof.Machine
end

