-- ==== Sys2Proof/Certificates/Slice0/Obligations.lean ====
section
/-! DEFINITION. The statements about the model, each from the spec's numbered rules. A next state is written out as the old state
with the fields that change, so that every other field is said to stay. -/

open Sys2Proof Sys2Proof.Machine

/-! ### Encoding -/

/-- Words written out from 30_encoding.md R113 decode to the commands they stand for, and words of R115 do not decode. -/
def Obligations.SpecWordsDecode : Prop :=
  decode 0x00000001 = .ok .popcnt ∧ decode 0x00000712 = .ok (.riSetrel 7) ∧ decode 0x00000121 = .ok (.bvSet true) ∧
  decode 0x00000226 = .ok (.bvBuild false true) ∧ decode 0x00000130 = .ok .rank1 ∧ decode 0x00000030 = .ok .rank0 ∧
  decode 0x00000142 = .ok (.smpRead true) ∧ decode 0x00000000 = .error .unassignedOpcode ∧
  decode 0x00000101 = .error .reservedBits ∧ decode 0x00000012 = .error .zeroSubfield ∧ decode 0x00000812 = .error .reservedBits

/-- Decoding the word of a well-formed command gives the command back, whatever its fields (R111, R113, R117). -/
def Obligations.DecodeEncodeRoundTrip : Prop := ∀ i : Instr, i.wellFormed = true → decode (encode i) = .ok i

/-- A word that decodes is the word of the command it decodes to: no two words share a command (R111, R113, R117). -/
def Obligations.EncodeDecodeRoundTrip : Prop :=
  ∀ (c : Word32) (i : Instr), decode c = .ok i → i.wellFormed = true ∧ encode i = c

/-- R113, R116: every 32-bit word is exactly one command of the opcode map, the one the decoder names, or it is illegal. -/
def Obligations.EveryWordIsOneCommandOrIllegal : Prop :=
  ∀ c : Word32,
    (∃ i, decode c = .ok i ∧ ¬IllegalWord c.toNat ∧ (opcodeRows.filter fun r => r.accepts c).map (·.mnemonic) = [mnemonicOf i]) ∨
    ((∃ e, decode c = .error e) ∧ IllegalWord c.toNat ∧ (opcodeRows.filter fun r => r.accepts c) = [])

/-- R115: an illegal command faults with ILLEGAL_COMMAND (code 1) and changes nothing but STATUS. -/
def Obligations.IllegalWordFaultsIllegalCommand : Prop :=
  IllegalWord 0 ∧
  ∀ (s : State) (l : Latched), s.running = some l → IllegalWord l.cmd.toNat →
    s.engineTurn = .next { s with running := none, err := true, errCode := 1, found := false, stickyErr := true }

/-! ### The step and the host's window -/

/-- When the engine's turn comes and the latched word decodes, the step is `exec` of the command, on the state with that turn taken
off the agenda; the block moves no program counter, it has none (R32, R117). -/
def Obligations.StepRunsDecodedCommand : Prop :=
  ∀ (s : State) (l : Latched) (i : Instr), s.running = some l → decode l.cmd = .ok i →
    (s.agenda = [] → step s = exec i s) ∧
    (∀ rest, s.agenda = .engine :: rest → step s = exec i { s with agenda := rest })

/-- R32: a CMD write when idle latches the command and its operands and raises BUSY; the engine's turn executes what the decoder
reads and leaves the block idle; a CMD write while busy is not issued and sets OVERRUN; CMD reads 0. -/
def Obligations.CmdRegisterIssues : Prop :=
  (∀ (s : State) (v : Word) (rest : List HostEvent), s.agenda = .write (Config.regBase + 0x00) 32 v :: rest →
    (s.busy = false → step s = .next { s with
      agenda := rest, running := some { cmd := v.extractLsb' 0 32, arg0 := s.arg0, arg1 := s.arg1 } }) ∧
    (s.busy = true → step s = .next { s with agenda := rest, overrun := true })) ∧
  (∀ (s t : State) (l : Latched), s.running = some l → s.busy = true ∧
    (∀ i, decode l.cmd = .ok i → s.engineTurn = exec i s) ∧ (s.engineTurn = .next t → t.busy = false)) ∧
  (∀ s : State, s.hostRead 0x00 32 = 0)

/-- R43: OVERRUN is set at once by a CMD write while BUSY = 1, which affects nothing else, and is cleared by a host write of STATUS
with bit 7 = 1 or by reset, and by nothing else. -/
def Obligations.OverrunSetAndCleared : Prop :=
  (∀ (s : State) (c : Word32), s.busy = true → s.writeCmd c = { s with overrun := true }) ∧
  (∀ s t : State, step s = .next t → s.overrun = true → t.overrun = false →
    (∃ rest, s.agenda = .reset :: rest) ∨
    ∃ v rest, s.agenda = .write (Config.regBase + 0x04) 32 v :: rest ∧ v.getLsbD 7 = true) ∧
  (∀ (s : State) (v : Word) (rest : List HostEvent),
    s.agenda = .reset :: rest ∨ s.agenda = .write (Config.regBase + 0x04) 32 v :: rest ∧ v.getLsbD 7 = true →
    ∃ t, step s = .next t ∧ t.overrun = false)

/-- R42: STICKY_ERR is set at the commit of every command that faults, never cleared by a command, and cleared by a host write of
STATUS with bit 6 = 1 or by reset, and by nothing else. -/
def Obligations.StickyErrSetAndCleared : Prop :=
  (∀ s t : State, s.busy = true → s.engineTurn = .next t → t.err = true → t.stickyErr = true) ∧
  (∀ (i : Instr) (s t : State), exec i s = .next t → s.stickyErr = true → t.stickyErr = true) ∧
  (∀ s t : State, step s = .next t → s.stickyErr = true → t.stickyErr = false →
    (∃ rest, s.agenda = .reset :: rest) ∨
    ∃ v rest, s.agenda = .write (Config.regBase + 0x04) 32 v :: rest ∧ v.getLsbD 6 = true) ∧
  (∀ (s : State) (v : Word) (rest : List HostEvent),
    s.agenda = .reset :: rest ∨ s.agenda = .write (Config.regBase + 0x04) 32 v :: rest ∧ v.getLsbD 6 = true →
    ∃ t, step s = .next t ∧ t.stickyErr = false)

/-- R45: a host write to STATUS clears bit 6 if the written bit 6 is 1 and bit 7 if the written bit 7 is 1 and changes nothing
else; STATUS bits 31:12 read 0; offsets 0x38 to 0xFF read 0 and ignore writes. -/
def Obligations.StatusWriteClearsStickyBits : Prop :=
  (∀ (s : State) (v : Word32), ∃ t, t = { s with stickyErr := t.stickyErr, overrun := t.overrun } ∧
    (∀ x : Word, x.extractLsb' 0 32 = v → s.hostWrite 0x04 32 x = t) ∧ t.statusWord = s.statusWord &&& ~~~(v &&& 0xC0)) ∧
  (∀ s : State, s.statusWord.extractLsb' 12 20 = 0) ∧
  (∀ (s : State) (off width : Nat) (v : Word), 0x38 ≤ off → off ≤ 0xFF → s.hostRead off width = 0 ∧ s.hostWrite off width v = s)

/-- The fields of STATUS are where R36 puts them, BUSY shows whether a command is executing (R37), and FROZEN, FS1 and FS0 mirror
the bit-vector state (R40, R41). -/
def Obligations.StatusWordFields : Prop :=
  ∀ s : State,
    s.statusWord.getLsbD 0 = s.running.isSome ∧ s.statusWord.getLsbD 1 = s.err ∧ s.statusWord.getLsbD 2 = s.found ∧
    s.statusWord.getLsbD 3 = s.frozen ∧ s.statusWord.getLsbD 4 = s.fs1 ∧ s.statusWord.getLsbD 5 = s.fs0 ∧
    s.statusWord.getLsbD 6 = s.stickyErr ∧ s.statusWord.getLsbD 7 = s.overrun ∧ s.statusWord.extractLsb' 8 4 = s.errCode ∧
    s.statusWord.extractLsb' 12 20 = 0 ∧ s.hostRead 0x04 32 = s.statusWord.setWidth 64

/-- R78: a 64-bit register takes a 64-bit access, or 32-bit accesses to its low half at its offset and its high half at its
offset + 4; any other access writes nothing and reads 0; and no access is answered with anything but a next state. The six
registers and their offsets are those of R31. -/
def Obligations.WindowAccessWidths : Prop :=
  (∀ (s : State) (off : Nat) (r : Word),
    (off, r) ∈ [(0x08, s.arg0), (0x10, s.arg1), (0x18, s.res), (0x20, s.size.setWidth 64), (0x28, s.ones.setWidth 64),
      (0x30, s.maxBits.setWidth 64)] →
    s.hostRead off 64 = r ∧ (s.hostRead off 32).toNat = r.toNat % 2 ^ 32 ∧ (s.hostRead (off + 4) 32).toNat = r.toNat / 2 ^ 32) ∧
  (∀ (s : State) (v : Word),
    s.hostWrite 0x08 64 v = { s with arg0 := v } ∧ s.hostWrite 0x10 64 v = { s with arg1 := v } ∧
    s.hostWrite 0x08 32 v = { s with arg0 := s.arg0.extractLsb' 32 32 ++ v.extractLsb' 0 32 } ∧
    s.hostWrite 0x0C 32 v = { s with arg0 := v.extractLsb' 0 32 ++ s.arg0.extractLsb' 0 32 } ∧
    s.hostWrite 0x10 32 v = { s with arg1 := s.arg1.extractLsb' 32 32 ++ v.extractLsb' 0 32 } ∧
    s.hostWrite 0x14 32 v = { s with arg1 := v.extractLsb' 0 32 ++ s.arg1.extractLsb' 0 32 }) ∧
  (∀ (s : State) (off width : Nat) (v : Word), ¬(width = 32 ∧ off % 4 = 0) → ¬(width = 64 ∧ off % 8 = 0 ∧ off ≠ 0) →
    s.hostRead off width = 0 ∧ s.hostWrite off width v = s) ∧
  (∀ (s : State) (e : HostEvent) (rest : List HostEvent), s.agenda = e :: rest → e ≠ .engine → ∃ t, step s = .next t)

/-- A host read returns what the window shows and has no side effect on any register; a write to a read-only register is ignored
(R31, R87). Only the model's own fields, the agenda and the value read, change. -/
def Obligations.ReadsHaveNoSideEffects : Prop :=
  (∀ (s : State) (off width : Nat) (rest : List HostEvent), off < 256 → s.agenda = .read (Config.regBase + off) width :: rest →
    step s = .next { s with agenda := rest, rdata := s.hostRead off width }) ∧
  (∀ (s : State) (off width : Nat) (v : Word), 0x18 ≤ off → s.hostWrite off width v = s)

/-- R33: commands read the value ARG0 had at their issue, and not the register; a host write while BUSY = 1 changes the register,
and a read returns the new value, but the running command does not see it; no command writes ARG0; it resets to 0. -/
def Obligations.Arg0IsLatched : Prop :=
  (∀ (s : State) (c : Word32), s.running = none → (s.writeCmd c).opnd0 = s.arg0) ∧
  (∀ (i : Instr) (s : State) (l : Latched) (v : Word), s.running = some l →
    exec i { s with arg0 := v } = andThen (exec i s) fun t => .next { t with arg0 := v }) ∧
  (∀ (s : State) (l : Latched) (v : Word), s.running = some l → s.opnd0 = l.arg0 ∧
    (s.hostWrite 0x08 64 v).hostRead 0x08 64 = v ∧ (s.hostWrite 0x08 64 v).running = some l ∧
    (s.hostWrite 0x08 64 v).opnd0 = l.arg0) ∧
  (∀ (i : Instr) (s t : State), exec i s = .next t → t.arg0 = s.arg0) ∧
  State.reset.arg0 = 0

/-- R34: ARG1 is latched, written and reset like ARG0: commands do not read the register, and only SELW and BV_WRWORD read the
latched copy. -/
def Obligations.Arg1IsLatched : Prop :=
  (∀ (s : State) (c : Word32), s.running = none → (s.writeCmd c).opnd1 = s.arg1) ∧
  (∀ (i : Instr) (s : State) (l : Latched) (v : Word), s.running = some l →
    exec i { s with arg1 := v } = andThen (exec i s) fun t => .next { t with arg1 := v }) ∧
  (∀ (s : State) (l : Latched) (v : Word), s.running = some l → s.opnd1 = l.arg1 ∧
    (s.hostWrite 0x10 64 v).hostRead 0x10 64 = v ∧ (s.hostWrite 0x10 64 v).running = some l ∧
    (s.hostWrite 0x10 64 v).opnd1 = l.arg1) ∧
  (∀ (i : Instr) (s t : State), exec i s = .next t → t.arg1 = s.arg1) ∧
  State.reset.arg1 = 0 ∧
  (∀ (i : Instr) (s : State) (l : Latched) (v : Word), i ≠ .selw → i ≠ .bvWrword → s.running = some l →
    exec i { s with running := some { l with arg1 := v } } = exec i s)

/-- Until the engine's turn, host accesses leave the running command and every register but ARG0, ARG1 and the two
write-1-to-clear bits of STATUS as they were before its issue (R90, R299, R325). -/
def Obligations.BusyShowsOldValues : Prop :=
  ∀ (s t : State) (l : Latched) (e : HostEvent) (rest : List HostEvent), s.running = some l → s.agenda = e :: rest → e ≠ .engine →
    e ≠ .reset → step s = .next t →
    t = { s with agenda := rest, arg0 := t.arg0, arg1 := t.arg1, stickyErr := t.stickyErr, overrun := t.overrun, rdata := t.rdata } ∧
    (t.stickyErr = true → s.stickyErr = true)

/-- R321 with the values of R320: a reset, also one while BUSY = 1, aborts the running command without effect and puts every piece
of the block's state at its reset value; MAXBITS is the constant. What becomes of the model's own two fields is not said. -/
def Obligations.ResetInputResets : Prop :=
  ∀ (s : State) (rest : List HostEvent), s.agenda = .reset :: rest → ∃ t,
    step s = .next t ∧ t = {
      arg0 := 0, arg1 := 0, res := 0, err := false, found := false, stickyErr := false, overrun := false, errCode := 0,
      running := none, rix := { abs := 0, rel := 0 }, size := 0, ones := 0, frozen := false, fs1 := false, fs0 := false,
      blk := [], rt := [], s1 := [], s0 := [], maxBits := s.maxBits, agenda := t.agenda, rdata := t.rdata }

/-- What the host reads after reset (R31, R320): every register 0, but for MAXBITS. -/
def Obligations.ResetWindowReads : Prop :=
  (∀ off width, off < 0x30 → State.reset.hostRead off width = 0) ∧
  State.reset.hostRead 0x30 64 = Config.maxBits.setWidth 64 ∧ State.reset.rix = { abs := 0, rel := 0 }

/-! ### The invariant -/

/-- The invariant holds at reset. -/
def Obligations.ResetMeetsInvariant : Prop := State.reset.Inv

/-- Every step keeps the invariant: canonical zero-padded words, no tables while building, and in the frozen phase the tables of
R203 and R206 (R51 to R53, R203, R206). -/
def Obligations.StepKeepsInvariant : Prop := ∀ s t : State, s.Inv → step s = .next t → t.Inv

/-- From a state of the invariant no command and no step stops: no unit ever reads an absent element (R88), asks the in-word
select out of its bound (R143) or searches a bracket without a group (R264). -/
def Obligations.InvariantNeverStops : Prop :=
  ∀ s : State, s.Inv → (∀ i, ∃ t, exec i s = .next t) ∧ ∃ t, step s = .next t

/-! ### How commands end -/

/-- R292: a command that faults sets ERR and STICKY_ERR, puts its code in ERRCODE, clears FOUND and BUSY, and changes nothing else. -/
def Obligations.FaultsChangeOnlyStatus : Prop :=
  ∀ (i : Instr) (s t : State), exec i s = .next t → t.err = true →
    (t.errCode = 1 ∨ t.errCode = 2 ∨ t.errCode = 3 ∨ t.errCode = 4 ∨ t.errCode = 5) ∧
    t = { s with running := none, err := true, errCode := t.errCode, found := false, stickyErr := true }

/-- R293, R295: a command that does not fault clears ERR, ERRCODE and BUSY, leaves STICKY_ERR and OVERRUN alone, and sets FOUND
unless it is SELW or a SELECT that found nothing, which puts NOT_FOUND_VALUE in RES and changes nothing else. -/
def Obligations.NormalCompletionStatus : Prop :=
  ∀ (i : Instr) (s t : State), exec i s = .next t → t.err = false →
    t.errCode = 0 ∧ t.busy = false ∧ t.stickyErr = s.stickyErr ∧ t.overrun = s.overrun ∧
    (t.found = true ∨ ((i = .selw ∨ i = .select0 ∨ i = .select1) ∧
      t = { s with running := none, err := false, errCode := 0, found := false, res := 0xFFFFFFFFFFFFFFFF }))

/-- R49: only the RI_ commands write RIX, no other command depends on it, the window does not show it, and it resets to 0. -/
def Obligations.RixOnlyByRiCommands : Prop :=
  (∀ (i : Instr) (s t : State) (e : RankEntry), isRi i = false → exec i s = .next t →
    t.rix = s.rix ∧ exec i { s with rix := e } = .next { t with rix := e }) ∧
  (∀ (s : State) (e : RankEntry) (off width : Nat), State.hostRead { s with rix := e } off width = s.hostRead off width) ∧
  State.reset.rix = { abs := 0, rel := 0 }

/-- The phase changes only where R55 says: to frozen by BV_BUILD, to building by BV_CLEAR or reset. -/
def Obligations.PhaseChangesOnlyByBuildClearReset : Prop :=
  ∀ s t : State, step s = .next t →
    (s.frozen = false → t.frozen = true → ∃ l fs1 fs0, s.running = some l ∧ decode l.cmd = .ok (.bvBuild fs1 fs0)) ∧
    (s.frozen = true → t.frozen = false →
      (∃ l, s.running = some l ∧ decode l.cmd = .ok .bvClear) ∨ ∃ rest, s.agenda = .reset :: rest)

/-- In the frozen phase no command but BV_CLEAR changes any part of the bit vector or its tables (R52: "immutable thereafter"). -/
def Obligations.FrozenVectorIsImmutable : Prop :=
  ∀ (i : Instr) (s t : State), s.frozen = true → i ≠ .bvClear → exec i s = .next t → s.SameVector t

/-- In the frozen phase BV_SET, BV_PUSH, BV_WRWORD and BV_BUILD fault with FROZEN_WRITE (code 2), whatever their operands
(R55, R291, R294). -/
def Obligations.FrozenWritesFault : Prop :=
  ∀ (s : State) (v fs1 fs0 : Bool) (i : Instr), s.frozen = true → i ∈ [.bvSet v, .bvPush v, .bvWrword, .bvBuild fs1 fs0] →
    exec i s = .next { s with running := none, err := true, errCode := 2, found := false, stickyErr := true }

/-- In the build phase every command that reads the tables faults with NOT_BUILT (code 3), whatever its operands
(R55, R291, R294). -/
def Obligations.TableCommandsNeedBuild : Prop :=
  ∀ (s : State) (v : Bool) (i : Instr), s.frozen = false →
    i ∈ [.riLoad, .rank1, .rank0, .count1, .count0, .rtLen, .select1, .select0, .smpLen v, .smpRead v] →
    exec i s = .next { s with running := none, err := true, errCode := 3, found := false, stickyErr := true }

/-- R92: what a query answers depends on the bit-vector state and its operands alone, so issuing it twice answers alike and queries
commute; and it changes no part of the bit vector. -/
def Obligations.QueriesArePure : Prop :=
  ∀ (i : Instr) (s t s' : State), isQuery i = true → s.SameVector t → s.opnd0 = t.opnd0 → s.opnd1 = t.opnd1 →
    exec i s = .next s' → s.SameVector s' ∧
    ∃ t', exec i t = .next t' ∧ t'.err = s'.err ∧ t'.errCode = s'.errCode ∧ t'.found = s'.found ∧
      (s'.err = false → i ≠ .riLoad → t'.res = s'.res) ∧ (s'.err = false → i = .riLoad → t'.rix = s'.rix)

/-! ### PopCount unit and in-word select unit -/

/-- R142: POPCNT puts the number of ones of ARG0 in RES, in every state, and changes nothing else. -/
def Obligations.PopcntCountsOnes : Prop :=
  encode .popcnt = 0x00000001 ∧
  ∀ s : State, exec .popcnt s = .next { s with
    running := none, err := false, errCode := 0, found := true, res := BitVec.ofNat 64 (countBits s.opnd0 64) }

/-- R147: SELW puts the position of the (r+1)-th one of ARG0 in RES where ARG1 = r is below the population count, and is NotFound
otherwise, in every state. -/
def Obligations.SelwFindsTheOne : Prop :=
  encode .selw = 0x00000002 ∧
  ∀ s : State,
    (countBits s.opnd0 64 ≤ s.opnd1.toNat → exec .selw s = .next { s with
      running := none, err := false, errCode := 0, found := false, res := 0xFFFFFFFFFFFFFFFF }) ∧
    (s.opnd1.toNat < countBits s.opnd0 64 → ∃ p, p < 64 ∧ s.opnd0.getLsbD p = true ∧ countBits s.opnd0 p = s.opnd1.toNat ∧
      exec .selw s = .next { s with running := none, err := false, errCode := 0, found := true, res := BitVec.ofNat 64 p })

/-- R145: the in-word select lookup table holds, for `r` below the count of ones of `b`, the position of the (r+1)-th one of `b`,
and 0 otherwise. -/
def Obligations.LutHoldsPositions : Prop :=
  ∀ (r : Nat) (b : Byte), r < 8 →
    (r < ((List.range 8).countP fun j => b.getLsbD j) → lut r b < 8 ∧ b.getLsbD (lut r b) = true ∧
      ((List.range (lut r b)).countP fun j => b.getLsbD j) = r) ∧
    (((List.range 8).countP fun j => b.getLsbD j) ≤ r → lut r b = 0)

/-! ### RankIndex -/

/-- R166, R167, R169, R172, R173: the commands on whole fields of RIX, in every state. -/
def Obligations.RixWholeFieldCommands : Prop :=
  (encode .riClr = 0x00000010 ∧ encode .riSetabs = 0x00000011 ∧ encode .riGetabs = 0x00000013 ∧ encode .riGetpack = 0x00000016 ∧
    encode .riSetpack = 0x00000017) ∧
  ∀ s : State,
    exec .riClr s = .next { s with running := none, err := false, errCode := 0, found := true, rix := { abs := 0, rel := 0 } } ∧
    exec .riSetabs s = .next { s with
      running := none, err := false, errCode := 0, found := true, rix := { s.rix with abs := BitVec.ofNat 32 s.opnd0.toNat } } ∧
    exec .riGetabs s = .next { s with
      running := none, err := false, errCode := 0, found := true, res := BitVec.ofNat 64 s.rix.abs.toNat } ∧
    exec .riGetpack s = .next { s with running := none, err := false, errCode := 0, found := true, res := s.rix.rel } ∧
    exec .riSetpack s = .next { s with
      running := none, err := false, errCode := 0, found := true, rix := { s.rix with rel := s.opnd0 } }

/-- R168, R162: RI_SETREL K writes the bits of sub-field K from the low bits of ARG0 and moves no other bit of RIX, for the
offsets and widths of R73, in every state; a word of its opcode with K = 0 or a reserved bit set does not decode. -/
def Obligations.RiSetrelWritesOneField : Prop :=
  (∀ c : Word32, c.toNat % 256 = 0x12 → c.toNat / 256 % 8 = 0 ∨ c.toNat / 2048 ≠ 0 → ∃ e, decode c = .error e) ∧
  ∀ (s : State) (k o w : Nat), (k, o, w) ∈ relFields →
    encode (.riSetrel (BitVec.ofNat 3 k)) = BitVec.ofNat 32 (0x12 + 256 * k) ∧
    ∃ e : RankEntry,
      exec (.riSetrel (BitVec.ofNat 3 k)) s = .next { s with
        running := none, err := false, errCode := 0, found := true, rix := e } ∧
      e.abs = s.rix.abs ∧
      ∀ j, j < 64 → e.rel.getLsbD j = if o ≤ j ∧ j < o + w then s.opnd0.getLsbD (j - o) else s.rix.rel.getLsbD j

/-- R170: RI_GETREL K reads sub-field K of RIX, never a bit of another field or of bits 63:59, for the offsets and widths of R73,
in every state; a word of its opcode with K = 0 or a reserved bit set does not decode. -/
def Obligations.RiGetrelReadsOneField : Prop :=
  (∀ c : Word32, c.toNat % 256 = 0x14 → c.toNat / 256 % 8 = 0 ∨ c.toNat / 2048 ≠ 0 → ∃ e, decode c = .error e) ∧
  ∀ (s : State) (k o w : Nat), (k, o, w) ∈ relFields →
    encode (.riGetrel (BitVec.ofNat 3 k)) = BitVec.ofNat 32 (0x14 + 256 * k) ∧
    exec (.riGetrel (BitVec.ofNat 3 k)) s = .next { s with
      running := none, err := false, errCode := 0, found := true, res := BitVec.ofNat 64 (s.rix.rel.toNat / 2 ^ o % 2 ^ w) }

/-- R171: RI_LOAD copies an existing entry of the rank table into RIX, faults with NOT_BUILT in the build phase and with
INDEX_RANGE past the table. -/
def Obligations.RiLoadReadsEntry : Prop :=
  encode .riLoad = 0x00000015 ∧
  ∀ s : State,
    (s.frozen = false →
      exec .riLoad s = .next { s with running := none, err := true, errCode := 3, found := false, stickyErr := true }) ∧
    (s.frozen = true → s.rt.length ≤ s.opnd0.toNat →
      exec .riLoad s = .next { s with running := none, err := true, errCode := 4, found := false, stickyErr := true }) ∧
    (∀ e, s.frozen = true → s.rt[s.opnd0.toNat]? = some e →
      exec .riLoad s = .next { s with running := none, err := false, errCode := 0, found := true, rix := e })

/-! ### Bit store and build engine -/

/-- R190: BV_CLEAR empties the vector and returns to the build phase, in every state; RES, ARG0, ARG1, RIX, STICKY_ERR and OVERRUN
are unchanged. -/
def Obligations.BvClearEmptiesVector : Prop :=
  encode .bvClear = 0x00000020 ∧
  ∀ s : State, exec .bvClear s = .next { s with
    running := none, err := false, errCode := 0, found := true, size := 0, ones := 0, frozen := false, fs1 := false, fs0 := false,
    blk := [], rt := [], s1 := [], s0 := [] }

/-- R191, R192: BV_SET writes one bit, growing the vector to hold it; every other bit of the vector and every other word stays, and
every other new bit reads 0. -/
def Obligations.BvSetWritesOneBit : Prop :=
  ∀ (v : Bool) (s : State),
    encode (.bvSet v) = (if v then 0x00000121 else 0x00000021) ∧
    (s.frozen = true →
      exec (.bvSet v) s = .next { s with running := none, err := true, errCode := 2, found := false, stickyErr := true }) ∧
    (s.frozen = false → s.maxBits.toNat ≤ s.opnd0.toNat →
      exec (.bvSet v) s = .next { s with running := none, err := true, errCode := 5, found := false, stickyErr := true }) ∧
    (s.Inv → s.frozen = false → s.opnd0.toNat < s.maxBits.toNat → ∃ t,
      exec (.bvSet v) s = .next t ∧
      t = { s with running := none, err := false, errCode := 0, found := true, size := t.size, blk := t.blk } ∧
      t.size.toNat = max s.size.toNat (s.opnd0.toNat + 1) ∧
      (∀ p, t.bit p = if p = s.opnd0.toNat then v else (decide (p < s.size.toNat) && s.bit p)) ∧
      ∀ w, w ≠ s.opnd0.toNat / 64 → t.blk.read w = s.blk.read w)

/-- R193: BV_PUSH appends one bit at position `size`; every bit of the vector and every other word stays. -/
def Obligations.BvPushAppendsOneBit : Prop :=
  ∀ (v : Bool) (s : State),
    encode (.bvPush v) = (if v then 0x00000122 else 0x00000022) ∧
    (s.frozen = true →
      exec (.bvPush v) s = .next { s with running := none, err := true, errCode := 2, found := false, stickyErr := true }) ∧
    (s.frozen = false → s.maxBits.toNat ≤ s.size.toNat →
      exec (.bvPush v) s = .next { s with running := none, err := true, errCode := 5, found := false, stickyErr := true }) ∧
    (s.Inv → s.frozen = false → s.size.toNat < s.maxBits.toNat → ∃ t,
      exec (.bvPush v) s = .next t ∧
      t = { s with running := none, err := false, errCode := 0, found := true, size := t.size, blk := t.blk } ∧
      t.size.toNat = s.size.toNat + 1 ∧
      (∀ p, t.bit p = if p = s.size.toNat then v else (decide (p < s.size.toNat) && s.bit p)) ∧
      ∀ w, w ≠ s.size.toNat / 64 → t.blk.read w = s.blk.read w)

/-- R194: BV_GET reads one bit of the vector in either phase, and faults with INDEX_RANGE past its end. -/
def Obligations.BvGetReadsOneBit : Prop :=
  encode .bvGet = 0x00000023 ∧
  ∀ s : State,
    (s.size.toNat ≤ s.opnd0.toNat →
      exec .bvGet s = .next { s with running := none, err := true, errCode := 4, found := false, stickyErr := true }) ∧
    (s.opnd0.toNat < s.size.toNat →
      exec .bvGet s = .next { s with
        running := none, err := false, errCode := 0, found := true, res := if s.bit s.opnd0.toNat then 1 else 0 })

/-- R195: BV_WRWORD writes one existing word in the build phase, with the bits outside the vector forced to 0; every other word
stays and the vector never grows. -/
def Obligations.BvWrwordWritesOneWord : Prop :=
  encode .bvWrword = 0x00000024 ∧
  ∀ s : State,
    (s.frozen = true →
      exec .bvWrword s = .next { s with running := none, err := true, errCode := 2, found := false, stickyErr := true }) ∧
    (s.frozen = false → ceilDiv s.size.toNat 64 ≤ s.opnd0.toNat →
      exec .bvWrword s = .next { s with running := none, err := true, errCode := 4, found := false, stickyErr := true }) ∧
    (s.frozen = false → s.opnd0.toNat < ceilDiv s.size.toNat 64 → ∃ t,
      exec .bvWrword s = .next t ∧
      t = { s with running := none, err := false, errCode := 0, found := true, blk := t.blk } ∧
      (∀ j, j < 64 → (t.blk.read s.opnd0.toNat).getLsbD j =
        (decide (64 * s.opnd0.toNat + j < s.size.toNat) && s.opnd1.getLsbD j)) ∧
      ∀ w, w ≠ s.opnd0.toNat → t.blk.read w = s.blk.read w)

/-- R196: BV_RDWORD reads one existing word in either phase, and faults with INDEX_RANGE past the last. -/
def Obligations.BvRdwordReadsOneWord : Prop :=
  encode .bvRdword = 0x00000025 ∧
  ∀ s : State,
    (ceilDiv s.size.toNat 64 ≤ s.opnd0.toNat →
      exec .bvRdword s = .next { s with running := none, err := true, errCode := 4, found := false, stickyErr := true }) ∧
    (s.opnd0.toNat < ceilDiv s.size.toNat 64 →
      exec .bvRdword s = .next { s with
        running := none, err := false, errCode := 0, found := true, res := s.blk.read s.opnd0.toNat })

/-- R208, R210: BV_BUILD freezes the vector, records the requested tables and the 1-count of the whole vector, and leaves `size`,
the words, RES, ARG0, ARG1 and RIX unchanged. -/
def Obligations.BvBuildFreezesVector : Prop :=
  ∀ (fs1 fs0 : Bool) (s : State),
    encode (.bvBuild fs1 fs0) = BitVec.ofNat 32 (0x26 + 256 * fs1.toNat + 512 * fs0.toNat) ∧
    (s.Inv → s.frozen = false → ∃ t,
      exec (.bvBuild fs1 fs0) s = .next t ∧
      t = { s with
        running := none, err := false, errCode := 0, found := true, rt := t.rt, s1 := t.s1, s0 := t.s0, ones := t.ones,
        fs1 := fs1, fs0 := fs0, frozen := true } ∧
      t.ones.toNat = s.rank true s.size.toNat ∧ (t.hostRead 0x28 64).toNat = s.rank true s.size.toNat)

/-- R198, R203: the rank table BV_BUILD leaves has `ceil(nb/8) + 1` entries; entry g holds the ones before position 512g, its
relative field K (at the offset and width of R73) the ones of the next 64K positions, and 0 in bits 63:59. -/
def Obligations.BvBuildRankTableClosedForm : Prop :=
  ∀ (fs1 fs0 : Bool) (s : State), s.Inv → s.frozen = false → ∃ t,
    exec (.bvBuild fs1 fs0) s = .next t ∧
    t.rt.length = ceilDiv (ceilDiv s.size.toNat 64) 8 + 1 ∧
    ∀ (g : Nat) (e : RankEntry), t.rt[g]? = some e →
      e.abs.toNat = s.cnt true 0 (512 * g) ∧
      (∀ k o w, (k, o, w) ∈ relFields → e.rel.toNat / 2 ^ o % 2 ^ w = s.cnt true (512 * g) (512 * g + 64 * k)) ∧
      e.rel.toNat / 2 ^ 59 = 0

/-- R206: a requested sampling table holds `select_v(512k)` for every k below `ceil(count_v/512)`, and then the sentinel `size`, so
that its elements strictly rise and all but the last are below `size`; a table that was not requested has length 0. -/
def Obligations.BvBuildSamplingClosedForm : Prop :=
  ∀ (fs1 fs0 : Bool) (s : State), s.Inv → s.frozen = false → ∃ t,
    exec (.bvBuild fs1 fs0) s = .next t ∧
    ∀ (v : Bool) (table : List Word32) (fs : Bool), (v, table, fs) ∈ [(true, t.s1, fs1), (false, t.s0, fs0)] →
      (fs = false → table = []) ∧
      (fs = true →
        table.length = ceilDiv (s.rank v s.size.toNat) 512 + 1 ∧
        (∀ k, k < ceilDiv (s.rank v s.size.toNat) 512 → ∃ p, table[k]? = some p ∧ s.IsSelect v (512 * k) p.toNat) ∧
        table[ceilDiv (s.rank v s.size.toNat) 512]? = some s.size) ∧
      (∀ (j k : Nat) (p q : Word32), j < k → table[j]? = some p → table[k]? = some q → p.toNat < q.toNat ∧ p.toNat < s.size.toNat)

/-! ### Rank unit -/

/-- R231, R232: RANK1 answers the number of ones before position `i`, for every `i <= size` of a frozen vector; it
faults with INDEX_RANGE past `size` and with NOT_BUILT in the build phase. -/
def Obligations.Rank1CountsOnesBefore : Prop :=
  encode .rank1 = 0x00000130 ∧
  ∀ s : State,
    (s.frozen = false →
      exec .rank1 s = .next { s with running := none, err := true, errCode := 3, found := false, stickyErr := true }) ∧
    (s.frozen = true → s.size.toNat < s.opnd0.toNat →
      exec .rank1 s = .next { s with running := none, err := true, errCode := 4, found := false, stickyErr := true }) ∧
    (s.Inv → s.frozen = true → s.opnd0.toNat ≤ s.size.toNat →
      exec .rank1 s = .next { s with
        running := none, err := false, errCode := 0, found := true, res := BitVec.ofNat 64 (s.rank true s.opnd0.toNat) })

/-- R233: RANK0 answers the number of zeros before position `i`, for every `i <= size` of a frozen vector; it faults with
INDEX_RANGE past `size` and with NOT_BUILT in the build phase. -/
def Obligations.Rank0CountsZerosBefore : Prop :=
  encode .rank0 = 0x00000030 ∧
  ∀ s : State,
    (s.frozen = false →
      exec .rank0 s = .next { s with running := none, err := true, errCode := 3, found := false, stickyErr := true }) ∧
    (s.frozen = true → s.size.toNat < s.opnd0.toNat →
      exec .rank0 s = .next { s with running := none, err := true, errCode := 4, found := false, stickyErr := true }) ∧
    (s.Inv → s.frozen = true → s.opnd0.toNat ≤ s.size.toNat →
      exec .rank0 s = .next { s with
        running := none, err := false, errCode := 0, found := true, res := BitVec.ofNat 64 (s.rank false s.opnd0.toNat) })

/-- R234, R235, R236: COUNT1, COUNT0 and RT_LEN answer the ones, the zeros and the rank-table length of a frozen vector, and fault
with NOT_BUILT in the build phase. -/
def Obligations.CountsAndRankTableLength : Prop :=
  (encode .count1 = 0x00000131 ∧ encode .count0 = 0x00000031 ∧ encode .rtLen = 0x00000032) ∧
  (∀ (s : State) (i : Instr), s.frozen = false → i ∈ [.count1, .count0, .rtLen] →
    exec i s = .next { s with running := none, err := true, errCode := 3, found := false, stickyErr := true }) ∧
  ∀ s : State, s.Inv → s.frozen = true →
    exec .count1 s = .next { s with
      running := none, err := false, errCode := 0, found := true, res := BitVec.ofNat 64 (s.rank true s.size.toNat) } ∧
    exec .count0 s = .next { s with
      running := none, err := false, errCode := 0, found := true, res := BitVec.ofNat 64 (s.rank false s.size.toNat) } ∧
    exec .rtLen s = .next { s with
      running := none, err := false, errCode := 0, found := true,
      res := BitVec.ofNat 64 (ceilDiv (ceilDiv s.size.toNat 64) 8 + 1) }

/-- R237: the laws of the rank commands on a frozen vector, for `i <= size`, as the commands answer them. -/
def Obligations.RankCommandLaws : Prop :=
  ∀ s : State, s.Inv → s.frozen = true →
    (∀ i, i ≤ s.size.toNat → ∃ a b, rankAnswer s true i = some a ∧ rankAnswer s false i = some b ∧ a + b = i ∧
      a ≤ s.size.toNat ∧ b ≤ s.size.toNat) ∧
    rankAnswer s true 0 = some 0 ∧ rankAnswer s true s.size.toNat = some s.ones.toNat ∧
    rankAnswer s false s.size.toNat = some (s.size.toNat - s.ones.toNat) ∧
    (∀ i, i < s.size.toNat → ∃ a, rankAnswer s true i = some a ∧
      rankAnswer s true (i + 1) = some (a + if s.bit i then 1 else 0))

/-! ### Select unit -/

/-- R260, R268, R269, R270: SELECT1 and SELECT0 answer the position of the (x+1)-th one or zero of a frozen vector, with or without
a sampling table, and NotFound where there are not that many; they fault with NOT_BUILT in the build phase. -/
def Obligations.SelectFindsPosition : Prop :=
  (encode .select1 = 0x00000140 ∧ encode .select0 = 0x00000040) ∧
  (∀ (s : State) (i : Instr), s.frozen = false → i ∈ [.select1, .select0] →
    exec i s = .next { s with running := none, err := true, errCode := 3, found := false, stickyErr := true }) ∧
  ∀ (s : State) (v : Bool) (i : Instr), (v, i) ∈ [(true, .select1), (false, .select0)] → s.Inv → s.frozen = true →
    (s.opnd0.toNat < s.rank v s.size.toNat → ∃ p, s.IsSelect v s.opnd0.toNat p ∧
      exec i s = .next { s with running := none, err := false, errCode := 0, found := true, res := BitVec.ofNat 64 p }) ∧
    (s.rank v s.size.toNat ≤ s.opnd0.toNat →
      exec i s = .next { s with
        running := none, err := false, errCode := 0, found := false, res := 0xFFFFFFFFFFFFFFFF })

/-- R273: the laws the select and rank commands satisfy together on a frozen vector, as the commands answer them. -/
def Obligations.SelectRankLaws : Prop :=
  ∀ (s : State) (v : Bool), s.Inv → s.frozen = true →
    (∀ i, i < s.size.toNat → s.bit i = v → ∃ a b, rankAnswer s v i = some a ∧ selectAnswer s v a = some i ∧
      rankAnswer s v (i + 1) = some b ∧ selectAnswer s v (b - 1) = some i) ∧
    (∀ x, x < s.rank v s.size.toNat → ∃ p, selectAnswer s v x = some p ∧ rankAnswer s v p = some x ∧ s.bit p = v) ∧
    (∀ x y, x < y → y < s.rank v s.size.toNat → ∃ p q, selectAnswer s v x = some p ∧ selectAnswer s v y = some q ∧ p < q) ∧
    (∀ x, s.rank v s.size.toNat ≤ x → x < 2 ^ 64 → selectAnswer s v x = none ∧
      ∃ t, exec (if v then .select1 else .select0) (s.withOperand x) = .next t ∧ t.found = false ∧ t.err = false ∧
        t.res = 0xFFFFFFFFFFFFFFFF) ∧
    (∀ (s' : State) (x : Nat), s'.Inv → s'.frozen = true → s'.size = s.size → s'.blk = s.blk →
      selectAnswer s' v x = selectAnswer s v x)

/-- R265: on the rank table of a frozen vector, the linear scan and the binary search of a bracket both find the group of R264, the
largest `g` of the bracket with `A_v(g) <= x`, and so does the unit, which scans at most 10 groups and searches more. -/
def Obligations.SearchStrategiesAgree : Prop :=
  ∀ (s : State) (v : Bool) (x lo hi : Nat), s.Inv → s.frozen = true → lo ≤ hi → hi < s.rt.length →
    (∃ a, groupCount s v lo = .ok a ∧ a ≤ x) →
    ∃ g, lo ≤ g ∧ g ≤ hi ∧ (∃ a, groupCount s v g = .ok a ∧ a ≤ x) ∧
      (∀ g', g < g' → g' ≤ hi → ∃ a, groupCount s v g' = .ok a ∧ x < a) ∧
      linearSearch s v x lo (hi + 1 - lo) = .ok g ∧ binarySearch s v x (hi - lo + 1) lo hi = .ok g ∧ findGroup s v x lo hi = .ok g ∧
      (hi - lo + 1 ≤ 10 → findGroup s v x lo hi = linearSearch s v x lo (hi + 1 - lo)) ∧
      (10 < hi - lo + 1 → findGroup s v x lo hi = binarySearch s v x (hi - lo + 1) lo hi)

/-- R271, R272: SMP_LEN and SMP_READ answer the length and the elements of a sampling table of a frozen vector; SMP_READ faults with
INDEX_RANGE past the table, and both with NOT_BUILT in the build phase. -/
def Obligations.SamplingTableReadOut : Prop :=
  (∀ (s : State) (v : Bool) (i : Instr), s.frozen = false → i ∈ [.smpLen v, .smpRead v] →
    exec i s = .next { s with running := none, err := true, errCode := 3, found := false, stickyErr := true }) ∧
  ∀ (s : State) (v : Bool) (table : List Word32), (v, table) ∈ [(true, s.s1), (false, s.s0)] → s.frozen = true →
    encode (.smpLen v) = BitVec.ofNat 32 (0x41 + 256 * v.toNat) ∧ encode (.smpRead v) = BitVec.ofNat 32 (0x42 + 256 * v.toNat) ∧
    exec (.smpLen v) s = .next { s with
      running := none, err := false, errCode := 0, found := true, res := BitVec.ofNat 64 table.length } ∧
    (table.length ≤ s.opnd0.toNat →
      exec (.smpRead v) s = .next { s with running := none, err := true, errCode := 4, found := false, stickyErr := true }) ∧
    (∀ p, table[s.opnd0.toNat]? = some p →
      exec (.smpRead v) s = .next { s with
        running := none, err := false, errCode := 0, found := true, res := BitVec.ofNat 64 p.toNat })

/-! ### The host's record -/

/-- The bytes of a record read back as the record (R81 to R83). -/
def Obligations.RecordBytesRoundTrip : Prop :=
  ∀ r : Record, r.blocks.length < 2 ^ 64 → r.rankTable.length < 2 ^ 64 → r.select0Table.length < 2 ^ 64 →
    r.select1Table.length < 2 ^ 64 → Record.ofBytes r.toBytes = some r

/-- R80, R81, R83: every field of the record stands at the offset of R81's table, little-endian and with nothing between the fields;
a rankTable element is 16 bytes, `abs`, four zero bytes and `rel`, and its padding is ignored when read; vector bit `p` is bit `p mod
8` of byte `8*(p div 64) + (p mod 64) div 8` of the words region, which starts at 24. -/
def Obligations.RecordLayout : Prop :=
  (∀ r : Record, ∀ nb rtLen s0Len s1Len : Nat, nb = r.blocks.length → rtLen = r.rankTable.length →
    s0Len = r.select0Table.length → s1Len = r.select1Table.length →
    r.toBytes.length = 48 + 8 * nb + 16 * rtLen + 4 * (s0Len + s1Len) ∧
    HoldsLE r.toBytes 0 8 r.size.toNat ∧
    HoldsLE r.toBytes 8 8 r.numOfOnes.toNat ∧
    HoldsLE r.toBytes 16 8 nb ∧
    (∀ w x, r.blocks[w]? = some x → HoldsLE r.toBytes (24 + 8 * w) 8 x.toNat) ∧
    HoldsLE r.toBytes (24 + 8 * nb) 8 rtLen ∧
    (∀ g e, r.rankTable[g]? = some e →
      HoldsLE r.toBytes (32 + 8 * nb + 16 * g) 4 e.abs.toNat ∧ HoldsLE r.toBytes (32 + 8 * nb + 16 * g + 4) 4 0 ∧
      HoldsLE r.toBytes (32 + 8 * nb + 16 * g + 8) 8 e.rel.toNat) ∧
    HoldsLE r.toBytes (32 + 8 * nb + 16 * rtLen) 8 s0Len ∧
    (∀ k p, r.select0Table[k]? = some p → HoldsLE r.toBytes (40 + 8 * nb + 16 * rtLen + 4 * k) 4 p.toNat) ∧
    HoldsLE r.toBytes (40 + 8 * nb + 16 * rtLen + 4 * s0Len) 8 s1Len ∧
    (∀ k p, r.select1Table[k]? = some p → HoldsLE r.toBytes (48 + 8 * nb + 16 * rtLen + 4 * s0Len + 4 * k) 4 p.toNat) ∧
    ∀ (p : Nat) (w : Word), r.blocks[p / 64]? = some w →
      ∃ b, r.toBytes[24 + 8 * (p / 64) + p % 64 / 8]? = some b ∧ b.getLsbD (p % 8) = w.getLsbD (p % 64)) ∧
  ∀ (abs padding rel rest : List Byte) (e : RankEntry), abs.length = 4 → padding.length = 4 → rel.length = 8 →
    HoldsLE abs 0 4 e.abs.toNat → HoldsLE rel 0 8 e.rel.toNat → readEntry (abs ++ padding ++ rel ++ rest) = some (e, rest)

/-- The save procedure (R84) on a frozen, idle block reads out exactly its state, and leaves the bit vector as it was. -/
def Obligations.SaveReadsOutTheVector : Prop :=
  ∀ s : State, s.Inv → s.frozen = true → s.running = none → ∃ t,
    saveRecord s = .next (
      { size := s.size.setWidth 64, numOfOnes := s.ones.setWidth 64, blocks := (List.range s.nb).map s.blk.read,
        rankTable := s.rt, select0Table := s.s0, select1Table := s.s1 }, t) ∧
    s.SameVector t ∧ t.running = none

/-- Loading a saved record (R84, R85) into any idle block that is large enough succeeds and restores the bit vector and every table
exactly. -/
def Obligations.LoadRestoresSavedVector : Prop :=
  ∀ (s t s' : State) (r : Record), s.Inv → s.frozen = true → s.running = none → saveRecord s = .next (r, t) → s'.Inv →
    s'.running = none → s.size.toNat ≤ s'.maxBits.toNat → ∃ u, loadRecord r s' = .next (true, u) ∧ s.SameVector u

/-- A load that fails any check leaves the block cleared (R85 step 7; for step 1 that is log entry 24), also a load of bytes that are
no record; and bytes are a record only if they have the length R81 gives for their counts (R85 step 1, log entry 23). -/
def Obligations.FailedLoadLeavesBlockCleared : Prop :=
  (∀ (r : Record) (bs : List Byte) (s t : State), s.running = none →
    loadRecord r s = .next (false, t) ∨ loadBytes bs s = .next (false, t) →
    t.size = 0 ∧ t.ones = 0 ∧ t.frozen = false ∧ t.fs1 = false ∧ t.fs0 = false ∧ t.blk = [] ∧ t.rt = [] ∧ t.s1 = [] ∧ t.s0 = []) ∧
  (∀ (bs : List Byte) (s : State), s.running = none → Record.ofBytes bs = none → ∃ t, loadBytes bs s = .next (false, t)) ∧
  (∀ (bs : List Byte) (r : Record), Record.ofBytes bs = some r →
    bs.length = 48 + 8 * r.blocks.length + 16 * r.rankTable.length + 4 * (r.select0Table.length + r.select1Table.length))
end

