-- ==== Sys2Proof/Laws/State.lean ====
section
/-! SUPPORT. One lemma per field for each operation that updates the state, true by computation. -/

namespace Sys2Proof.Machine

/-! ### `complete` -/

@[simp] theorem State.complete_arg0 (s : State) : s.complete.arg0 = s.arg0 := rfl
@[simp] theorem State.complete_arg1 (s : State) : s.complete.arg1 = s.arg1 := rfl
@[simp] theorem State.complete_res (s : State) : s.complete.res = s.res := rfl
@[simp] theorem State.complete_err (s : State) : s.complete.err = false := rfl
@[simp] theorem State.complete_found (s : State) : s.complete.found = true := rfl
@[simp] theorem State.complete_stickyErr (s : State) : s.complete.stickyErr = s.stickyErr := rfl
@[simp] theorem State.complete_overrun (s : State) : s.complete.overrun = s.overrun := rfl
@[simp] theorem State.complete_errCode (s : State) : s.complete.errCode = 0 := rfl
@[simp] theorem State.complete_running (s : State) : s.complete.running = none := rfl
@[simp] theorem State.complete_rix (s : State) : s.complete.rix = s.rix := rfl
@[simp] theorem State.complete_size (s : State) : s.complete.size = s.size := rfl
@[simp] theorem State.complete_ones (s : State) : s.complete.ones = s.ones := rfl
@[simp] theorem State.complete_frozen (s : State) : s.complete.frozen = s.frozen := rfl
@[simp] theorem State.complete_fs1 (s : State) : s.complete.fs1 = s.fs1 := rfl
@[simp] theorem State.complete_fs0 (s : State) : s.complete.fs0 = s.fs0 := rfl
@[simp] theorem State.complete_blk (s : State) : s.complete.blk = s.blk := rfl
@[simp] theorem State.complete_rt (s : State) : s.complete.rt = s.rt := rfl
@[simp] theorem State.complete_s1 (s : State) : s.complete.s1 = s.s1 := rfl
@[simp] theorem State.complete_s0 (s : State) : s.complete.s0 = s.s0 := rfl
@[simp] theorem State.complete_maxBits (s : State) : s.complete.maxBits = s.maxBits := rfl
@[simp] theorem State.complete_agenda (s : State) : s.complete.agenda = s.agenda := rfl
@[simp] theorem State.complete_rdata (s : State) : s.complete.rdata = s.rdata := rfl

/-! ### `completeWith` -/

@[simp] theorem State.completeWith_arg0 (s : State) (v : Word) : (s.completeWith v).arg0 = s.arg0 := rfl
@[simp] theorem State.completeWith_arg1 (s : State) (v : Word) : (s.completeWith v).arg1 = s.arg1 := rfl
@[simp] theorem State.completeWith_res (s : State) (v : Word) : (s.completeWith v).res = v := rfl
@[simp] theorem State.completeWith_err (s : State) (v : Word) : (s.completeWith v).err = false := rfl
@[simp] theorem State.completeWith_found (s : State) (v : Word) : (s.completeWith v).found = true := rfl
@[simp] theorem State.completeWith_stickyErr (s : State) (v : Word) : (s.completeWith v).stickyErr = s.stickyErr := rfl
@[simp] theorem State.completeWith_overrun (s : State) (v : Word) : (s.completeWith v).overrun = s.overrun := rfl
@[simp] theorem State.completeWith_errCode (s : State) (v : Word) : (s.completeWith v).errCode = 0 := rfl
@[simp] theorem State.completeWith_running (s : State) (v : Word) : (s.completeWith v).running = none := rfl
@[simp] theorem State.completeWith_rix (s : State) (v : Word) : (s.completeWith v).rix = s.rix := rfl
@[simp] theorem State.completeWith_size (s : State) (v : Word) : (s.completeWith v).size = s.size := rfl
@[simp] theorem State.completeWith_ones (s : State) (v : Word) : (s.completeWith v).ones = s.ones := rfl
@[simp] theorem State.completeWith_frozen (s : State) (v : Word) : (s.completeWith v).frozen = s.frozen := rfl
@[simp] theorem State.completeWith_fs1 (s : State) (v : Word) : (s.completeWith v).fs1 = s.fs1 := rfl
@[simp] theorem State.completeWith_fs0 (s : State) (v : Word) : (s.completeWith v).fs0 = s.fs0 := rfl
@[simp] theorem State.completeWith_blk (s : State) (v : Word) : (s.completeWith v).blk = s.blk := rfl
@[simp] theorem State.completeWith_rt (s : State) (v : Word) : (s.completeWith v).rt = s.rt := rfl
@[simp] theorem State.completeWith_s1 (s : State) (v : Word) : (s.completeWith v).s1 = s.s1 := rfl
@[simp] theorem State.completeWith_s0 (s : State) (v : Word) : (s.completeWith v).s0 = s.s0 := rfl
@[simp] theorem State.completeWith_maxBits (s : State) (v : Word) : (s.completeWith v).maxBits = s.maxBits := rfl
@[simp] theorem State.completeWith_agenda (s : State) (v : Word) : (s.completeWith v).agenda = s.agenda := rfl
@[simp] theorem State.completeWith_rdata (s : State) (v : Word) : (s.completeWith v).rdata = s.rdata := rfl

/-! ### `notFound` -/

@[simp] theorem State.notFound_arg0 (s : State) : s.notFound.arg0 = s.arg0 := rfl
@[simp] theorem State.notFound_arg1 (s : State) : s.notFound.arg1 = s.arg1 := rfl
@[simp] theorem State.notFound_res (s : State) : s.notFound.res = Config.notFoundValue := rfl
@[simp] theorem State.notFound_err (s : State) : s.notFound.err = false := rfl
@[simp] theorem State.notFound_found (s : State) : s.notFound.found = false := rfl
@[simp] theorem State.notFound_stickyErr (s : State) : s.notFound.stickyErr = s.stickyErr := rfl
@[simp] theorem State.notFound_overrun (s : State) : s.notFound.overrun = s.overrun := rfl
@[simp] theorem State.notFound_errCode (s : State) : s.notFound.errCode = 0 := rfl
@[simp] theorem State.notFound_running (s : State) : s.notFound.running = none := rfl
@[simp] theorem State.notFound_rix (s : State) : s.notFound.rix = s.rix := rfl
@[simp] theorem State.notFound_size (s : State) : s.notFound.size = s.size := rfl
@[simp] theorem State.notFound_ones (s : State) : s.notFound.ones = s.ones := rfl
@[simp] theorem State.notFound_frozen (s : State) : s.notFound.frozen = s.frozen := rfl
@[simp] theorem State.notFound_fs1 (s : State) : s.notFound.fs1 = s.fs1 := rfl
@[simp] theorem State.notFound_fs0 (s : State) : s.notFound.fs0 = s.fs0 := rfl
@[simp] theorem State.notFound_blk (s : State) : s.notFound.blk = s.blk := rfl
@[simp] theorem State.notFound_rt (s : State) : s.notFound.rt = s.rt := rfl
@[simp] theorem State.notFound_s1 (s : State) : s.notFound.s1 = s.s1 := rfl
@[simp] theorem State.notFound_s0 (s : State) : s.notFound.s0 = s.s0 := rfl
@[simp] theorem State.notFound_maxBits (s : State) : s.notFound.maxBits = s.maxBits := rfl
@[simp] theorem State.notFound_agenda (s : State) : s.notFound.agenda = s.agenda := rfl
@[simp] theorem State.notFound_rdata (s : State) : s.notFound.rdata = s.rdata := rfl

/-! ### `raiseFault` -/

@[simp] theorem State.raiseFault_arg0 (s : State) (c : ErrCode) : (s.raiseFault c).arg0 = s.arg0 := rfl
@[simp] theorem State.raiseFault_arg1 (s : State) (c : ErrCode) : (s.raiseFault c).arg1 = s.arg1 := rfl
@[simp] theorem State.raiseFault_res (s : State) (c : ErrCode) : (s.raiseFault c).res = s.res := rfl
@[simp] theorem State.raiseFault_err (s : State) (c : ErrCode) : (s.raiseFault c).err = true := rfl
@[simp] theorem State.raiseFault_found (s : State) (c : ErrCode) : (s.raiseFault c).found = false := rfl
@[simp] theorem State.raiseFault_stickyErr (s : State) (c : ErrCode) : (s.raiseFault c).stickyErr = true := rfl
@[simp] theorem State.raiseFault_overrun (s : State) (c : ErrCode) : (s.raiseFault c).overrun = s.overrun := rfl
@[simp] theorem State.raiseFault_errCode (s : State) (c : ErrCode) : (s.raiseFault c).errCode = c.toBits := rfl
@[simp] theorem State.raiseFault_running (s : State) (c : ErrCode) : (s.raiseFault c).running = none := rfl
@[simp] theorem State.raiseFault_rix (s : State) (c : ErrCode) : (s.raiseFault c).rix = s.rix := rfl
@[simp] theorem State.raiseFault_size (s : State) (c : ErrCode) : (s.raiseFault c).size = s.size := rfl
@[simp] theorem State.raiseFault_ones (s : State) (c : ErrCode) : (s.raiseFault c).ones = s.ones := rfl
@[simp] theorem State.raiseFault_frozen (s : State) (c : ErrCode) : (s.raiseFault c).frozen = s.frozen := rfl
@[simp] theorem State.raiseFault_fs1 (s : State) (c : ErrCode) : (s.raiseFault c).fs1 = s.fs1 := rfl
@[simp] theorem State.raiseFault_fs0 (s : State) (c : ErrCode) : (s.raiseFault c).fs0 = s.fs0 := rfl
@[simp] theorem State.raiseFault_blk (s : State) (c : ErrCode) : (s.raiseFault c).blk = s.blk := rfl
@[simp] theorem State.raiseFault_rt (s : State) (c : ErrCode) : (s.raiseFault c).rt = s.rt := rfl
@[simp] theorem State.raiseFault_s1 (s : State) (c : ErrCode) : (s.raiseFault c).s1 = s.s1 := rfl
@[simp] theorem State.raiseFault_s0 (s : State) (c : ErrCode) : (s.raiseFault c).s0 = s.s0 := rfl
@[simp] theorem State.raiseFault_maxBits (s : State) (c : ErrCode) : (s.raiseFault c).maxBits = s.maxBits := rfl
@[simp] theorem State.raiseFault_agenda (s : State) (c : ErrCode) : (s.raiseFault c).agenda = s.agenda := rfl
@[simp] theorem State.raiseFault_rdata (s : State) (c : ErrCode) : (s.raiseFault c).rdata = s.rdata := rfl

/-! ### `grow` -/

@[simp] theorem State.grow_arg0 (s : State) (n : Nat) : (s.grow n).arg0 = s.arg0 := rfl
@[simp] theorem State.grow_arg1 (s : State) (n : Nat) : (s.grow n).arg1 = s.arg1 := rfl
@[simp] theorem State.grow_res (s : State) (n : Nat) : (s.grow n).res = s.res := rfl
@[simp] theorem State.grow_err (s : State) (n : Nat) : (s.grow n).err = s.err := rfl
@[simp] theorem State.grow_found (s : State) (n : Nat) : (s.grow n).found = s.found := rfl
@[simp] theorem State.grow_stickyErr (s : State) (n : Nat) : (s.grow n).stickyErr = s.stickyErr := rfl
@[simp] theorem State.grow_overrun (s : State) (n : Nat) : (s.grow n).overrun = s.overrun := rfl
@[simp] theorem State.grow_errCode (s : State) (n : Nat) : (s.grow n).errCode = s.errCode := rfl
@[simp] theorem State.grow_running (s : State) (n : Nat) : (s.grow n).running = s.running := rfl
@[simp] theorem State.grow_rix (s : State) (n : Nat) : (s.grow n).rix = s.rix := rfl
@[simp] theorem State.grow_size (s : State) (n : Nat) : (s.grow n).size = BitVec.ofNat 32 n := rfl
@[simp] theorem State.grow_ones (s : State) (n : Nat) : (s.grow n).ones = s.ones := rfl
@[simp] theorem State.grow_frozen (s : State) (n : Nat) : (s.grow n).frozen = s.frozen := rfl
@[simp] theorem State.grow_fs1 (s : State) (n : Nat) : (s.grow n).fs1 = s.fs1 := rfl
@[simp] theorem State.grow_fs0 (s : State) (n : Nat) : (s.grow n).fs0 = s.fs0 := rfl
@[simp] theorem State.grow_blk (s : State) (n : Nat) : (s.grow n).blk = s.blk.keepBelow s.nb := rfl
@[simp] theorem State.grow_rt (s : State) (n : Nat) : (s.grow n).rt = s.rt := rfl
@[simp] theorem State.grow_s1 (s : State) (n : Nat) : (s.grow n).s1 = s.s1 := rfl
@[simp] theorem State.grow_s0 (s : State) (n : Nat) : (s.grow n).s0 = s.s0 := rfl
@[simp] theorem State.grow_maxBits (s : State) (n : Nat) : (s.grow n).maxBits = s.maxBits := rfl
@[simp] theorem State.grow_agenda (s : State) (n : Nat) : (s.grow n).agenda = s.agenda := rfl
@[simp] theorem State.grow_rdata (s : State) (n : Nat) : (s.grow n).rdata = s.rdata := rfl

/-! ### `writeBlk` -/

@[simp] theorem State.writeBlk_arg0 (s : State) (w : Nat) (v : Word) : (s.writeBlk w v).arg0 = s.arg0 := rfl
@[simp] theorem State.writeBlk_arg1 (s : State) (w : Nat) (v : Word) : (s.writeBlk w v).arg1 = s.arg1 := rfl
@[simp] theorem State.writeBlk_res (s : State) (w : Nat) (v : Word) : (s.writeBlk w v).res = s.res := rfl
@[simp] theorem State.writeBlk_err (s : State) (w : Nat) (v : Word) : (s.writeBlk w v).err = s.err := rfl
@[simp] theorem State.writeBlk_found (s : State) (w : Nat) (v : Word) : (s.writeBlk w v).found = s.found := rfl
@[simp] theorem State.writeBlk_stickyErr (s : State) (w : Nat) (v : Word) : (s.writeBlk w v).stickyErr = s.stickyErr := rfl
@[simp] theorem State.writeBlk_overrun (s : State) (w : Nat) (v : Word) : (s.writeBlk w v).overrun = s.overrun := rfl
@[simp] theorem State.writeBlk_errCode (s : State) (w : Nat) (v : Word) : (s.writeBlk w v).errCode = s.errCode := rfl
@[simp] theorem State.writeBlk_running (s : State) (w : Nat) (v : Word) : (s.writeBlk w v).running = s.running := rfl
@[simp] theorem State.writeBlk_rix (s : State) (w : Nat) (v : Word) : (s.writeBlk w v).rix = s.rix := rfl
@[simp] theorem State.writeBlk_size (s : State) (w : Nat) (v : Word) : (s.writeBlk w v).size = s.size := rfl
@[simp] theorem State.writeBlk_ones (s : State) (w : Nat) (v : Word) : (s.writeBlk w v).ones = s.ones := rfl
@[simp] theorem State.writeBlk_frozen (s : State) (w : Nat) (v : Word) : (s.writeBlk w v).frozen = s.frozen := rfl
@[simp] theorem State.writeBlk_fs1 (s : State) (w : Nat) (v : Word) : (s.writeBlk w v).fs1 = s.fs1 := rfl
@[simp] theorem State.writeBlk_fs0 (s : State) (w : Nat) (v : Word) : (s.writeBlk w v).fs0 = s.fs0 := rfl
@[simp] theorem State.writeBlk_blk (s : State) (w : Nat) (v : Word) : (s.writeBlk w v).blk = s.blk.write w v := rfl
@[simp] theorem State.writeBlk_rt (s : State) (w : Nat) (v : Word) : (s.writeBlk w v).rt = s.rt := rfl
@[simp] theorem State.writeBlk_s1 (s : State) (w : Nat) (v : Word) : (s.writeBlk w v).s1 = s.s1 := rfl
@[simp] theorem State.writeBlk_s0 (s : State) (w : Nat) (v : Word) : (s.writeBlk w v).s0 = s.s0 := rfl
@[simp] theorem State.writeBlk_maxBits (s : State) (w : Nat) (v : Word) : (s.writeBlk w v).maxBits = s.maxBits := rfl
@[simp] theorem State.writeBlk_agenda (s : State) (w : Nat) (v : Word) : (s.writeBlk w v).agenda = s.agenda := rfl
@[simp] theorem State.writeBlk_rdata (s : State) (w : Nat) (v : Word) : (s.writeBlk w v).rdata = s.rdata := rfl

/-! ### Views of the state -/

/-- The operands and views a command reads depend on a few fields only. -/
@[simp] theorem State.complete_nb (s : State) : s.complete.nb = s.nb := rfl
@[simp] theorem State.completeWith_nb (s : State) (v : Word) : (s.completeWith v).nb = s.nb := rfl
@[simp] theorem State.notFound_nb (s : State) : s.notFound.nb = s.nb := rfl
@[simp] theorem State.raiseFault_nb (s : State) (c : ErrCode) : (s.raiseFault c).nb = s.nb := rfl
@[simp] theorem State.writeBlk_nb (s : State) (w : Nat) (v : Word) : (s.writeBlk w v).nb = s.nb := rfl

theorem State.opnd0_latched {s : State} {l : Latched} (h : s.running = some l) : s.opnd0 = l.arg0 := by
  simp [State.opnd0, h]

theorem State.opnd1_latched {s : State} {l : Latched} (h : s.running = some l) : s.opnd1 = l.arg1 := by
  simp [State.opnd1, h]

/-- A command ends in a fault or completes: `finish` answers next exactly when the datapath does. -/
theorem State.finish_eq_next {s t : State} {r : Except Fault Nat} (h : s.finish r = .next t) :
    ∃ n, r = .ok n ∧ t = s.completeWith (BitVec.ofNat 64 n) := by
  cases r with
  | ok n => exact ⟨n, rfl, by simpa [State.finish] using h.symm⟩
  | error f => simp [State.finish] at h

@[simp] theorem State.finish_ok (s : State) (n : Nat) :
    s.finish (.ok n) = .next (s.completeWith (BitVec.ofNat 64 n)) := rfl

@[simp] theorem State.finish_error (s : State) (f : Fault) : s.finish (.error f) = .fault f := rfl

end Sys2Proof.Machine
end

