-- ==== Sys2Proof/Laws/Memory.lean ====
section
/-! SUPPORT. The laws of BLOCK_MEM: read after write, and that every operation keeps the canonical form. -/

namespace Sys2Proof.Machine

@[simp] theorem BlockMem.read_nil (a : Nat) : BlockMem.read [] a = 0 := rfl

theorem BlockMem.read_cons (c : Nat × Word) (m : BlockMem) (a : Nat) :
    BlockMem.read (c :: m) a = if c.1 = a then c.2 else BlockMem.read m a := rfl

/-- Keeping the entries whose index satisfies `p` leaves those words alone and zeroes the others. -/
theorem BlockMem.read_filter (m : BlockMem) (p : Nat → Bool) (a : Nat) :
    BlockMem.read (m.filter fun c => p c.1) a = if p a then BlockMem.read m a else 0 := by
  induction m with
  | nil => simp
  | cons c m ih =>
    by_cases hp : p c.1 <;> by_cases hc : c.1 = a <;> by_cases ha : p a <;> simp_all [BlockMem.read_cons]

theorem BlockMem.read_insert (w : Nat) (v : Word) (m : BlockMem) (a : Nat)
    (h : ∀ c ∈ m, c.1 ≠ w) : BlockMem.read (BlockMem.insert w v m) a = if w = a then v else BlockMem.read m a := by
  induction m with
  | nil => simp [BlockMem.insert, BlockMem.read_cons]
  | cons c m ih =>
    have hc : c.1 ≠ w := h c (by simp)
    have ih := ih fun d hd => h d (by simp [hd])
    unfold BlockMem.insert
    split
    · rw [BlockMem.read_cons]
    · rw [BlockMem.read_cons, ih, BlockMem.read_cons]
      by_cases h1 : w = a
      · subst h1
        simp [hc]
      · simp [h1]

/-- A write is seen at its own index and leaves every other word alone. -/
@[simp] theorem BlockMem.read_write (m : BlockMem) (w : Nat) (v : Word) (a : Nat) :
    (m.write w v).read a = if w = a then v else m.read a := by
  have hf := BlockMem.read_filter m (fun k => k != w) a
  unfold BlockMem.write
  by_cases hv : v = 0
  · simp only [hv, if_true]
    rw [hf]
    by_cases h : w = a
    · simp [h]
    · simp [h, Ne.symm h]
  · simp only [hv, if_false]
    rw [BlockMem.read_insert _ _ _ _ (by simp), hf]
    by_cases h : w = a
    · simp [h]
    · simp [h, Ne.symm h]

/-- Zeroing every word from index `n` on leaves the words below `n` alone. -/
@[simp] theorem BlockMem.read_keepBelow (m : BlockMem) (n a : Nat) :
    (m.keepBelow n).read a = if a < n then m.read a else 0 := by
  simpa [BlockMem.keepBelow] using BlockMem.read_filter m (fun k => decide (k < n)) a

/-! ### The canonical form -/

/-- The canonical form, entry by entry. -/
theorem BlockMem.wf_cons (c : Nat × Word) (m : BlockMem) :
    BlockMem.wf (c :: m) = true ↔ c.2 ≠ 0 ∧ (∀ d ∈ m, c.1 < d.1) ∧ BlockMem.wf m = true := by
  induction m generalizing c with
  | nil => simp [BlockMem.wf]
  | cons d m ih =>
    have hd := ih d
    constructor
    · intro h
      simp only [BlockMem.wf, Bool.and_eq_true, bne_iff_ne, ne_eq, decide_eq_true_eq] at h
      obtain ⟨⟨h1, h2⟩, h3⟩ := h
      have hm : BlockMem.wf (d :: m) = true := by
        simp only [BlockMem.wf, Bool.and_eq_true, bne_iff_ne, ne_eq]
        exact h3
      refine ⟨h1, fun e he => ?_, hm⟩
      rcases List.mem_cons.mp he with rfl | he
      · exact h2
      · exact Nat.lt_trans h2 ((hd.mp hm).2.1 e he)
    · rintro ⟨h1, h2, h3⟩
      have hlt := h2 d (by simp)
      have h1 : ¬c.2 = 0#64 := h1
      rw [BlockMem.wf]
      simp [h1, hlt, h3]

theorem BlockMem.wf_filter (m : BlockMem) (p : Nat × Word → Bool) (h : BlockMem.wf m = true) :
    BlockMem.wf (m.filter p) = true := by
  induction m with
  | nil => rfl
  | cons c m ih =>
    obtain ⟨h1, h2, h3⟩ := (BlockMem.wf_cons c m).mp h
    by_cases hp : p c
    · rw [List.filter_cons_of_pos hp, BlockMem.wf_cons]
      exact ⟨h1, fun d hd => h2 d (List.mem_filter.mp hd).1, ih h3⟩
    · rw [List.filter_cons_of_neg hp]
      exact ih h3

theorem BlockMem.mem_insert {w : Nat} {v : Word} {m : BlockMem} {d : Nat × Word}
    (h : d ∈ BlockMem.insert w v m) : d = (w, v) ∨ d ∈ m := by
  induction m with
  | nil => simpa [BlockMem.insert] using h
  | cons c m ih =>
    unfold BlockMem.insert at h
    split at h
    · simpa using h
    · rcases List.mem_cons.mp h with rfl | h
      · simp
      · rcases ih h with h | h <;> simp [h]

theorem BlockMem.wf_insert {w : Nat} {v : Word} {m : BlockMem} (hv : v ≠ 0) (h : BlockMem.wf m = true)
    (hne : ∀ c ∈ m, c.1 ≠ w) : BlockMem.wf (BlockMem.insert w v m) = true := by
  induction m with
  | nil =>
    have hv : ¬v = 0#64 := hv
    simp [BlockMem.insert, BlockMem.wf, hv]
  | cons c m ih =>
    obtain ⟨h1, h2, h3⟩ := (BlockMem.wf_cons c m).mp h
    have hc : c.1 ≠ w := hne c (by simp)
    unfold BlockMem.insert
    split
    · rename_i hlt
      rw [BlockMem.wf_cons]
      refine ⟨hv, fun d hd => ?_, h⟩
      rcases List.mem_cons.mp hd with rfl | hd
      · exact hlt
      · exact Nat.lt_trans hlt (h2 d hd)
    · rename_i hge
      rw [BlockMem.wf_cons]
      refine ⟨h1, fun d hd => ?_, ih h3 fun e he => hne e (by simp [he])⟩
      rcases BlockMem.mem_insert hd with rfl | hd
      · show c.1 < w
        omega
      · exact h2 d hd

/-- A write keeps the canonical form. -/
theorem BlockMem.wf_write {m : BlockMem} (w : Nat) (v : Word) (h : m.wf = true) : (m.write w v).wf = true := by
  unfold BlockMem.write
  by_cases hv : v = 0
  · simpa [hv] using BlockMem.wf_filter m _ h
  · simp only [hv, if_false]
    exact BlockMem.wf_insert hv (BlockMem.wf_filter m _ h) (by simp)

/-- Zeroing the tail keeps the canonical form. -/
theorem BlockMem.wf_keepBelow {m : BlockMem} (n : Nat) (h : m.wf = true) : (m.keepBelow n).wf = true :=
  BlockMem.wf_filter m _ h

/-- The memory after reset is canonical. -/
theorem BlockMem.wf_reset : State.reset.blk.wf = true := rfl

/-- In the canonical form every listed word is what a read gives. -/
theorem BlockMem.read_of_mem {m : BlockMem} (h : m.wf = true) {c : Nat × Word} (hc : c ∈ m) : m.read c.1 = c.2 := by
  induction m with
  | nil => simp at hc
  | cons d m ih =>
    obtain ⟨-, h2, h3⟩ := (BlockMem.wf_cons d m).mp h
    rcases List.mem_cons.mp hc with rfl | hc
    · simp [BlockMem.read_cons]
    · have : d.1 ≠ c.1 := Nat.ne_of_lt (h2 c hc)
      simp [BlockMem.read_cons, this, ih h3 hc]

/-- Equal memories are equal data: two canonical memories that read alike are the same list. -/
theorem BlockMem.ext_of_read {m n : BlockMem} (hm : m.wf = true) (hn : n.wf = true) (h : ∀ a, m.read a = n.read a) : m = n := by
  induction m generalizing n with
  | nil =>
    cases n with
    | nil => rfl
    | cons d n =>
      have h0 := h d.1
      obtain ⟨h1, -, -⟩ := (BlockMem.wf_cons d n).mp hn
      simp [BlockMem.read_cons] at h0
      exact absurd h0.symm h1
  | cons c m ih =>
    obtain ⟨hc, hlt, hm'⟩ := (BlockMem.wf_cons c m).mp hm
    cases n with
    | nil =>
      have h0 := h c.1
      simp [BlockMem.read_cons] at h0
      exact absurd h0 hc
    | cons d n =>
      obtain ⟨hd, hltd, hn'⟩ := (BlockMem.wf_cons d n).mp hn
      have zero_below : ∀ (l : BlockMem) (a : Nat), (∀ e ∈ l, a < e.1) → l.read a = 0 := by
        intro l a hl
        induction l with
        | nil => rfl
        | cons e l ihl =>
          have : e.1 ≠ a := Nat.ne_of_gt (hl e (by simp))
          simp [BlockMem.read_cons, this, ihl fun x hx => hl x (by simp [hx])]
      have hkey : c.1 = d.1 := by
        rcases Nat.lt_trichotomy c.1 d.1 with hk | hk | hk
        · have h0 := h c.1
          rw [zero_below (d :: n) c.1 (by
            intro e he
            rcases List.mem_cons.mp he with rfl | he
            · exact hk
            · exact Nat.lt_trans hk (hltd e he))] at h0
          simp [BlockMem.read_cons] at h0
          exact absurd h0 hc
        · exact hk
        · have h0 := h d.1
          rw [zero_below (c :: m) d.1 (by
            intro e he
            rcases List.mem_cons.mp he with rfl | he
            · exact hk
            · exact Nat.lt_trans hk (hlt e he))] at h0
          simp [BlockMem.read_cons] at h0
          exact absurd h0.symm hd
      have hval : c.2 = d.2 := by
        have h0 := h c.1
        simpa [BlockMem.read_cons, hkey] using h0
      have htail : m = n := by
        apply ih hm' hn'
        intro a
        have h0 := h a
        by_cases ha : c.1 = a
        · subst ha
          rw [zero_below m c.1 hlt, zero_below n c.1 (by rw [hkey]; exact hltd)]
        · simpa [BlockMem.read_cons, ha, hkey ▸ ha] using h0
      rw [htail, Prod.ext hkey hval]

end Sys2Proof.Machine
end

