-- ==== Sys2Proof/Laws/Bits.lean ====
section
/-! SUPPORT. The laws of the counting and bit-field functions: population counts, masks, and what the in-word select unit
answers. -/

namespace Sys2Proof.Machine

/-! ### Counting -/

theorem onesBelow_succ (v n : Nat) : onesBelow v (n + 1) = onesBelow v n + if v.testBit n then 1 else 0 := rfl

theorem onesBelow_le (v n : Nat) : onesBelow v n ≤ n := by
  induction n with
  | zero => simp [onesBelow]
  | succ n ih =>
    rw [onesBelow_succ]
    split <;> omega

theorem onesBelow_mono (v : Nat) {m n : Nat} (h : m ≤ n) : onesBelow v m ≤ onesBelow v n := by
  induction n with
  | zero => simp_all
  | succ n ih =>
    rcases Nat.lt_or_ge m (n + 1) with h1 | h1
    · have := ih (by omega)
      rw [onesBelow_succ]
      omega
    · have : m = n + 1 := by omega
      simp [this]

/-- The count depends on the counted bits only. -/
theorem onesBelow_congr {v w n : Nat} (h : ∀ j, j < n → v.testBit j = w.testBit j) : onesBelow v n = onesBelow w n := by
  induction n with
  | zero => rfl
  | succ n ih => rw [onesBelow_succ, onesBelow_succ, ih fun j hj => h j (by omega), h n (by omega)]

/-- Counting in two parts: `u` shows from its bit 0 what `v` shows from bit `a`. -/
theorem onesBelow_add {v u a b : Nat} (h : ∀ j, j < b → u.testBit j = v.testBit (a + j)) :
    onesBelow v (a + b) = onesBelow v a + onesBelow u b := by
  induction b with
  | zero => simp [onesBelow]
  | succ b ih => rw [← Nat.add_assoc, onesBelow_succ, onesBelow_succ, ih fun j hj => h j (by omega), h b (by omega)]; omega

/-- The position of the `(r+1)`-th one is unique. -/
theorem onesBelow_select_unique {v r p q : Nat} (hp : v.testBit p = true) (hq : v.testBit q = true)
    (rp : onesBelow v p = r) (rq : onesBelow v q = r) : p = q := by
  rcases Nat.lt_trichotomy p q with h | h | h
  · have h1 := onesBelow_mono v (Nat.succ_le_of_lt h)
    rw [onesBelow_succ] at h1
    simp [hp] at h1
    omega
  · exact h
  · have h1 := onesBelow_mono v (Nat.succ_le_of_lt h)
    rw [onesBelow_succ] at h1
    simp [hq] at h1
    omega

/-- The `(r+1)`-th one exists when there are more than `r`. -/
theorem onesBelow_select_exists {v r n : Nat} (h : r < onesBelow v n) :
    ∃ p, p < n ∧ v.testBit p = true ∧ onesBelow v p = r := by
  induction n with
  | zero => simp [onesBelow] at h
  | succ n ih =>
    by_cases h1 : r < onesBelow v n
    · obtain ⟨p, hp, h2⟩ := ih h1
      exact ⟨p, by omega, h2⟩
    · rw [onesBelow_succ] at h
      by_cases hb : v.testBit n
      · simp [hb] at h
        exact ⟨n, by omega, hb, by omega⟩
      · simp [hb] at h
        omega

/-- Below the position of the `(r+1)`-th one there are fewer ones than below any later position. -/
theorem onesBelow_lt_of_testBit {v p n : Nat} (hp : v.testBit p = true) (h : p < n) : onesBelow v p < onesBelow v n := by
  have h1 := onesBelow_mono v (Nat.succ_le_of_lt h)
  rw [onesBelow_succ] at h1
  simp [hp] at h1
  omega

/-! ### Masks -/

theorem mask_getLsbD (n j : Nat) : (mask n).getLsbD j = (decide (j < n) && decide (j < 64)) := by
  simp [mask, BitVec.getLsbD_ofNat, Nat.testBit_two_pow_sub_one, Bool.and_comm]

theorem word_testBit (w : Word) (j : Nat) : w.toNat.testBit j = w.getLsbD j := rfl

theorem popcount_le (w : Word) : popcount w ≤ 64 := onesBelow_le _ _

theorem onesBelow_zero (n : Nat) : onesBelow 0 n = 0 := by
  induction n with
  | zero => rfl
  | succ n ih => rw [onesBelow_succ, ih]; simp

/-- A count over 64 bits that sees nothing from bit `n` on is a count over `n` bits. -/
theorem onesBelow_of_zero_above {v : Nat} {n : Nat} (h : n ≤ 64) (hz : ∀ j, n ≤ j → j < 64 → v.testBit j = false) :
    onesBelow v 64 = onesBelow v n := by
  have h1 : onesBelow v (n + (64 - n)) = onesBelow v n + onesBelow 0 (64 - n) := by
    apply onesBelow_add
    intro j hj
    rw [Nat.zero_testBit, hz (n + j) (by omega) (by omega)]
  rw [onesBelow_zero] at h1
  rwa [show n + (64 - n) = 64 by omega] at h1

/-- The masked count of the rank unit. -/
theorem popcount_and_mask (w : Word) {n : Nat} (h : n ≤ 64) : popcount (w &&& mask n) = onesBelow w.toNat n := by
  unfold popcount
  rw [onesBelow_of_zero_above h]
  · apply onesBelow_congr
    intro j hj
    rw [word_testBit, word_testBit, BitVec.getLsbD_and, mask_getLsbD]
    simp [hj]
    omega
  · intro j hj hj2
    rw [word_testBit, BitVec.getLsbD_and, mask_getLsbD]
    simp [show ¬j < n by omega]

/-- The zeros among the low `n` bits. -/
theorem onesBelow_complement (w : Word) {n : Nat} (h : n ≤ 64) :
    onesBelow (~~~w).toNat n + onesBelow w.toNat n = n := by
  induction n with
  | zero => rfl
  | succ n ih =>
    have ih := ih (by omega)
    have hb : (~~~w).getLsbD n = !w.getLsbD n := by simp [show n < 64 by omega]
    rw [onesBelow_succ, onesBelow_succ, word_testBit, word_testBit, hb]
    cases w.getLsbD n <;> simp only [Bool.not_true, Bool.not_false, if_true, Bool.false_eq_true, if_false] <;> omega

/-! ### The in-word select unit -/

theorem byteOf_testBit (w : Word) (k j : Nat) (hj : j < 8) : (byteOf w k).toNat.testBit j = w.toNat.testBit (8 * k + j) := by
  show (byteOf w k).getLsbD j = w.getLsbD (8 * k + j)
  simp [byteOf, hj]

/-- Counting inside byte `k`. -/
theorem onesBelow_byte (w : Word) (k : Nat) {j : Nat} (hj : j ≤ 8) :
    onesBelow w.toNat (8 * k + j) = onesBelow w.toNat (8 * k) + onesBelow (byteOf w k).toNat j :=
  onesBelow_add fun i hi => byteOf_testBit w k i (by omega)

/-- `P_(k-1)` is the number of ones below bit `8k` (R144). -/
theorem countBeforeByte_eq (w : Word) (k : Nat) : countBeforeByte w k = onesBelow w.toNat (8 * k) := by
  induction k with
  | zero => rfl
  | succ k ih =>
    have h := onesBelow_byte w k (j := 8) (by omega)
    rw [countBeforeByte, ih, byteCount, ← h]
    rfl

/-- What the in-word select lookup table holds where it is read (R145). -/
theorem lut_spec {r : Nat} {b : Byte} (h : r < onesBelow b.toNat 8) :
    lut r b < 8 ∧ b.toNat.testBit (lut r b) = true ∧ onesBelow b.toNat (lut r b) = r := by
  obtain ⟨q, hq, hbit, hr⟩ := onesBelow_select_exists h
  unfold lut
  cases hf : (List.range 8).find? fun q => b.getLsbD q && onesBelow b.toNat q == r with
  | none =>
    have := List.find?_eq_none.mp hf q (by simpa using hq)
    simp [hr] at this
    have hbit : b.getLsbD q = true := hbit
    simp [hbit] at this
  | some p =>
    have h1 := List.find?_some hf
    have h2 := List.mem_of_find?_eq_some hf
    simp at h1 h2
    exact ⟨h2, h1.1, h1.2⟩

/-- The in-word select unit answers exactly when there are more than `r` ones, with the position of the `(r+1)`-th (R143,
R146). -/
theorem selw_spec {w : Word} {r : Nat} (h : r < popcount w) :
    ∃ p, selw w r = .ok p ∧ p < 64 ∧ w.getLsbD p = true ∧ onesBelow w.toNat p = r := by
  unfold selw
  cases hf : (List.range 8).find? fun k => decide (r < countBeforeByte w (k + 1)) with
  | none =>
    have := List.find?_eq_none.mp hf 7 (by simp)
    simp [countBeforeByte_eq] at this
    unfold popcount at h
    omega
  | some k =>
    have h1 : r < onesBelow w.toNat (8 * (k + 1)) := by
      have := List.find?_some hf
      simpa [countBeforeByte_eq] using this
    have hk : k < 8 := by simpa using List.mem_of_find?_eq_some hf
    have h2 : onesBelow w.toNat (8 * k) ≤ r := by
      cases k with
      | zero => simp [onesBelow]
      | succ k =>
        rw [List.find?_range_eq_some] at hf
        have := hf.2.2 k (by omega)
        simpa [countBeforeByte_eq] using this
    have h3 := onesBelow_byte w k (j := 8) (by omega)
    rw [show 8 * k + 8 = 8 * (k + 1) by omega] at h3
    obtain ⟨l1, l2, l3⟩ := lut_spec (r := r - onesBelow w.toNat (8 * k)) (b := byteOf w k) (by omega)
    rw [byteOf_testBit _ _ _ l1] at l2
    have h4 := onesBelow_byte w k (j := lut (r - onesBelow w.toNat (8 * k)) (byteOf w k)) (by omega)
    refine ⟨8 * k + lut (r - onesBelow w.toNat (8 * k)) (byteOf w k), ?_, by omega, l2, by omega⟩
    simp [countBeforeByte_eq]

/-- The in-word select unit finds the one position that has `r` ones below it. -/
theorem selw_eq {w : Word} {r p : Nat} (hp : p < 64) (hbit : w.getLsbD p = true) (hr : onesBelow w.toNat p = r) :
    selw w r = .ok p := by
  have hlt : r < popcount w := by
    have := onesBelow_lt_of_testBit (v := w.toNat) (n := 64) hbit hp
    unfold popcount
    omega
  obtain ⟨q, hq, -, hqb, hqr⟩ := selw_spec hlt
  rw [hq, onesBelow_select_unique hqb hbit hqr hr]

end Sys2Proof.Machine
end

