-- ==== Sys2Proof/Laws/Vector.lean ====
section
/-! SUPPORT. The laws of the mathematical functions of the bit vector (00_scope.md R10), and how they follow from its words. -/

namespace Sys2Proof.Machine

variable {s : State} {v : Bool}

theorem ceilDiv_le_iff {a b n : Nat} (hb : 0 < b) : ceilDiv a b ≤ n ↔ a ≤ b * n := by
  unfold ceilDiv
  rw [Nat.div_le_iff_le_mul_add_pred hb]
  omega

theorem lt_ceilDiv_iff {a b n : Nat} (hb : 0 < b) : n < ceilDiv a b ↔ b * n < a := by
  have := ceilDiv_le_iff (a := a) (n := n) hb
  omega

theorem State.lt_nb_iff {w : Nat} : w < s.nb ↔ 64 * w < s.size.toNat := lt_ceilDiv_iff (by omega)

/-! ### rank -/

@[simp] theorem State.rank_zero : s.rank v 0 = 0 := rfl

theorem State.rank_succ (n : Nat) : s.rank v (n + 1) = s.rank v n + if s.holds v n then 1 else 0 := rfl

theorem State.rank_mono {m n : Nat} (h : m ≤ n) : s.rank v m ≤ s.rank v n := by
  induction n with
  | zero => simp_all
  | succ n ih =>
    rcases Nat.lt_or_ge m (n + 1) with h1 | h1
    · have := ih (by omega)
      rw [State.rank_succ]
      omega
    · have : m = n + 1 := by omega
      simp [this]

theorem State.holds_lt {p : Nat} (h : s.holds v p = true) : p < s.size.toNat := by
  simp [State.holds] at h
  exact h.1

theorem State.holds_not {p : Nat} (hp : p < s.size.toNat) : s.holds (!v) p = !s.holds v p := by
  unfold State.holds
  cases v <;> cases s.bit p <;> simp [hp]

/-- Below `size` every position holds a one or a zero. -/
theorem State.rank_add_rank {n : Nat} (h : n ≤ s.size.toNat) : s.rank true n + s.rank false n = n := by
  induction n with
  | zero => rfl
  | succ n ih =>
    have ih := ih (by omega)
    have := State.holds_not (s := s) (v := true) (p := n) (by omega)
    simp only [Bool.not_true] at this
    rw [State.rank_succ, State.rank_succ, this]
    cases s.holds true n <;> simp <;> omega

theorem State.rank_le (n : Nat) : s.rank v n ≤ n := by
  induction n with
  | zero => simp
  | succ n ih =>
    rw [State.rank_succ]
    split <;> omega

/-- Past the end of the vector there is nothing to count. -/
theorem State.rank_of_size_le {n : Nat} (h : s.size.toNat ≤ n) : s.rank v n = s.rank v s.size.toNat := by
  induction n with
  | zero => simp_all
  | succ n ih =>
    rcases Nat.lt_or_ge s.size.toNat (n + 1) with h1 | h1
    · have hn : s.holds v n = false := by
        cases hh : s.holds v n
        · rfl
        · have := State.holds_lt hh
          omega
      rw [State.rank_succ, ih (by omega), hn]
      simp
    · have : n + 1 = s.size.toNat := by omega
      rw [this]

theorem State.rank_succ_of_holds {p : Nat} (h : s.holds v p = true) : s.rank v (p + 1) = s.rank v p + 1 := by
  rw [State.rank_succ, h]
  rfl

theorem State.rank_lt_of_holds {p n : Nat} (h : s.holds v p = true) (hp : p < n) : s.rank v p < s.rank v n := by
  have := State.rank_mono (s := s) (v := v) (Nat.succ_le_of_lt hp)
  rw [State.rank_succ_of_holds h] at this
  omega

theorem State.cnt_zero_left (n : Nat) : s.cnt v 0 n = s.rank v n := by simp [State.cnt]

/-- The rank functions depend on `size` and the words only. -/
theorem State.rank_congr {s t : State} (hs : s.size = t.size) (hb : s.blk = t.blk) (v : Bool) (n : Nat) :
    s.rank v n = t.rank v n := by
  induction n with
  | zero => rfl
  | succ n ih =>
    rw [State.rank_succ, State.rank_succ, ih]
    unfold State.holds State.bit
    rw [hs, hb]

/-! ### select -/

/-- `select_v(x)` is one position. -/
theorem State.IsSelect.unique {x p q : Nat} (hp : s.IsSelect v x p) (hq : s.IsSelect v x q) : p = q := by
  rcases Nat.lt_trichotomy p q with h | h | h
  · have h1 := State.rank_lt_of_holds hp.1 h
    have h2 := hp.2
    have h3 := hq.2
    omega
  · exact h
  · have h1 := State.rank_lt_of_holds hq.1 h
    have h2 := hp.2
    have h3 := hq.2
    omega

/-- `select_v` is strictly increasing. -/
theorem State.IsSelect.lt {x y p q : Nat} (hp : s.IsSelect v x p) (hq : s.IsSelect v y q) (h : x < y) : p < q := by
  rcases Nat.lt_or_ge p q with h1 | h1
  · exact h1
  · have h2 := State.rank_mono (s := s) (v := v) h1
    rw [hp.2, hq.2] at h2
    omega

/-- `select_v(x)` exists below any count that exceeds `x`. -/
theorem State.exists_isSelect {x n : Nat} (h : x < s.rank v n) : ∃ p, p < n ∧ s.IsSelect v x p := by
  induction n with
  | zero => simp at h
  | succ n ih =>
    by_cases h1 : x < s.rank v n
    · obtain ⟨p, hp, h2⟩ := ih h1
      exact ⟨p, by omega, h2⟩
    · rw [State.rank_succ] at h
      by_cases hb : s.holds v n = true
      · simp [hb] at h
        exact ⟨n, by omega, hb, by omega⟩
      · simp [hb] at h
        omega

/-! ### Counting by words -/

/-- Where the padding is 0, a one is inside the vector. -/
theorem State.holds_true_of_padding (hpad : ∀ p, s.size.toNat ≤ p → s.bit p = false) (p : Nat) : s.holds true p = s.bit p := by
  unfold State.holds
  by_cases h : p < s.size.toNat
  · simp [h]
  · simp [hpad p (by omega), h]

/-- The ones before bit `j` of word `w` (43_rank.md R231). -/
theorem State.rank_word (hpad : ∀ p, s.size.toNat ≤ p → s.bit p = false) (w : Nat) {j : Nat} (hj : j ≤ 64) :
    s.rank true (64 * w + j) = s.rank true (64 * w) + onesBelow (s.blk.read w).toNat j := by
  induction j with
  | zero => rfl
  | succ j ih =>
    have ih := ih (by omega)
    rw [← Nat.add_assoc, State.rank_succ, ih, State.holds_true_of_padding hpad, onesBelow_succ, word_testBit]
    unfold State.bit
    rw [show (64 * w + j) / 64 = w by omega, show (64 * w + j) % 64 = j by omega]
    omega

/-- Ones, or zeros where the positions past `size` count as zeros: `A_v` and `R_v` of 44_select.md R261 count these. -/
def State.paddedRank (s : State) (v : Bool) (n : Nat) : Nat := if v then s.rank true n else n - s.rank true n

theorem State.paddedRank_succ (v : Bool) (n : Nat) :
    s.paddedRank v (n + 1) = s.paddedRank v n + if s.holds true n = v then 1 else 0 := by
  have := State.rank_le (s := s) (v := true) n
  unfold State.paddedRank
  rw [State.rank_succ]
  cases v <;> cases s.holds true n <;> simp <;> omega

theorem State.paddedRank_mono {m n : Nat} (h : m ≤ n) : s.paddedRank v m ≤ s.paddedRank v n := by
  induction n with
  | zero => simp_all
  | succ n ih =>
    rcases Nat.lt_or_ge m (n + 1) with h1 | h1
    · have := ih (by omega)
      rw [State.paddedRank_succ]
      omega
    · have : m = n + 1 := by omega
      simp [this]

/-- Inside the vector the two counts agree. -/
theorem State.paddedRank_eq {n : Nat} (h : n ≤ s.size.toNat) : s.paddedRank v n = s.rank v n := by
  have := State.rank_add_rank h
  unfold State.paddedRank
  cases v <;> simp <;> omega

/-- Counting the `v`-bits of one word. -/
theorem State.paddedRank_word (hpad : ∀ p, s.size.toNat ≤ p → s.bit p = false) (v : Bool) (w : Nat) {j : Nat} (hj : j ≤ 64) :
    s.paddedRank v (64 * w + j) = s.paddedRank v (64 * w) + onesBelow (searchedWord v (s.blk.read w)).toNat j := by
  have h1 := State.rank_word hpad w hj
  have h2 := State.rank_le (s := s) (v := true) (64 * w)
  have h3 := onesBelow_complement (s.blk.read w) hj
  unfold State.paddedRank searchedWord
  cases v <;> simp only [if_true, Bool.false_eq_true, if_false] <;> omega

end Sys2Proof.Machine
end

