-- ==== Sys2Proof/Laws/RankIndex.lean ====
section
/-! SUPPORT. The laws of the RankIndex encoder and decoder (41_rankindex.md R161 to R164): what a field reads after a write, and
that the other fields do not move. -/

namespace Sys2Proof.Machine

/-- The sub-fields end where the next one begins, inside bits 58:0 (20_memory.md R73). -/
theorem rel_field_bounds {k : Nat} (h1 : 1 ≤ k) (h7 : k ≤ 7) : 0 < relWidth k ∧ relWidth k ≤ 9 ∧ relOffset k + relWidth k ≤ 59 := by
  have : k = 1 ∨ k = 2 ∨ k = 3 ∨ k = 4 ∨ k = 5 ∨ k = 6 ∨ k = 7 := by omega
  rcases this with rfl | rfl | rfl | rfl | rfl | rfl | rfl <;> simp [relWidth, relOffset]

/-- Two different sub-fields share no bit (20_memory.md R73). -/
theorem rel_fields_disjoint {k l : Nat} (hk1 : 1 ≤ k) (hk7 : k ≤ 7) (hl1 : 1 ≤ l) (hl7 : l ≤ 7) (h : k ≠ l) :
    relOffset k + relWidth k ≤ relOffset l ∨ relOffset l + relWidth l ≤ relOffset k := by
  have hk : k = 1 ∨ k = 2 ∨ k = 3 ∨ k = 4 ∨ k = 5 ∨ k = 6 ∨ k = 7 := by omega
  have hl : l = 1 ∨ l = 2 ∨ l = 3 ∨ l = 4 ∨ l = 5 ∨ l = 6 ∨ l = 7 := by omega
  rcases hk with rfl | rfl | rfl | rfl | rfl | rfl | rfl <;> rcases hl with rfl | rfl | rfl | rfl | rfl | rfl | rfl <;>
    simp_all [relWidth, relOffset]

/-- A relative count of `64K` fits its field (20_memory.md R74). -/
theorem rel_field_holds {k : Nat} (h1 : 1 ≤ k) (h7 : k ≤ 7) : 64 * k < 2 ^ relWidth k := by
  have : k = 1 ∨ k = 2 ∨ k = 3 ∨ k = 4 ∨ k = 5 ∨ k = 6 ∨ k = 7 := by omega
  rcases this with rfl | rfl | rfl | rfl | rfl | rfl | rfl <;> simp [relWidth]

/-- The decoder, bit by bit (R163). -/
theorem getRel_testBit (e : RankEntry) {k : Nat} (j : Nat) :
    (getRel e k).testBit j = (decide (j < relWidth k) && decide (j < 64) && e.rel.getLsbD (relOffset k + j)) := by
  unfold getRel
  rw [word_testBit, BitVec.getLsbD_and, mask_getLsbD, BitVec.getLsbD_ushiftRight]
  cases e.rel.getLsbD (relOffset k + j) <;> simp

theorem getRel_lt (e : RankEntry) (k : Nat) : getRel e k < 2 ^ relWidth k := by
  apply Nat.lt_pow_two_of_testBit
  intro j hj
  rw [getRel_testBit]
  simp [show ¬j < relWidth k by omega]

/-- The encoder, bit by bit (R162): the bits of the field come from `v`, every other bit stays. -/
theorem setRel_getLsbD (e : RankEntry) {k : Nat} (h1 : 1 ≤ k) (h7 : k ≤ 7) (v : Word) {j : Nat} (hj : j < 64) :
    (setRel e k v).rel.getLsbD j =
      if relOffset k ≤ j ∧ j < relOffset k + relWidth k then v.getLsbD (j - relOffset k) else e.rel.getLsbD j := by
  obtain ⟨b1, b2, b3⟩ := rel_field_bounds h1 h7
  simp only [setRel, BitVec.getLsbD_or, BitVec.getLsbD_and, BitVec.getLsbD_not, BitVec.getLsbD_shiftLeft, mask_getLsbD, hj,
    decide_true, Bool.true_and]
  by_cases hlo : j < relOffset k
  · simp [hlo, show ¬relOffset k ≤ j by omega]
  · by_cases hhi : j < relOffset k + relWidth k
    · have c1 : j - relOffset k < relWidth k := by omega
      have c2 : j - relOffset k < 64 := by omega
      simp [hlo, hhi, c1, c2, show relOffset k ≤ j by omega]
    · have c1 : ¬j - relOffset k < relWidth k := by omega
      simp [hlo, hhi, c1]

@[simp] theorem setRel_abs (e : RankEntry) (k : Nat) (v : Word) : (setRel e k v).abs = e.abs := rfl
@[simp] theorem getAbs_setRel (e : RankEntry) (k : Nat) (v : Word) : getAbs (setRel e k v) = getAbs e := rfl
@[simp] theorem setAbs_rel (e : RankEntry) (v : Word) : (setAbs e v).rel = e.rel := rfl
@[simp] theorem getRel_setAbs (e : RankEntry) (v : Word) (k : Nat) : getRel (setAbs e v) k = getRel e k := rfl

/-- R161 and R164: `abs` keeps the low 32 bits. -/
theorem getAbs_setAbs (e : RankEntry) (v : Word) : getAbs (setAbs e v) = v.toNat % 2 ^ 32 := by
  simp [getAbs, setAbs]

/-- R162 and R163: the written field reads back its low `w_K` bits. -/
theorem getRel_setRel_same (e : RankEntry) {k : Nat} (h1 : 1 ≤ k) (h7 : k ≤ 7) (v : Word) :
    getRel (setRel e k v) k = v.toNat % 2 ^ relWidth k := by
  obtain ⟨b1, b2, b3⟩ := rel_field_bounds h1 h7
  apply Nat.eq_of_testBit_eq
  intro j
  rw [getRel_testBit, Nat.testBit_mod_two_pow, word_testBit]
  by_cases hj : j < relWidth k
  · rw [setRel_getLsbD e h1 h7 v (by omega)]
    simp [hj, show j < 64 by omega]
  · simp [hj]

/-- R162: the other fields are untouched. -/
theorem getRel_setRel_other (e : RankEntry) {k l : Nat} (hk1 : 1 ≤ k) (hk7 : k ≤ 7) (hl1 : 1 ≤ l) (hl7 : l ≤ 7) (h : l ≠ k)
    (v : Word) : getRel (setRel e k v) l = getRel e l := by
  obtain ⟨b1, b2, b3⟩ := rel_field_bounds hl1 hl7
  apply Nat.eq_of_testBit_eq
  intro j
  rw [getRel_testBit, getRel_testBit]
  by_cases hj : j < relWidth l
  · rw [setRel_getLsbD e hk1 hk7 v (by omega)]
    have := rel_fields_disjoint hl1 hl7 hk1 hk7 h
    rw [if_neg (by omega)]
  · simp [hj]

/-- R162: bits 63:59 are untouched. -/
theorem setRel_unused (e : RankEntry) {k : Nat} (h1 : 1 ≤ k) (h7 : k ≤ 7) (v : Word) :
    (setRel e k v).rel.extractLsb' 59 5 = e.rel.extractLsb' 59 5 := by
  obtain ⟨b1, b2, b3⟩ := rel_field_bounds h1 h7
  apply BitVec.eq_of_getLsbD_eq
  intro j hj
  rw [BitVec.getLsbD_extractLsb', BitVec.getLsbD_extractLsb', setRel_getLsbD e h1 h7 v (by omega), if_neg (by omega)]

end Sys2Proof.Machine
end

