-- ==== Sys2Proof/Laws/RankSelect.lean ====
section
/-! SUPPORT. What the rank and select datapaths answer on a frozen vector of the invariant (43_rank.md R231, 44_select.md R264 to
R268). -/

namespace Sys2Proof.Machine

variable {s : State} {v : Bool}

/-! ### Reading the tables -/

theorem getRel_zero (e : RankEntry) : getRel e 0 = 0 := by
  simp [getRel, mask, relWidth]

theorem State.blkWord_ok {w : Nat} (h : 64 * w < s.size.toNat) : s.blkWord w = .ok (s.blk.read w) := by
  unfold State.blkWord
  rw [if_pos (State.lt_nb_iff.mpr h)]

theorem State.rtEntry_ok {g : Nat} {e : RankEntry} (h : s.rt[g]? = some e) : s.rtEntry g = .ok e := by
  simp [State.rtEntry, h]

/-- `nb` and the number of groups, as bounds on `size`. -/
theorem State.groups_le_iff {g : Nat} : ceilDiv s.nb 8 ≤ g ↔ s.size.toNat ≤ 512 * g := by
  rw [ceilDiv_le_iff (by omega)]
  unfold State.nb
  rw [ceilDiv_le_iff (by omega)]
  omega

/-- An entry exists for every group up to that of `size` (43_rank.md R230). -/
theorem State.RankTableOk.exists_entry (h : s.RankTableOk) {g : Nat} (hg : 512 * g ≤ s.size.toNat) :
    ∃ e, s.rt[g]? = some e := by
  have h1 : g < s.rt.length := by
    rw [h.length]
    have := State.groups_le_iff (s := s) (g := g - 1)
    omega
  exact ⟨s.rt[g], by simp [h1]⟩

/-- `getRel` of an entry, with the convention for sub-field 0 (41_rankindex.md R163). -/
theorem State.RankTableOk.getRel_eq (h : s.RankTableOk) {g k : Nat} {e : RankEntry} (he : s.rt[g]? = some e) (hk : k ≤ 7) :
    getRel e k = s.cnt true (512 * g) (512 * g + 64 * k) := by
  rcases Nat.eq_zero_or_pos k with rfl | h1
  · simp [getRel_zero, State.cnt]
  · exact h.rel g e he k h1 hk

/-! ### The rank unit -/

/-- The rank datapath is exact (43_rank.md R231). -/
theorem rank1At_eq (hpad : ∀ p, s.size.toNat ≤ p → s.bit p = false) (h : s.RankTableOk) {i : Nat} (hi : i ≤ s.size.toNat) :
    rank1At s i = .ok (s.rank true i) := by
  obtain ⟨e, he⟩ := h.exists_entry (g := i / 512) (by omega)
  have habs := h.abs _ e he
  have hrel := h.getRel_eq he (k := i / 64 % 8) (by omega)
  have hm := State.rank_mono (s := s) (v := true) (m := 512 * (i / 512)) (n := 512 * (i / 512) + 64 * (i / 64 % 8)) (by omega)
  have hsplit : 512 * (i / 512) + 64 * (i / 64 % 8) = 64 * (i / 64) := by omega
  have hsum : getAbs e + getRel e (i / 64 % 8) = s.rank true (64 * (i / 64)) := by
    rw [habs, hrel, State.cnt_zero_left, State.cnt, hsplit]
    rw [hsplit] at hm
    omega
  have hword := State.rank_word hpad (i / 64) (j := i % 64) (by omega)
  rw [show 64 * (i / 64) + i % 64 = i by omega] at hword
  unfold rank1At
  rw [State.rtEntry_ok he]
  simp only [bind, Except.bind, pure, Except.pure]
  rw [hsum]
  by_cases h0 : i % 64 = 0
  · rw [if_pos h0, hword, h0]
    simp [onesBelow]
  · rw [if_neg h0, State.blkWord_ok (by omega)]
    simp only
    rw [popcount_and_mask _ (by omega), hword]

/-! ### The select unit -/

/-- `A_v(g)` counts the `v`-bits before group `g`, padding as zeros (44_select.md R261). -/
theorem groupCount_eq (h : s.RankTableOk) {g : Nat} {e : RankEntry} (he : s.rt[g]? = some e) (v : Bool) :
    groupCount s v g = .ok (s.paddedRank v (512 * g)) := by
  have habs := h.abs g e he
  rw [State.cnt_zero_left] at habs
  unfold groupCount State.paddedRank
  rw [State.rtEntry_ok he]
  simp only [bind, Except.bind, pure, Except.pure]
  rw [habs]

/-- `R_v(g, j)` counts the `v`-bits in the first `j` words of group `g`, padding as zeros (44_select.md R261). -/
theorem wordCount_eq (h : s.RankTableOk) {g j : Nat} {e : RankEntry}
    (he : s.rt[g]? = some e) (hj : j ≤ 7) (v : Bool) :
    wordCount v e j = s.paddedRank v (512 * g + 64 * j) - s.paddedRank v (512 * g) := by
  have hrel := h.getRel_eq he hj
  have h1 := State.rank_le (s := s) (v := true) (512 * g)
  have h2 := State.rank_mono (s := s) (v := true) (m := 512 * g) (n := 512 * g + 64 * j) (by omega)
  unfold wordCount State.paddedRank
  rw [hrel, State.cnt]
  cases v <;> simp only [if_true, Bool.false_eq_true, if_false]
  omega

/-- Linear scan: the largest group whose count does not exceed `x` (44_select.md R264). -/
theorem linearSearch_eq {x lo g : Nat} {A : Nat → Nat} (n : Nat) (hA : ∀ k, lo ≤ k → k < lo + n → groupCount s v k = .ok (A k))
    (hlo : lo ≤ g) (hhi : g < lo + n) (hle : A g ≤ x) (hgt : ∀ k, g < k → k < lo + n → x < A k) :
    linearSearch s v x lo n = .ok g := by
  induction n with
  | zero => omega
  | succ n ih =>
    unfold linearSearch
    rw [hA (lo + n) (by omega) (by omega)]
    simp only [bind, Except.bind, pure, Except.pure]
    by_cases h : g = lo + n
    · subst h
      rw [if_pos hle]
    · have := hgt (lo + n) (by omega) (by omega)
      rw [if_neg (by omega)]
      exact ih (fun k h1 h2 => hA k h1 (by omega)) (by omega) fun k h1 h2 => hgt k h1 (by omega)

/-- Binary search: the same group, where the counts are non-decreasing (44_select.md R264, R265). -/
theorem binarySearch_eq {x g : Nat} {A : Nat → Nat} (n lo hi : Nat) (hA : ∀ k, lo ≤ k → k ≤ hi → groupCount s v k = .ok (A k))
    (hn : hi < lo + n) (hlo : lo ≤ g) (hhi : g ≤ hi) (hle : ∀ k, lo ≤ k → k ≤ g → A k ≤ x)
    (hgt : ∀ k, g < k → k ≤ hi → x < A k) : binarySearch s v x n lo hi = .ok g := by
  induction n generalizing lo hi with
  | zero => omega
  | succ n ih =>
    unfold binarySearch
    by_cases h : hi ≤ lo
    · have : lo = g := by omega
      subst this
      rw [if_pos h, hA lo (by omega) (by omega)]
      simp only [bind, Except.bind, pure, Except.pure]
      rw [if_pos (hle lo (by omega) (by omega))]
    · rw [if_neg h]
      dsimp only
      rw [hA ((lo + hi + 1) / 2) (by omega) (by omega)]
      simp only [bind, Except.bind]
      by_cases hm : A ((lo + hi + 1) / 2) ≤ x
      · have hg : (lo + hi + 1) / 2 ≤ g := by
          rcases Nat.lt_or_ge g ((lo + hi + 1) / 2) with h1 | h1
          · have := hgt _ h1 (by omega)
            omega
          · exact h1
        rw [if_pos hm]
        exact ih _ _ (fun k h1 h2 => hA k (by omega) h2) (by omega) hg hhi (fun k h1 h2 => hle k (by omega) h2)
          fun k h1 h2 => hgt k h1 h2
      · have hg : g < (lo + hi + 1) / 2 := by
          rcases Nat.lt_or_ge g ((lo + hi + 1) / 2) with h1 | h1
          · exact h1
          · exact absurd (hle _ (by omega) h1) hm
        rw [if_neg hm]
        exact ih _ _ (fun k h1 h2 => hA k h1 (by omega)) (by omega) hlo (by omega) hle
          fun k h1 h2 => hgt k h1 (by omega)

/-- Step 2: both strategies find the one group of the bracket that holds the answer (44_select.md R264, R265). -/
theorem findGroup_eq (h : s.RankTableOk) {x lo hi g : Nat} (hrange : 512 * hi ≤ s.size.toNat) (hlo : lo ≤ g) (hhi : g ≤ hi)
    (hle : s.paddedRank v (512 * g) ≤ x) (hgt : x < s.paddedRank v (512 * (g + 1))) : findGroup s v x lo hi = .ok g := by
  have hA : ∀ k, k ≤ hi → groupCount s v k = .ok (s.paddedRank v (512 * k)) := fun k hk => by
    obtain ⟨e, he⟩ := h.exists_entry (g := k) (by omega)
    exact groupCount_eq h he v
  have hgt' : ∀ k, g < k → x < s.paddedRank v (512 * k) := fun k hk => by
    have := State.paddedRank_mono (s := s) (v := v) (m := 512 * (g + 1)) (n := 512 * k) (by omega)
    omega
  unfold findGroup
  split
  · exact linearSearch_eq (A := fun k => s.paddedRank v (512 * k)) _ (fun k h1 h2 => hA k (by omega)) hlo (by omega) hle
      fun k h1 _ => hgt' k h1
  · refine binarySearch_eq (A := fun k => s.paddedRank v (512 * k)) _ _ _ (fun k h1 h2 => hA k h2) (by omega) hlo hhi
      (fun k h1 h2 => ?_) fun k h1 _ => hgt' k h1
    have := State.paddedRank_mono (s := s) (v := v) (m := 512 * k) (n := 512 * g) (by omega)
    show s.paddedRank v (512 * k) ≤ x
    omega

/-- Step 3: the largest word of the group whose count does not exceed the offset (44_select.md R266). -/
theorem findWord_eq {e : RankEntry} {off j : Nat} (n : Nat) (hj : j ≤ n) (hle : wordCount v e j ≤ off)
    (hgt : ∀ k, j < k → k ≤ n → off < wordCount v e k) : findWord v e off n = j := by
  induction n with
  | zero => simp [findWord]; omega
  | succ n ih =>
    unfold findWord
    by_cases h : j = n + 1
    · subst h
      rw [if_pos hle]
    · have := hgt (n + 1) (by omega) (by omega)
      rw [if_neg (by omega)]
      exact ih (by omega) fun k h1 h2 => hgt k h1 (by omega)

/-- Steps 3 and 4 find the answer inside its group (44_select.md R266, R267). -/
theorem selectInGroup_eq (hpad : ∀ p, s.size.toNat ≤ p → s.bit p = false) (h : s.RankTableOk) {x p : Nat}
    (hp : s.IsSelect v x p) : selectInGroup s v x (p / 512) = .ok p := by
  have hsize := State.holds_lt hp.1
  obtain ⟨e, he⟩ := h.exists_entry (g := p / 512) (by omega)
  have hx : s.paddedRank v p = x := by rw [State.paddedRank_eq (by omega)]; exact hp.2
  have hx1 : s.paddedRank v (p + 1) = x + 1 := by
    rw [State.paddedRank_eq (by omega), State.rank_succ_of_holds hp.1, hp.2]
  have hA := State.paddedRank_mono (s := s) (v := v) (m := 512 * (p / 512)) (n := p) (by omega)
  have hsplit : 512 * (p / 512) + 64 * (p / 64 % 8) = 64 * (p / 64) := by omega
  have hR : s.paddedRank v (64 * (p / 64)) ≤ s.paddedRank v p := State.paddedRank_mono (by omega)
  have hR0 : s.paddedRank v (512 * (p / 512)) ≤ s.paddedRank v (64 * (p / 64)) := State.paddedRank_mono (by omega)
  have hj : findWord v e (x - s.paddedRank v (512 * (p / 512))) 7 = p / 64 % 8 := by
    apply findWord_eq _ (by omega)
    · rw [wordCount_eq h he (by omega), hsplit]
      omega
    · intro k hk hk7
      rw [wordCount_eq h he hk7]
      have := State.paddedRank_mono (s := s) (v := v) (m := p + 1) (n := 512 * (p / 512) + 64 * k) (by omega)
      omega
  have hword := State.paddedRank_word hpad v (p / 64) (j := p % 64) (by omega)
  rw [show 64 * (p / 64) + p % 64 = p by omega] at hword
  have hbit : (searchedWord v (s.blk.read (p / 64))).getLsbD (p % 64) = true := by
    have hh := hp.1
    simp only [State.holds, Bool.and_eq_true, beq_iff_eq] at hh
    have hb : (s.blk.read (p / 64)).getLsbD (p % 64) = v := hh.2
    unfold searchedWord
    cases v <;> simp_all
    omega
  have hselw : selw (searchedWord v (s.blk.read (p / 64))) (x - s.paddedRank v (512 * (p / 512)) - wordCount v e (p / 64 % 8)) =
      .ok (p % 64) := by
    apply selw_eq (by omega) hbit
    rw [wordCount_eq h he (by omega), hsplit]
    omega
  unfold selectInGroup
  rw [groupCount_eq h he, State.rtEntry_ok he]
  simp only [bind, Except.bind, pure, Except.pure]
  rw [hj, State.blkWord_ok (by omega), show 8 * (p / 512) + p / 64 % 8 = p / 64 by omega]
  simp only
  rw [hselw]
  simp only [Except.ok.injEq]
  omega

theorem State.sample_ok {k : Nat} {p : Word32} (h : (s.samples v)[k]? = some p) : s.sample v k = .ok p.toNat := by
  simp [State.sample, h]

/-- The sample of rank `512k` and the element after it bracket every position of a rank between them (44_select.md R262). -/
theorem State.SamplesOk.after (h : s.SamplesOk v) {k x p : Nat} (hp : s.IsSelect v x p) (hx : x < 512 * (k + 1)) (hk : k < ceilDiv (s.countOf v) 512) :
    ∃ q, (s.samples v)[k + 1]? = some q ∧ p < q.toNat ∧ q.toNat ≤ s.size.toNat := by
  have hlen : k + 1 < (s.samples v).length := by
    rw [h.length]
    omega
  refine ⟨(s.samples v)[k + 1], by simp [hlen], ?_⟩
  rcases Nat.lt_or_ge (k + 1) (ceilDiv (s.countOf v) 512) with h1 | h1
  · have hq := h.sample (k + 1) (s.samples v)[k + 1] h1 (by simp [hlen])
    exact ⟨hp.lt hq hx, by have := State.holds_lt hq.1; omega⟩
  · have hs := h.sentinel
    rw [show ceilDiv (s.countOf v) 512 = k + 1 by omega] at hs
    have : (s.samples v)[k + 1] = s.size := by
      have h2 : (s.samples v)[k + 1]? = some (s.samples v)[k + 1] := by simp [hlen]
      rw [h2] at hs
      exact Option.some.inj hs
    rw [this]
    exact ⟨State.holds_lt hp.1, Nat.le_refl _⟩

/-- The select datapath is exact, with or without a sampling table (44_select.md R268). -/
theorem selectAt_eq (hpad : ∀ p, s.size.toNat ≤ p → s.bit p = false) (h : s.RankTableOk)
    (hs : if s.hasSamples v then s.SamplesOk v else s.samples v = []) {x p : Nat} (hcount : x < s.countOf v)
    (hp : s.IsSelect v x p) : selectAt s v x = .ok p := by
  have hsize := State.holds_lt hp.1
  have hA : s.paddedRank v (512 * (p / 512)) ≤ x := by
    have h1 := State.paddedRank_mono (s := s) (v := v) (m := 512 * (p / 512)) (n := p) (by omega)
    rw [State.paddedRank_eq (n := p) (by omega), hp.2] at h1
    exact h1
  have hA1 : x < s.paddedRank v (512 * (p / 512 + 1)) := by
    have h1 := State.paddedRank_mono (s := s) (v := v) (m := p + 1) (n := 512 * (p / 512 + 1)) (by omega)
    rw [State.paddedRank_eq (n := p + 1) (by omega), State.rank_succ_of_holds hp.1, hp.2] at h1
    omega
  unfold selectAt bracket
  by_cases hf : s.hasSamples v = true
  · rw [if_pos hf] at hs
    rw [if_pos hf]
    have hk : x / 512 < ceilDiv (s.countOf v) 512 := (lt_ceilDiv_iff (by omega)).mpr (by omega)
    have hlen : x / 512 < (s.samples v).length := by
      rw [hs.length]
      omega
    have ha : (s.samples v)[x / 512]? = some (s.samples v)[x / 512] := by simp [hlen]
    have hsel := hs.sample _ _ hk ha
    obtain ⟨q, hq, hpq, hqs⟩ := hs.after (k := x / 512) hp (by omega) hk
    rw [State.sample_ok ha, State.sample_ok hq]
    simp only [bind, Except.bind, pure, Except.pure]
    by_cases h0 : x % 512 = 0
    · rw [if_pos h0]
      have : s.IsSelect v x (s.samples v)[x / 512].toNat := by
        rw [show 512 * (x / 512) = x by omega] at hsel
        exact hsel
      simp only [Except.ok.injEq]
      exact this.unique hp
    · rw [if_neg h0]
      have hlt := hsel.lt hp (by omega)
      simp only
      rw [findGroup_eq h (g := p / 512) (by omega) (by omega) (by omega) hA hA1]
      exact selectInGroup_eq hpad h hp
  · rw [if_neg hf]
    simp only [bind, Except.bind, pure, Except.pure]
    have hgr := State.groups_le_iff (s := s) (g := p / 512)
    have hgr2 := State.groups_le_iff (s := s) (g := ceilDiv s.nb 8 + 1 - 2)
    have hgr3 := State.groups_le_iff (s := s) (g := 0)
    rw [findGroup_eq h (g := p / 512) (by rw [h.length]; omega) (by omega) (by rw [h.length]; omega) hA hA1]
    exact selectInGroup_eq hpad h hp

end Sys2Proof.Machine
end

