-- ==== Sys2Proof/Laws/Build.lean ====
section
/-! SUPPORT. What the build engine computes (42_bitvector.md R198 to R208): the state of its pass after each word, and the tables
it leaves. -/

namespace Sys2Proof.Machine

variable {s : State} {v : Bool}

/-! ### Counting by words, for both bit values -/

/-- A count never grows faster than the positions. -/
theorem State.rank_add_le (v : Bool) (m n : Nat) : s.rank v (m + n) ≤ s.rank v m + n := by
  induction n with
  | zero => simp
  | succ n ih =>
    rw [← Nat.add_assoc, State.rank_succ]
    split <;> omega

/-- Where a word shows exactly the `v`-bits of the vector from position `base`, it counts them. -/
theorem State.rank_of_word {w : Word} {base : Nat} (hw : ∀ j, j < 64 → w.getLsbD j = s.holds v (base + j)) {j : Nat}
    (hj : j ≤ 64) : s.rank v (base + j) = s.rank v base + onesBelow w.toNat j := by
  induction j with
  | zero => rfl
  | succ j ih =>
    rw [← Nat.add_assoc, State.rank_succ, ih (by omega), onesBelow_succ, word_testBit, hw j (by omega)]
    omega

/-- The word the engine searches for ones. -/
theorem State.holds_true_word (hpad : ∀ p, s.size.toNat ≤ p → s.bit p = false) (i j : Nat) (hj : j < 64) :
    (s.blk.read i).getLsbD j = s.holds true (64 * i + j) := by
  rw [State.holds_true_of_padding hpad]
  unfold State.bit
  rw [show (64 * i + j) / 64 = i by omega, show (64 * i + j) % 64 = j by omega]

/-- The word the engine searches for zeros: the zeros that lie inside the vector (R204). -/
theorem State.holds_false_word (i j : Nat) (hj : j < 64) :
    (~~~(s.blk.read i) &&& mask (s.bitsInWord i)).getLsbD j = s.holds false (64 * i + j) := by
  have hn : j < s.bitsInWord i ↔ 64 * i + j < s.size.toNat := by
    unfold State.bitsInWord
    omega
  rw [BitVec.getLsbD_and, mask_getLsbD, BitVec.getLsbD_not]
  unfold State.holds State.bit
  rw [show (64 * i + j) / 64 = i by omega, show (64 * i + j) % 64 = j by omega]
  by_cases h : j < s.bitsInWord i
  · simp [hj, h, hn.mp h]
  · simp [h, mt hn.mpr h]

/-- The zeros of a word inside the vector are its bits less its ones (R197: `p0 = n - p1`). -/
theorem popcount_zeros (hpad : ∀ p, s.size.toNat ≤ p → s.bit p = false) (i : Nat) :
    popcount (~~~(s.blk.read i) &&& mask (s.bitsInWord i)) = s.bitsInWord i - popcount (s.blk.read i) := by
  have hn : s.bitsInWord i ≤ 64 := by unfold State.bitsInWord; omega
  have h1 := onesBelow_complement (s.blk.read i) hn
  have h2 : popcount (s.blk.read i) = onesBelow (s.blk.read i).toNat (s.bitsInWord i) := by
    apply onesBelow_of_zero_above hn
    intro j hj hj2
    rw [word_testBit, State.holds_true_word hpad i j hj2, State.holds_true_of_padding hpad]
    apply hpad
    unfold State.bitsInWord at hj
    omega
  rw [popcount_and_mask _ hn, h2]
  omega

/-! ### Sampling -/

/-- A sample list that holds `select_v` of every multiple of 512 below the count `c` (R206). -/
structure State.SampledTo (s : State) (v : Bool) (c : Nat) (l : List Word32) : Prop where
  length : l.length = ceilDiv c 512
  sample : ∀ k p, l[k]? = some p → s.IsSelect v (512 * k) p.toNat

theorem ceilDiv_eq_of {a b n : Nat} (hb : 0 < b) (h1 : a ≤ b * n) (h2 : b * n < a + b) : ceilDiv a b = n := by
  have l1 := (ceilDiv_le_iff (a := a) (n := n) hb).mpr h1
  rcases Nat.lt_or_ge (ceilDiv a b) n with h | h
  · have h3 := (ceilDiv_le_iff (a := a) (n := n - 1) hb).mp (by omega)
    obtain ⟨m, rfl⟩ : ∃ m, n = m + 1 := ⟨n - 1, by omega⟩
    rw [Nat.mul_succ] at h2
    simp only [Nat.add_sub_cancel] at h3
    omega
  · omega

/-- One word of the sampling (R204): at most one sample, and then the list is sampled to the count after the word. -/
theorem takeSample_ok {w : Word} {i : Nat} {l : List Word32} (hw : ∀ j, j < 64 → w.getLsbD j = s.holds v (64 * i + j))
    (hl : s.SampledTo v (s.rank v (64 * i)) l) :
    ∃ l', takeSample true w (64 * i) (s.rank v (64 * i)) (popcount w) l = .ok l' ∧
      s.SampledTo v (s.rank v (64 * i) + popcount w) l' := by
  have hle := popcount_le w
  have hc1 : s.rank v (64 * i) ≤ 512 * l.length := by
    rw [hl.length, ← ceilDiv_le_iff (by omega)]
  have hc2 : 512 * l.length < s.rank v (64 * i) + 512 := by
    rcases Nat.eq_zero_or_pos l.length with h | h
    · omega
    · have := (lt_ceilDiv_iff (a := s.rank v (64 * i)) (b := 512) (n := l.length - 1) (by omega)).mp (by rw [← hl.length]; omega)
      omega
  unfold takeSample
  by_cases h : 512 * l.length < s.rank v (64 * i) + popcount w
  · obtain ⟨q, hq, hq64, hbit, hr⟩ := selw_spec (w := w) (r := 512 * l.length - s.rank v (64 * i)) (by omega)
    have hsel : s.IsSelect v (512 * l.length) (64 * i + q) := by
      refine ⟨by rw [← hw q hq64]; exact hbit, ?_⟩
      rw [State.rank_of_word hw (by omega), hr]
      omega
    have hlt := State.holds_lt hsel.1
    refine ⟨l ++ [BitVec.ofNat 32 (64 * i + q)], ?_, ?_, ?_⟩
    · simp only [h, and_self, if_true, hq, bind, Except.bind, pure, Except.pure]
    · rw [List.length_append, List.length_singleton]
      exact (ceilDiv_eq_of (by omega) (by omega) (by omega)).symm
    · intro k p hk
      rcases Nat.lt_trichotomy k l.length with h1 | h1 | h1
      · rw [List.getElem?_append_left h1] at hk
        exact hl.sample k p hk
      · subst h1
        simp at hk
        subst hk
        have hs := s.size.isLt
        rw [BitVec.toNat_ofNat, Nat.mod_eq_of_lt (by omega)]
        exact hsel
      · rw [List.getElem?_eq_none (by simp; omega)] at hk
        simp at hk
  · refine ⟨l, ?_, ?_, hl.sample⟩
    · simp only [h, and_false, if_false, pure, Except.pure]
    · exact (ceilDiv_eq_of (by omega) (by omega) (by omega)).symm

/-! ### The pass -/

/-- The engine after the first `i` words. -/
structure PassOk (s : State) (fs1 fs0 : Bool) (i : Nat) (a : BuildAcc) : Prop where
  c1 : a.c1 = s.rank true (64 * i)
  c0 : a.c0 = s.rank false (64 * i)
  length : a.rt.length = ceilDiv s.nb 8 + 1
  abs : ∀ (g : Nat) (e : RankEntry), a.rt[g]? = some e → getAbs e = if 8 * g < i then s.rank true (512 * g) else 0
  rel : ∀ (g : Nat) (e : RankEntry), a.rt[g]? = some e → ∀ k, 1 ≤ k → k ≤ 7 →
    getRel e k = if 8 * g + k < i then s.cnt true (512 * g) (512 * g + 64 * k) else 0
  unused : ∀ (g : Nat) (e : RankEntry), a.rt[g]? = some e → e.rel.extractLsb' 59 5 = 0
  l1 : if fs1 then s.SampledTo true (s.rank true (64 * i)) a.l1 else a.l1 = []
  l0 : if fs0 then s.SampledTo false (s.rank false (64 * i)) a.l0 else a.l0 = []

theorem mem_modify {rt : List RankEntry} {i : Nat} {f : RankEntry → RankEntry} {g : Nat} {e : RankEntry}
    (h : (rt.modify i f)[g]? = some e) : ∃ e0, rt[g]? = some e0 ∧ e = if i = g then f e0 else e0 := by
  rw [List.getElem?_modify] at h
  cases h0 : rt[g]? with
  | none => simp [h0] at h
  | some e0 =>
    rw [h0] at h
    refine ⟨e0, rfl, ?_⟩
    split at h <;> simp_all

/-- The count recorded at word `i` (R199, R200). -/
theorem recordCount_ok {fs1 fs0 : Bool} {i : Nat} {a : BuildAcc} (h : PassOk s fs1 fs0 i a) :
    (recordCount a.rt i a.c1).length = ceilDiv s.nb 8 + 1 ∧ ∀ (g : Nat) (e : RankEntry), (recordCount a.rt i a.c1)[g]? = some e →
      (getAbs e = if 8 * g < i + 1 then s.rank true (512 * g) else 0) ∧
      (∀ k, 1 ≤ k → k ≤ 7 → getRel e k = if 8 * g + k < i + 1 then s.cnt true (512 * g) (512 * g + 64 * k) else 0) ∧
      e.rel.extractLsb' 59 5 = 0 := by
  refine ⟨by simp [recordCount, h.length], fun g e he => ?_⟩
  obtain ⟨e0, he0, he⟩ := mem_modify he
  have habs := h.abs g e0 he0
  have hrel := h.rel g e0 he0
  have hun := h.unused g e0 he0
  by_cases hg : i / 8 = g
  · rw [if_pos hg] at he
    by_cases h8 : i % 8 = 0
    · rw [if_pos h8] at he
      subst he
      have hi : 64 * i = 512 * g := by omega
      refine ⟨?_, fun k h1 h7 => ?_, hun⟩
      · have hlt : s.rank true (512 * g) < 2 ^ 32 := by
          have h2 := State.rank_le (s := s) (v := true) s.size.toNat
          have h3 := s.size.isLt
          rcases Nat.lt_or_ge (512 * g) s.size.toNat with h4 | h4
          · have := State.rank_le (s := s) (v := true) (512 * g)
            omega
          · rw [State.rank_of_size_le h4]
            omega
        rw [getAbs_setAbs, h.c1, hi, BitVec.toNat_ofNat, Nat.mod_eq_of_lt (a := s.rank true (512 * g)) (by omega),
          Nat.mod_eq_of_lt hlt, if_pos (by omega)]
      · rw [getRel_setAbs, hrel k h1 h7, if_neg (by omega), if_neg (by omega)]
    · rw [if_neg h8] at he
      subst he
      have hj7 : i % 8 ≤ 7 := by omega
      refine ⟨?_, fun k h1 h7 => ?_, ?_⟩
      · rw [getAbs_setRel, habs, if_pos (by omega), if_pos (by omega)]
      · by_cases hk : k = i % 8
        · subst hk
          have hi : 64 * i = 512 * g + 64 * (i % 8) := by omega
          have hd := State.rank_add_le (s := s) true (512 * g) (64 * (i % 8))
          have hfit := rel_field_holds h1 h7
          have hle : getAbs e0 = s.rank true (512 * g) := by rw [habs, if_pos (by omega)]
          have h9 := (rel_field_bounds h1 h7).2.1
          have hpow : 2 ^ relWidth (i % 8) ≤ 2 ^ 9 := Nat.pow_le_pow_right (by omega) h9
          rw [getRel_setRel_same _ h1 h7, h.c1, hle, hi, BitVec.toNat_ofNat, Nat.mod_eq_of_lt (b := 2 ^ 64) (by omega),
            Nat.mod_eq_of_lt (by omega), if_pos (by omega)]
          rfl
        · rw [getRel_setRel_other _ (by omega) hj7 h1 h7 hk, hrel k h1 h7]
          by_cases hki : 8 * g + k < i
          · rw [if_pos hki, if_pos (by omega)]
          · rw [if_neg hki, if_neg (by omega)]
      · rw [setRel_unused _ (by omega) hj7, hun]
  · rw [if_neg hg] at he
    subst he
    refine ⟨?_, fun k h1 h7 => ?_, hun⟩
    · rw [habs]
      by_cases h1 : 8 * g < i
      · rw [if_pos h1, if_pos (by omega)]
      · rw [if_neg h1, if_neg (by omega)]
    · rw [hrel k h1 h7]
      by_cases h1 : 8 * g + k < i
      · rw [if_pos h1, if_pos (by omega)]
      · rw [if_neg h1, if_neg (by omega)]

/-- The pass reaches the end of the words, with the state of `PassOk` after each. -/
theorem buildPass_ok (hpad : ∀ p, s.size.toNat ≤ p → s.bit p = false) (fs1 fs0 : Bool) {i : Nat} (hi : i ≤ s.nb) :
    ∃ a, buildPass s fs1 fs0 i = .ok a ∧ PassOk s fs1 fs0 i a := by
  induction i with
  | zero =>
    refine ⟨_, rfl, ?_⟩
    have hrep : ∀ (g : Nat) (e : RankEntry), (List.replicate (ceilDiv s.nb 8 + 1) ({ abs := 0, rel := 0 } : RankEntry))[g]? = some e →
        e = { abs := 0, rel := 0 } := fun g e he => by
      rw [List.getElem?_replicate] at he
      split at he <;> simp_all
    refine ⟨rfl, rfl, by simp, fun g e he => ?_, fun g e he k h1 h7 => ?_, fun g e he => ?_, ?_, ?_⟩
    · rw [hrep g e he, if_neg (by omega)]
      rfl
    · rw [hrep g e he, if_neg (by omega)]
      simp [getRel]
    · rw [hrep g e he]
      simp
    · cases fs1
      · rfl
      · exact ⟨by simp [ceilDiv], fun k p hk => by simp at hk⟩
    · cases fs0
      · rfl
      · exact ⟨by simp [ceilDiv], fun k p hk => by simp at hk⟩
  | succ i ih =>
    obtain ⟨a, ha, hok⟩ := ih (by omega)
    have hin := State.lt_nb_iff.mp (show i < s.nb by omega)
    have hz := popcount_zeros hpad i
    have hr1 := State.rank_of_word (State.holds_true_word hpad i) (j := 64) (Nat.le_refl _)
    have hr0 := State.rank_of_word (State.holds_false_word (s := s) i) (j := 64) (Nat.le_refl _)
    rw [show 64 * i + 64 = 64 * (i + 1) by omega] at hr1 hr0
    change s.rank true (64 * (i + 1)) = s.rank true (64 * i) + popcount (s.blk.read i) at hr1
    change s.rank false (64 * (i + 1)) = s.rank false (64 * i) + popcount (~~~(s.blk.read i) &&& mask (s.bitsInWord i)) at hr0
    have ht1 : ∃ l, takeSample fs1 (s.blk.read i) (64 * i) a.c1 (popcount (s.blk.read i)) a.l1 = .ok l ∧
        if fs1 then s.SampledTo true (s.rank true (64 * (i + 1))) l else l = [] := by
      have := hok.l1
      cases fs1
      · exact ⟨a.l1, by simp [takeSample]; rfl, this⟩
      · obtain ⟨l, h1, h2⟩ := takeSample_ok (State.holds_true_word hpad i) this
        exact ⟨l, by rw [hok.c1]; exact h1, by rw [hr1]; exact h2⟩
    have ht0 : ∃ l, takeSample fs0 (~~~(s.blk.read i) &&& mask (s.bitsInWord i)) (64 * i) a.c0
          (s.bitsInWord i - popcount (s.blk.read i)) a.l0 = .ok l ∧
        if fs0 then s.SampledTo false (s.rank false (64 * (i + 1))) l else l = [] := by
      have := hok.l0
      cases fs0
      · exact ⟨a.l0, by simp [takeSample]; rfl, this⟩
      · obtain ⟨l, h1, h2⟩ := takeSample_ok (State.holds_false_word i) this
        exact ⟨l, by rw [hok.c0, ← hz]; exact h1, by rw [hr0]; exact h2⟩
    obtain ⟨l1, hl1, hs1⟩ := ht1
    obtain ⟨l0, hl0, hs0⟩ := ht0
    obtain ⟨hlen, hrc⟩ := recordCount_ok hok
    refine ⟨⟨recordCount a.rt i a.c1, a.c1 + popcount (s.blk.read i),
      a.c0 + (s.bitsInWord i - popcount (s.blk.read i)), l1, l0⟩, ?_, ?_⟩
    · unfold buildPass
      rw [ha]
      simp only [bind, Except.bind]
      unfold buildWord
      rw [State.blkWord_ok hin]
      simp only [bind, Except.bind]
      rw [hl1]
      simp only
      rw [hl0]
      rfl
    · exact ⟨by rw [hok.c1, hr1], by rw [hok.c0, hr0, hz], hlen, fun g e he => (hrc g e he).1, fun g e he => (hrc g e he).2.1,
        fun g e he => (hrc g e he).2.2, hs1, hs0⟩

/-! ### The finished tables -/

/-- Writing one value into a run of sub-fields (R201). -/
theorem backFill_fold {c : Nat} (n : Nat) : ∀ (k0 : Nat) (e : RankEntry), 1 ≤ k0 → k0 + n ≤ 8 →
    getAbs ((List.range' k0 n).foldl (fun e k => setRel e k (BitVec.ofNat 64 (c - getAbs e))) e) = getAbs e ∧
    ((List.range' k0 n).foldl (fun e k => setRel e k (BitVec.ofNat 64 (c - getAbs e))) e).rel.extractLsb' 59 5 =
      e.rel.extractLsb' 59 5 ∧
    ∀ k, 1 ≤ k → k ≤ 7 → c - getAbs e < 2 ^ 64 →
      getRel ((List.range' k0 n).foldl (fun e k => setRel e k (BitVec.ofNat 64 (c - getAbs e))) e) k =
        if k0 ≤ k ∧ k < k0 + n then (c - getAbs e) % 2 ^ relWidth k else getRel e k := by
  induction n with
  | zero =>
    intro k0 e h1 h2
    refine ⟨rfl, rfl, fun k hk1 hk7 _ => ?_⟩
    rw [if_neg (by omega)]
    rfl
  | succ n ih =>
    intro k0 e h1 h2
    obtain ⟨i1, i2, i3⟩ := ih (k0 + 1) (setRel e k0 (BitVec.ofNat 64 (c - getAbs e))) (by omega) (by omega)
    rw [List.range'_succ, List.foldl_cons]
    refine ⟨i1, by rw [i2, setRel_unused _ h1 (by omega)], fun k hk1 hk7 hc => ?_⟩
    rw [i3 k hk1 hk7 hc]
    by_cases hk : k = k0
    · subst hk
      rw [if_neg (by omega), if_pos (by omega), getRel_setRel_same _ hk1 hk7, BitVec.toNat_ofNat, Nat.mod_eq_of_lt (b := 2 ^ 64) hc]
    · by_cases hk2 : k0 + 1 ≤ k ∧ k < k0 + 1 + n
      · rw [if_pos hk2, if_pos (by omega), getAbs_setRel]
      · rw [if_neg hk2, if_neg (by omega), getRel_setRel_other _ h1 (by omega) hk1 hk7 hk]

/-- The finished rank table is that of R203, entry by entry. -/
theorem finishRankTable_ok {fs1 fs0 : Bool} {a : BuildAcc} (h : PassOk s fs1 fs0 s.nb a) :
    (finishRankTable s.nb a.c1 a.rt).length = ceilDiv s.nb 8 + 1 ∧
    ∀ (g : Nat) (e : RankEntry), (finishRankTable s.nb a.c1 a.rt)[g]? = some e →
      getAbs e = s.rank true (512 * g) ∧
      (∀ k, 1 ≤ k → k ≤ 7 → getRel e k = s.cnt true (512 * g) (512 * g + 64 * k)) ∧
      e.rel.extractLsb' 59 5 = 0 := by
  have hsz : s.size.toNat ≤ 64 * s.nb := (ceilDiv_le_iff (by omega)).mp (Nat.le_refl _)
  have hGiff : ∀ g, g < ceilDiv s.nb 8 ↔ 8 * g < s.nb := fun g => lt_ceilDiv_iff (by omega)
  have hc1 : a.c1 = s.rank true s.size.toNat := by rw [h.c1, State.rank_of_size_le hsz]
  have hc1lt : a.c1 < 2 ^ 32 := by
    have h2 := State.rank_le (s := s) (v := true) s.size.toNat
    have h3 := s.size.isLt
    omega
  refine ⟨by simp [finishRankTable, backFill]; split <;> simp [h.length], fun g e he => ?_⟩
  have hg : g < ceilDiv s.nb 8 + 1 := by
    rcases Nat.lt_or_ge g (finishRankTable s.nb a.c1 a.rt).length with h1 | h1
    · simp [finishRankTable, backFill] at h1
      split at h1 <;> simp [h.length] at h1 <;> omega
    · rw [List.getElem?_eq_none h1] at he
      simp at he
  obtain ⟨e1, he1, he⟩ := mem_modify he
  have hsent : ∀ k, ceilDiv s.nb 8 = g → s.cnt true (512 * g) (512 * g + 64 * k) = 0 := fun k hG => by
    have hle : s.size.toNat ≤ 512 * g := State.groups_le_iff.mp (by omega)
    rw [State.cnt, State.rank_of_size_le hle, State.rank_of_size_le (n := 512 * g + 64 * k) (by omega)]
    omega
  unfold backFill at he1
  by_cases h8 : s.nb % 8 = 0
  · rw [if_pos h8] at he1
    have habs := h.abs g e1 he1
    have hrel := h.rel g e1 he1
    have hun := h.unused g e1 he1
    by_cases hG : ceilDiv s.nb 8 = g
    · rw [if_pos hG] at he
      subst he
      have hle : s.size.toNat ≤ 512 * g := State.groups_le_iff.mp (by omega)
      have := hGiff g
      refine ⟨?_, fun k k1 k7 => ?_, hun⟩
      · rw [getAbs_setAbs, BitVec.toNat_ofNat, Nat.mod_eq_of_lt (a := a.c1) (by omega), Nat.mod_eq_of_lt hc1lt, hc1,
          State.rank_of_size_le hle]
      · rw [getRel_setAbs, hrel k k1 k7, if_neg (by omega), hsent k hG]
    · rw [if_neg hG] at he
      subst he
      have := (hGiff g).mp (by omega)
      refine ⟨by rw [habs, if_pos this], fun k k1 k7 => ?_, hun⟩
      rw [hrel k k1 k7, if_pos (by omega)]
  · rw [if_neg h8] at he1
    obtain ⟨e0, he0, he1⟩ := mem_modify he1
    have habs := h.abs g e0 he0
    have hrel := h.rel g e0 he0
    have hun := h.unused g e0 he0
    by_cases hG : ceilDiv s.nb 8 = g
    · have hne : (s.nb - 1) / 8 ≠ g := by
        have := hGiff g
        omega
      rw [if_neg hne] at he1
      rw [if_pos hG] at he
      subst he1
      subst he
      have hle : s.size.toNat ≤ 512 * g := State.groups_le_iff.mp (by omega)
      have := hGiff g
      refine ⟨?_, fun k k1 k7 => ?_, hun⟩
      · rw [getAbs_setAbs, BitVec.toNat_ofNat, Nat.mod_eq_of_lt (a := a.c1) (by omega), Nat.mod_eq_of_lt hc1lt, hc1,
          State.rank_of_size_le hle]
      · rw [getRel_setAbs, hrel k k1 k7, if_neg (by omega), hsent k hG]
    · rw [if_neg hG] at he
      subst he
      have hlt := (hGiff g).mp (by omega)
      rw [if_pos hlt] at habs
      by_cases hlast : (s.nb - 1) / 8 = g
      · rw [if_pos hlast] at he1
        obtain ⟨b1, b2, b3⟩ := backFill_fold (c := a.c1) (7 - (s.nb - 1) % 8) ((s.nb - 1) % 8 + 1) e0 (by omega) (by omega)
        subst he1
        refine ⟨by rw [b1, habs], fun k k1 k7 => ?_, by rw [b2, hun]⟩
        rw [b3 k k1 k7 (by omega)]
        by_cases hk : 8 * g + k < s.nb
        · rw [if_neg (by omega), hrel k k1 k7, if_pos hk]
        · have hd := State.rank_add_le (s := s) true (512 * g) (64 * k)
          have hfit := rel_field_holds k1 k7
          have hend : s.rank true (512 * g + 64 * k) = a.c1 := by
            rw [hc1, State.rank_of_size_le]
            omega
          rw [if_pos (by omega), habs, ← hend, Nat.mod_eq_of_lt (by omega)]
          rfl
      · rw [if_neg hlast] at he1
        subst he1
        refine ⟨habs, fun k k1 k7 => ?_, hun⟩
        rw [hrel k k1 k7, if_pos (by omega)]

/-- A sample list closed with `size` is the sampling table of R206. -/
theorem State.SampledTo.close {l : List Word32} {c : Nat} (h : s.SampledTo v c l) :
    (l ++ [s.size]).length = ceilDiv c 512 + 1 ∧
    (∀ k p, k < ceilDiv c 512 → (l ++ [s.size])[k]? = some p → s.IsSelect v (512 * k) p.toNat) ∧
    (l ++ [s.size])[ceilDiv c 512]? = some s.size := by
  refine ⟨by simp [h.length], fun k p hk hp => ?_, ?_⟩
  · rw [List.getElem?_append_left (by rw [h.length]; exact hk)] at hp
    exact h.sample k p hp
  · rw [← h.length]
    simp

end Sys2Proof.Machine
end

