-- ==== Sys2Proof/Laws/Congr.lean ====
section
/-! SUPPORT. The datapaths depend on the bit-vector state alone: one lemma per datapath, for states with one bit vector. -/

namespace Sys2Proof.Machine

variable {s t : State}

theorem State.SameVector.nb (h : s.SameVector t) : s.nb = t.nb := by unfold State.nb; rw [h.1]

theorem State.SameVector.blkWord (h : s.SameVector t) (w : Nat) : s.blkWord w = t.blkWord w := by
  obtain ⟨hsize, -, -, -, -, hblk, -⟩ := h
  unfold State.blkWord State.nb
  rw [hsize, hblk]

theorem State.SameVector.rtEntry (h : s.SameVector t) (g : Nat) : s.rtEntry g = t.rtEntry g := by
  obtain ⟨-, -, -, -, -, -, hrt, -⟩ := h
  unfold State.rtEntry
  rw [hrt]

theorem State.SameVector.samples (h : s.SameVector t) (v : Bool) : s.samples v = t.samples v := by
  obtain ⟨-, -, -, -, -, -, -, hs1, hs0⟩ := h
  unfold State.samples
  rw [hs1, hs0]

theorem State.SameVector.hasSamples (h : s.SameVector t) (v : Bool) : s.hasSamples v = t.hasSamples v := by
  obtain ⟨-, -, -, hfs1, hfs0, -⟩ := h
  unfold State.hasSamples
  rw [hfs1, hfs0]

theorem State.SameVector.sample (h : s.SameVector t) (v : Bool) (k : Nat) : s.sample v k = t.sample v k := by
  unfold State.sample
  rw [h.samples]

theorem State.SameVector.countOf (h : s.SameVector t) (v : Bool) : s.countOf v = t.countOf v := by
  obtain ⟨hsize, hones, -⟩ := h
  unfold State.countOf
  rw [hsize, hones]

theorem State.SameVector.rank1At (h : s.SameVector t) (i : Nat) : rank1At s i = rank1At t i := by
  unfold Machine.rank1At
  rw [h.rtEntry, h.blkWord]

theorem State.SameVector.groupCount (h : s.SameVector t) (v : Bool) (g : Nat) : groupCount s v g = groupCount t v g := by
  unfold Machine.groupCount
  rw [h.rtEntry]

theorem State.SameVector.bracket (h : s.SameVector t) (v : Bool) (x : Nat) : bracket s v x = bracket t v x := by
  unfold Machine.bracket
  obtain ⟨-, -, -, -, -, -, hrt, -⟩ := id h
  rw [h.hasSamples, h.sample, h.sample, hrt]

theorem State.SameVector.linearSearch (h : s.SameVector t) (v : Bool) (x lo n : Nat) :
    linearSearch s v x lo n = linearSearch t v x lo n := by
  induction n with
  | zero => rfl
  | succ n ih => simp only [Machine.linearSearch, h.groupCount, ih]

theorem State.SameVector.binarySearch (h : s.SameVector t) (v : Bool) (x n : Nat) :
    ∀ lo hi, binarySearch s v x n lo hi = binarySearch t v x n lo hi := by
  induction n with
  | zero => exact fun _ _ => rfl
  | succ n ih => exact fun lo hi => by simp only [Machine.binarySearch, h.groupCount, ih]

theorem State.SameVector.findGroup (h : s.SameVector t) (v : Bool) (x lo hi : Nat) : findGroup s v x lo hi = findGroup t v x lo hi := by
  unfold Machine.findGroup
  rw [h.linearSearch, h.binarySearch]

theorem State.SameVector.selectInGroup (h : s.SameVector t) (v : Bool) (x g : Nat) :
    selectInGroup s v x g = selectInGroup t v x g := by
  simp only [Machine.selectInGroup, h.groupCount, h.rtEntry, h.blkWord]

theorem State.SameVector.selectAt (h : s.SameVector t) (v : Bool) (x : Nat) : selectAt s v x = selectAt t v x := by
  simp only [Machine.selectAt, h.bracket, h.findGroup, h.selectInGroup]

theorem State.SameVector.buildPass (h : s.SameVector t) (fs1 fs0 : Bool) (i : Nat) : buildPass s fs1 fs0 i = buildPass t fs1 fs0 i := by
  have hbits : ∀ w, s.bitsInWord w = t.bitsInWord w := fun w => by unfold State.bitsInWord; rw [h.1]
  induction i with
  | zero => simp only [Machine.buildPass, h.nb]
  | succ i ih => simp only [Machine.buildPass, ih, buildWord, h.blkWord, hbits]

end Sys2Proof.Machine
end

