-- ==== Sys2Proof/Laws/Exec.lean ====
section
/-! SUPPORT. What a command, the engine and a step can do, said once. -/

namespace Sys2Proof.Machine

/-- How a command `i` can end in a next state `t` (60_exceptions.md R292, R293, R295). -/
inductive Ends (i : Instr) (s t : State) : Prop where
  /-- a fault: only STATUS changes -/
  | raised (c : ErrCode) (h : t = s.raiseFault c)
  /-- NotFound -/
  | notFound (hi : i = .selw ∨ i = .select0 ∨ i = .select1) (h : t = s.notFound)
  /-- a result in RES and nothing else -/
  | result (v : Word) (h : t = s.completeWith v)
  /-- a write of RIX and nothing else -/
  | rix (hi : i = .riClr ∨ i = .riSetabs ∨ (∃ k, i = .riSetrel k) ∨ i = .riLoad ∨ i = .riSetpack) (e : RankEntry)
      (h : t = { s.complete with rix := e })
  /-- BV_CLEAR -/
  | cleared (hi : i = .bvClear)
      (h : t = { s.complete with size := 0, ones := 0, frozen := false, fs1 := false, fs0 := false, blk := [], rt := [], s1 := [], s0 := [] })
  /-- a write of the bit store in the build phase -/
  | stored (hi : (∃ v, i = .bvSet v) ∨ (∃ v, i = .bvPush v) ∨ i = .bvWrword) (hf : s.frozen = false) (n : Word32) (m : BlockMem)
      (h : t = { s.complete with size := n, blk := m })
  /-- BV_BUILD in the build phase -/
  | built (fs1 fs0 : Bool) (hi : i = .bvBuild fs1 fs0) (hf : s.frozen = false) (a : BuildAcc) (ha : buildPass s fs1 fs0 s.nb = .ok a)
      (h : t = { s.complete with rt := finishRankTable s.nb a.c1 a.rt, ones := BitVec.ofNat 32 a.c1, s1 := (if fs1 then a.l1 ++ [s.size] else []), s0 := (if fs0 then a.l0 ++ [s.size] else []), fs1 := fs1, fs0 := fs0, frozen := true })

theorem ends_of_finish {i : Instr} {s t : State} {r : Except Fault Nat} (h : s.finish r = .next t) : Ends i s t := by
  obtain ⟨n, -, hn⟩ := State.finish_eq_next h
  exact .result _ hn

theorem ends_of_next_raise {i : Instr} {s t : State} {c : ErrCode} (h : (Host.Outcome.next (s.raiseFault c) : Result) = .next t) :
    Ends i s t := .raised c (Host.Outcome.next.inj h).symm

/-- SELECT1 and SELECT0 raise NOT_BUILT, find nothing, or answer with a result. -/
theorem ends_of_selectBody {i : Instr} {v : Bool} {s t : State} (hi : i = .select0 ∨ i = .select1)
    (h : selectBody v s = .next t) : Ends i s t := by
  unfold selectBody at h
  split at h
  · exact ends_of_next_raise h
  · split at h
    · exact .notFound (by tauto) (Host.Outcome.next.inj h).symm
    · exact ends_of_finish h

/-- A command that answers a next state ends in one of these ways. -/
theorem exec_ends {i : Instr} {s t : State} (h : exec i s = .next t) : Ends i s t := by
  cases i with
  | popcnt => exact .result _ (Host.Outcome.next.inj h).symm
  | selw =>
    simp only [exec, execSelw] at h
    split at h
    · exact .notFound (by simp) (Host.Outcome.next.inj h).symm
    · exact ends_of_finish h
  | riClr => exact .rix (by simp) _ (Host.Outcome.next.inj h).symm
  | riSetabs => exact .rix (by simp) _ (Host.Outcome.next.inj h).symm
  | riSetrel k =>
    simp only [exec, execRiSetrel] at h
    split at h
    · exact ends_of_next_raise h
    · exact .rix (by simp) _ (Host.Outcome.next.inj h).symm
  | riGetabs => exact .result _ (Host.Outcome.next.inj h).symm
  | riGetrel k =>
    simp only [exec, execRiGetrel] at h
    split at h
    · exact ends_of_next_raise h
    · exact .result _ (Host.Outcome.next.inj h).symm
  | riLoad =>
    simp only [exec, execRiLoad] at h
    split at h
    · exact ends_of_next_raise h
    · split at h
      · exact ends_of_next_raise h
      · split at h
        · exact .rix (by simp) _ (Host.Outcome.next.inj h).symm
        · simp at h
  | riGetpack => exact .result _ (Host.Outcome.next.inj h).symm
  | riSetpack => exact .rix (by simp) _ (Host.Outcome.next.inj h).symm
  | bvClear => exact .cleared rfl (Host.Outcome.next.inj h).symm
  | bvSet v =>
    have h := (Host.Outcome.next.inj h).symm
    split at h
    · exact .raised _ h
    · rename_i hf
      split at h
      · exact .raised _ h
      · split at h
        · exact .stored (by simp) (by simpa using hf) _ _ (h.trans rfl)
        · exact .stored (by simp) (by simpa using hf) _ _ (h.trans rfl)
  | bvPush v =>
    have h := (Host.Outcome.next.inj h).symm
    split at h
    · exact .raised _ h
    · rename_i hf
      split at h
      · exact .raised _ h
      · exact .stored (by simp) (by simpa using hf) _ _ (h.trans rfl)
  | bvGet =>
    simp only [exec, execBvGet] at h
    split at h
    · exact ends_of_next_raise h
    · exact ends_of_finish h
  | bvWrword =>
    simp only [exec, execBvWrword] at h
    split at h
    · exact ends_of_next_raise h
    · rename_i hf
      split at h
      · exact ends_of_next_raise h
      · exact .stored (by simp) (by simpa using hf) _ _ ((Host.Outcome.next.inj h).symm.trans rfl)
  | bvRdword =>
    simp only [exec, execBvRdword] at h
    split at h
    · exact ends_of_next_raise h
    · split at h
      · exact .result _ (Host.Outcome.next.inj h).symm
      · simp at h
  | bvBuild fs1 fs0 =>
    simp only [exec, execBvBuild] at h
    split at h
    · exact ends_of_next_raise h
    · rename_i hf
      split at h
      · rename_i a ha
        exact .built fs1 fs0 rfl (by simpa using hf) a ha (Host.Outcome.next.inj h).symm
      · simp at h
  | rank0 =>
    simp only [exec, execRank0] at h
    split at h
    · exact ends_of_next_raise h
    · split at h
      · exact ends_of_next_raise h
      · exact ends_of_finish h
  | rank1 =>
    simp only [exec, execRank1] at h
    split at h
    · exact ends_of_next_raise h
    · split at h
      · exact ends_of_next_raise h
      · exact ends_of_finish h
  | count0 =>
    simp only [exec, execCount0] at h
    split at h
    · exact ends_of_next_raise h
    · exact .result _ (Host.Outcome.next.inj h).symm
  | count1 =>
    simp only [exec, execCount1] at h
    split at h
    · exact ends_of_next_raise h
    · exact .result _ (Host.Outcome.next.inj h).symm
  | rtLen =>
    simp only [exec, execRtLen] at h
    split at h
    · exact ends_of_next_raise h
    · exact .result _ (Host.Outcome.next.inj h).symm
  | select0 => exact ends_of_selectBody (by simp) h
  | select1 => exact ends_of_selectBody (by simp) h
  | smpLen v =>
    simp only [exec, execSmpLen] at h
    split at h
    · exact ends_of_next_raise h
    · exact .result _ (Host.Outcome.next.inj h).symm
  | smpRead v =>
    simp only [exec, execSmpRead] at h
    split at h
    · exact ends_of_next_raise h
    · split at h
      · exact ends_of_next_raise h
      · exact ends_of_finish h

/-- A host address in the window is its offset from REG_BASE. -/
theorem windowOffset_base {off : Nat} (h : off < 256) : windowOffset (Config.regBase + off) = some off := by
  unfold windowOffset
  rw [if_pos (by omega)]
  congr 1
  omega

/-- What the engine's turn can do: nothing when idle, a fault for an illegal word, and otherwise the decoded command. -/
theorem engineTurn_cases {s t : State} (h : s.engineTurn = .next t) :
    (s.running = none ∧ t = s) ∨
    (∃ l e, s.running = some l ∧ decode l.cmd = .error e ∧ t = s.raiseFault .illegalCommand) ∨
    (∃ l i, s.running = some l ∧ decode l.cmd = .ok i ∧ exec i s = .next t) := by
  unfold State.engineTurn at h
  split at h
  · exact .inl ⟨by assumption, (Host.Outcome.next.inj h).symm⟩
  · rename_i l hl
    split at h
    · rename_i i hi
      exact .inr (.inr ⟨l, i, hl, hi, h⟩)
    · rename_i e he
      exact .inr (.inl ⟨l, e, hl, he, (Host.Outcome.next.inj h).symm⟩)

/-- What a step can do: the engine's turn, or one host access or reset taken off the agenda. -/
theorem step_cases {s t : State} (h : step s = .next t) :
    (s.agenda = [] ∧ s.engineTurn = .next t) ∨
    (∃ rest, s.agenda = .engine :: rest ∧ State.engineTurn { s with agenda := rest } = .next t) ∨
    (∃ a w rest, s.agenda = .read a w :: rest ∧ t = State.busRead { s with agenda := rest } a w) ∨
    (∃ a w d rest, s.agenda = .write a w d :: rest ∧ t = State.busWrite { s with agenda := rest } a w d) ∨
    (∃ rest, s.agenda = .reset :: rest ∧ t = State.resetInput { s with agenda := rest }) := by
  unfold step State.nextEvent at h
  split at h
  · exact .inl ⟨by assumption, h⟩
  · rename_i e rest ha
    cases e with
    | engine => exact .inr (.inl ⟨rest, ha, h⟩)
    | read a w => exact .inr (.inr (.inl ⟨a, w, rest, ha, (Host.Outcome.next.inj h).symm⟩))
    | write a w d => exact .inr (.inr (.inr (.inl ⟨a, w, d, rest, ha, (Host.Outcome.next.inj h).symm⟩)))
    | reset => exact .inr (.inr (.inr (.inr ⟨rest, ha, (Host.Outcome.next.inj h).symm⟩)))

/-- The invariant sees the vector, its capacity and the fault fields only. -/
theorem State.Inv.congr {s t : State} (h : s.Inv) (hsize : t.size = s.size) (hones : t.ones = s.ones) (hfrozen : t.frozen = s.frozen)
    (hfs1 : t.fs1 = s.fs1) (hfs0 : t.fs0 = s.fs0) (hblk : t.blk = s.blk) (hrt : t.rt = s.rt) (hs1 : t.s1 = s.s1) (hs0 : t.s0 = s.s0)
    (hmax : t.maxBits = s.maxBits) (hcodes : t.errCode.toNat ≤ 5 ∧ (t.err = true ↔ t.errCode ≠ 0))
    (hfound : ¬(t.found = true ∧ t.err = true)) : t.Inv := by
  have hbit : ∀ p, t.bit p = s.bit p := fun p => by unfold State.bit; rw [hblk]
  have hrank : ∀ v n, t.rank v n = s.rank v n := fun v n => State.rank_congr hsize hblk v n
  have hcnt : ∀ v a b, t.cnt v a b = s.cnt v a b := fun v a b => by unfold State.cnt; rw [hrank, hrank]
  have hsel : ∀ v x p, t.IsSelect v x p ↔ s.IsSelect v x p := fun v x p => by
    unfold State.IsSelect State.holds
    rw [hrank, hsize, hbit]
  have hcount : ∀ v, t.countOf v = s.countOf v := fun v => by unfold State.countOf; rw [hones, hsize]
  have hsamples : ∀ v, t.samples v = s.samples v := fun v => by unfold State.samples; rw [hs1, hs0]
  have hhas : ∀ v, t.hasSamples v = s.hasSamples v := fun v => by unfold State.hasSamples; rw [hfs1, hfs0]
  have hnb : t.nb = s.nb := by unfold State.nb; rw [hsize]
  refine ⟨hmax ▸ h.capacity, by rw [hsize, hmax]; exact h.sizeLe, hblk ▸ h.blkWf, fun p hp => ?_, fun hf => ?_, fun hf => ?_,
    fun hf => ?_, fun hf v => ?_, hcodes, hfound⟩
  · rw [hbit]
    exact h.padding p (by rw [← hsize]; exact hp)
  · rw [hones, hfs1, hfs0, hrt, hs1, hs0]
    exact h.building (by rw [← hfrozen]; exact hf)
  · rw [hones, hrank, hsize]
    exact h.onesOk (by rw [← hfrozen]; exact hf)
  · have hr := h.rankTable (by rw [← hfrozen]; exact hf)
    refine ⟨by rw [hrt, hnb]; exact hr.length, fun g e he => ?_, fun g e he k h1 h7 => ?_, fun g e he => ?_⟩
    · rw [hcnt]
      exact hr.abs g e (by rw [← hrt]; exact he)
    · rw [hcnt]
      exact hr.rel g e (by rw [← hrt]; exact he) k h1 h7
    · exact hr.unused g e (by rw [← hrt]; exact he)
  · have hs := h.sampling (by rw [← hfrozen]; exact hf) v
    rw [hhas, hsamples]
    split
    · rename_i hv
      rw [if_pos hv] at hs
      refine ⟨by rw [hsamples, hcount]; exact hs.length, fun k p hk hp => ?_, by rw [hsamples, hcount, hsize]; exact hs.sentinel⟩
      rw [hcount] at hk
      rw [hsamples] at hp
      exact (hsel v _ _).mpr (hs.sample k p hk hp)
    · rename_i hv
      rw [if_neg hv] at hs
      exact hs

end Sys2Proof.Machine
end

