-- ==== Sys2Proof/Laws/Ops.lean ====
section
/-! SUPPORT. What the writes of the bit store do to each bit of the vector (42_bitvector.md R191 to R195). -/

namespace Sys2Proof.Machine

variable {s : State}

theorem one_shift_getLsbD {k j : Nat} (hj : j < 64) : (1#64 <<< k).getLsbD j = decide (j = k) := by
  rw [BitVec.getLsbD_shiftLeft]
  by_cases h : j < k
  · simp [h, show j ≠ k by omega]
  · by_cases hk : j = k
    · simp [hk, show k < 64 by omega]
    · simp [hk, h, show ¬j - k = 0 by omega]

theorem bool_shift_getLsbD {k j : Nat} {v : Bool} (hj : j < 64) :
    ((BitVec.ofBool v).setWidth 64 <<< k).getLsbD j = (decide (j = k) && v) := by
  cases v
  · have : (BitVec.ofBool false).setWidth 64 = 0#64 := rfl
    rw [this]
    simp
  · have : (BitVec.ofBool true).setWidth 64 = 1#64 := rfl
    rw [this, one_shift_getLsbD hj]
    simp

/-- Writing a word is seen at its 64 positions and nowhere else. -/
theorem State.bit_writeBlk (w : Nat) (x : Word) (p : Nat) :
    (s.writeBlk w x).bit p = if p / 64 = w then x.getLsbD (p % 64) else s.bit p := by
  unfold State.bit
  rw [State.writeBlk_blk, BlockMem.read_write]
  by_cases h : p / 64 = w
  · simp [h]
  · simp [h, Ne.symm h]

/-- Growth leaves the existing words alone and makes every other position read 0 (R192). -/
theorem State.bit_grow (n p : Nat) : (s.grow n).bit p = (decide (p / 64 < s.nb) && s.bit p) := by
  unfold State.bit
  rw [State.grow_blk, BlockMem.read_keepBelow]
  by_cases h : p / 64 < s.nb <;> simp [h]

/-- Writing a bit is seen at its position and nowhere else (R191). -/
theorem State.bit_writeBit (i : Nat) (v : Bool) (p : Nat) :
    (s.writeBit i v).bit p = if p = i then v else s.bit p := by
  unfold State.writeBit
  simp only
  rw [State.bit_writeBlk]
  have hj : p % 64 < 64 := by omega
  by_cases h : p / 64 = i / 64
  · rw [if_pos h, BitVec.getLsbD_or, BitVec.getLsbD_and, BitVec.getLsbD_not, one_shift_getLsbD hj, bool_shift_getLsbD hj, ← h]
    by_cases hp : p = i
    · subst hp
      simp
    · have : p % 64 ≠ i % 64 := by omega
      rw [if_neg hp]
      simp [this, hj, State.bit]
  · rw [if_neg h, if_neg (by intro hp; exact h (by rw [hp]))]

/-- A word exists where a bit of the vector does. -/
theorem State.word_lt_nb {p : Nat} (h : p < s.size.toNat) : p / 64 < s.nb := by
  rw [State.lt_nb_iff]
  omega

/-- Where the padding is 0, growth changes no bit (R192). -/
theorem State.bit_grow_of_padding (hpad : ∀ p, s.size.toNat ≤ p → s.bit p = false) (n p : Nat) : (s.grow n).bit p = s.bit p := by
  rw [State.bit_grow]
  by_cases h : p < s.size.toNat
  · simp [State.word_lt_nb h]
  · simp [hpad p (by omega)]

@[simp] theorem State.writeBit_size (i : Nat) (v : Bool) : (s.writeBit i v).size = s.size := rfl

end Sys2Proof.Machine
end

