-- ==== Sys2Proof/Laws/PerInstr.lean ====
section
/-! SUPPORT. Facts about each command as syntax, one lemma per constructor. -/

namespace Sys2Proof.Laws.EncodeFields

/-- The encoder puts the opcode in bits 7:0 and the fields in bits 31:8 (30_encoding.md R111). -/
def Statement (i : Instr) : Prop := opcField (encode i) = opcodeOf i ∧ hiField (encode i) = fieldsOf i

/-- The two halves of a word come apart as they were put together. -/
theorem halves (hi : BitVec 24) (opc : BitVec 8) : opcField (hi ++ opc) = opc ∧ hiField (hi ++ opc) = hi := by
  constructor
  · apply BitVec.eq_of_getLsbD_eq
    intro j hj
    have h := BitVec.getLsbD_append (x := hi) (y := opc) (i := j)
    simp only [hj, if_true] at h
    simp only [opcField, BitVec.getLsbD_extractLsb', hj, decide_true, Bool.true_and, Nat.zero_add]
    exact h
  · apply BitVec.eq_of_getLsbD_eq
    intro j hj
    have h := BitVec.getLsbD_append (x := hi) (y := opc) (i := 8 + j)
    simp only [show ¬8 + j < 8 by omega, if_false, Nat.add_sub_cancel_left] at h
    simp only [hiField, BitVec.getLsbD_extractLsb', hj, decide_true, Bool.true_and]
    exact h

theorem popcnt : Statement (.popcnt) := halves _ _
theorem selw : Statement (.selw) := halves _ _
theorem riClr : Statement (.riClr) := halves _ _
theorem riSetabs : Statement (.riSetabs) := halves _ _
theorem riSetrel (k : BitVec 3) : Statement (.riSetrel k) := halves _ _
theorem riGetabs : Statement (.riGetabs) := halves _ _
theorem riGetrel (k : BitVec 3) : Statement (.riGetrel k) := halves _ _
theorem riLoad : Statement (.riLoad) := halves _ _
theorem riGetpack : Statement (.riGetpack) := halves _ _
theorem riSetpack : Statement (.riSetpack) := halves _ _
theorem bvClear : Statement (.bvClear) := halves _ _
theorem bvSet (v : Bool) : Statement (.bvSet v) := halves _ _
theorem bvPush (v : Bool) : Statement (.bvPush v) := halves _ _
theorem bvGet : Statement (.bvGet) := halves _ _
theorem bvWrword : Statement (.bvWrword) := halves _ _
theorem bvRdword : Statement (.bvRdword) := halves _ _
theorem bvBuild (fs1 fs0 : Bool) : Statement (.bvBuild fs1 fs0) := halves _ _
theorem rank0 : Statement (.rank0) := halves _ _
theorem rank1 : Statement (.rank1) := halves _ _
theorem count0 : Statement (.count0) := halves _ _
theorem count1 : Statement (.count1) := halves _ _
theorem rtLen : Statement (.rtLen) := halves _ _
theorem select0 : Statement (.select0) := halves _ _
theorem select1 : Statement (.select1) := halves _ _
theorem smpLen (v : Bool) : Statement (.smpLen v) := halves _ _
theorem smpRead (v : Bool) : Statement (.smpRead v) := halves _ _

end Sys2Proof.Laws.EncodeFields
end

