-- ==== Sys2Proof/Tests/Slice0.lean ====
section
/-! SUPPORT. Tests of the model on the spec's own examples and vectors (each names its rule or its table), and, for every statement
with hypotheses, a witness that meets them. -/

namespace Sys2Proof.Tests

open Sys2Proof.Machine

/-! ### States -/

/-- The state after reset, with MAX_BITS = 100 as in program P3. -/
def fresh : State := { State.reset with maxBits := 100 }

/-- The state after reset, with room for the larger examples. -/
def roomy : State := { State.reset with maxBits := 10000 }

/-- A build-phase vector of 70 bits with a one at 69: the bits of V-BV7. -/
def part : State := { fresh with size := 70, blk := [(1, 0x20)] }

/-- A build-phase vector of 100 bits with a one at 99: MAX_BITS reached, as in P3 before its BV_BUILD. -/
def full : State := { fresh with size := 100, blk := [(1, 0x0000000800000000)] }

/-- `full` after BV_BUILD 1, 0: the tables as program P3 prints them. -/
def built : State :=
  { full with
    ones := 1, frozen := true, fs1 := true, rt := [{ abs := 0, rel := 0x0004020100808080 }, { abs := 1, rel := 0 }], s1 := [99, 100] }

/-- A frozen vector of 5120 zeros without sampling tables: ten groups and the sentinel. -/
def blank : State := { roomy with size := 5120, frozen := true, rt := List.replicate 11 { abs := 0, rel := 0 } }

/-- A state while a command runs. -/
def State.busyWith (s : State) (c : Word32) (a : Word := 0) (b : Word := 0) : State :=
  { s with running := some { cmd := c, arg0 := a, arg1 := b } }

/-- The state a command leaves; the state before it where the model stops. -/
def runOn (s : State) (i : Instr) (a : Word := 0) (b : Word := 0) : State :=
  match exec i (State.busyWith s (encode i) a b) with
  | .next t => t
  | .fault _ => s
  | .refused _ => s

/-- RES and STATUS. -/
def shown (s : State) : Nat × Nat := (s.res.toNat, s.statusWord.toNat)

/-! ### Well-formedness and decoding -/

/-- R115 (c): K = 0 is refused, by the check and by the decoder. -/
theorem test_wellFormed_refuses :
    (Instr.riSetrel 0).wellFormed = false ∧ (Instr.riGetrel 0).wellFormed = false ∧ (Instr.riSetrel 1).wellFormed = true ∧
    decode 0x00000012 = .error .zeroSubfield ∧ decode 0x00000014 = .error .zeroSubfield := by decide

/-- 30_encoding.md R113, OPC 0x01 to 0x17; K is bits 10:8. -/
theorem test_decode_popcount_rankindex :
    decode 0x00000001 = .ok .popcnt ∧ decode 0x00000002 = .ok .selw ∧ decode 0x00000010 = .ok .riClr ∧
    decode 0x00000011 = .ok .riSetabs ∧ decode 0x00000612 = .ok (.riSetrel 6) ∧ decode 0x00000013 = .ok .riGetabs ∧
    decode 0x00000114 = .ok (.riGetrel 1) ∧ decode 0x00000015 = .ok .riLoad ∧ decode 0x00000016 = .ok .riGetpack ∧
    decode 0x00000017 = .ok .riSetpack := by decide

/-- 30_encoding.md R113, OPC 0x20 to 0x26; V and FS1 are bit 8, FS0 is bit 9. -/
theorem test_decode_bitvector :
    decode 0x00000020 = .ok .bvClear ∧ decode 0x00000121 = .ok (.bvSet true) ∧ decode 0x00000022 = .ok (.bvPush false) ∧
    decode 0x00000023 = .ok .bvGet ∧ decode 0x00000024 = .ok .bvWrword ∧ decode 0x00000025 = .ok .bvRdword ∧
    decode 0x00000126 = .ok (.bvBuild true false) ∧ decode 0x00000226 = .ok (.bvBuild false true) := by decide

/-- 30_encoding.md R113, OPC 0x30 to 0x42; V is bit 8. -/
theorem test_decode_rank_select :
    decode 0x00000030 = .ok .rank0 ∧ decode 0x00000130 = .ok .rank1 ∧ decode 0x00000031 = .ok .count0 ∧
    decode 0x00000131 = .ok .count1 ∧ decode 0x00000032 = .ok .rtLen ∧ decode 0x00000040 = .ok .select0 ∧
    decode 0x00000140 = .ok .select1 ∧ decode 0x00000141 = .ok (.smpLen true) ∧ decode 0x00000042 = .ok (.smpRead false) := by decide

/-- Words written bit by bit from R111: SELW; RI_GETREL 5; BV_PUSH 1; BV_BUILD with FS0 only; COUNT1; SMP_READ 1. -/
theorem test_decode_bits :
    decode 0b00000000000000000000000000000010#32 = .ok .selw ∧
    decode 0b00000000000000000000010100010100#32 = .ok (.riGetrel 5) ∧
    decode 0b00000000000000000000000100100010#32 = .ok (.bvPush true) ∧
    decode 0b00000000000000000000001000100110#32 = .ok (.bvBuild false true) ∧
    decode 0b00000000000000000000000100110001#32 = .ok .count1 ∧
    decode 0b00000000000000000000000101000010#32 = .ok (.smpRead true) := by decide

/-- 95_test_vectors.md section 2.6: the illegal words. -/
theorem test_decode_illegal :
    decode 0x00000000 = .error .unassignedOpcode ∧ decode 0x00000003 = .error .unassignedOpcode ∧
    decode 0x00000101 = .error .reservedBits ∧ decode 0x00000812 = .error .reservedBits ∧ decode 0x00000230 = .error .reservedBits ∧
    decode 0x0000FF26 = .error .reservedBits ∧ decode 0x80000020 = .error .reservedBits := by decide

/-- The bytes of a command word are little-endian (R79), and there are four of them (R110). -/
theorem test_decodeBytes :
    decodeBytes [0x12, 0x07, 0x00, 0x00] = .ok (.riSetrel 7) ∧ decodeBytes [0x12, 0x07] = .error .wrongLength := by decide

/-- No word matches two rows of the printed map: each two rows differ in a bit both of them fix (R116). -/
theorem test_rows_disjoint : opcodeRows.Pairwise fun r q => (r.mtch ^^^ q.mtch) &&& r.msk &&& q.msk ≠ 0 := by decide

theorem test_decodeTableWord :
    decodeTableWord 32 0x00000130 = some .rank1 ∧ decodeTableWord 16 0x0126 = some (.bvBuild true false) ∧
    decodeTableWord 32 0 = none ∧ decodeTableWord 40 (2 ^ 32 + 1) = none := by decide

/-- The step after a command word is placed runs it: POPCNT leaves STATUS = FOUND; BV_SET completes too, whatever MAX_BITS is. -/
theorem test_withFetchWord :
    (match step (State.reset.withFetchWord 32 0x00000001) with | .next t => t.statusWord | _ => 0) = 0x04 ∧
    (match step (State.reset.withFetchWord 32 0x00000121) with | .next _ => true | _ => false) = true := by decide

/-! ### PopCount unit and in-word select (R142, R145, R147, the rules' own examples) -/

theorem test_popcnt : shown (runOn fresh .popcnt 0x0123456789ABCDEF) = (32, 0x04) ∧ shown (runOn fresh .popcnt 0xFFFFFFFFFFFFFFFF) = (64, 0x04) := by
  decide

theorem test_selw : shown (runOn fresh .selw 0x0123456789ABCDEF 10) = (14, 0x04) := by decide

theorem test_selw_notFound : shown (runOn fresh .selw 0xFFFFFFFFFFFFFFFF 64) = (2 ^ 64 - 1, 0x00) := by decide

theorem test_lut : lut 0 0x80 = 7 ∧ lut 0 0xF0 = 4 ∧ lut 3 0xF0 = 7 ∧ lut 7 0xFF = 7 ∧ lut 2 0xB4 = 5 ∧ lut 4 0xF0 = 0 := by decide

/-! ### RankIndex (R166 to R173, program P2) -/

theorem test_riClr : (runOn { fresh with rix := { abs := 7, rel := 0xF800000000000001 } } .riClr).rix = { abs := 0, rel := 0 } := by decide

theorem test_riSetabs : (runOn fresh .riSetabs 0x100000005).rix = { abs := 5, rel := 0 } := by decide

theorem test_riSetrel : (runOn fresh (.riSetrel 7) 0x1FF).rix.rel = 0x07FC000000000000 := by decide

theorem test_riSetrel_truncates : (runOn { fresh with rix := { abs := 5, rel := 0x07FC000000000040 } } (.riSetrel 2) 0x1FF).rix =
    { abs := 5, rel := 0x07FC000000007FC0 } := by decide

theorem test_riGetabs : (runOn { fresh with rix := { abs := 0xFFFFFFFF, rel := 0 } } .riGetabs).res = 0xFFFFFFFF := by decide

theorem test_riGetrel : (runOn { fresh with rix := { abs := 0, rel := 0xFFFFFFFFFFFFFFFF } } (.riGetrel 7)).res = 0x1FF := by decide

theorem test_riGetrel_order : (runOn { fresh with rix := { abs := 0, rel := 0x80 } } (.riGetrel 1)).res = 0 ∧
    (runOn { fresh with rix := { abs := 0, rel := 0x80 } } (.riGetrel 2)).res = 1 := by decide

theorem test_riLoad : (runOn built .riLoad 1).rix = { abs := 1, rel := 0 } ∧ (runOn built .riLoad 2).statusWord = 0x45A := by decide

theorem test_riGetpack : (runOn { fresh with rix := { abs := 0, rel := 0x07FC000000007FC0 } } .riGetpack).res = 0x07FC000000007FC0 := by decide

theorem test_riSetpack : (runOn { fresh with rix := { abs := 9, rel := 0 } } .riSetpack 0xFFFFFFFFFFFFFFFF).rix =
    { abs := 9, rel := 0xFFFFFFFFFFFFFFFF } := by decide

/-! ### Bit store and build engine (R190 to R210, program P3, section 2.6) -/

theorem test_bvClear : runOn built .bvClear = { fresh with found := true } := by decide

theorem test_bvSet : (runOn roomy (.bvSet true) 100).size = 101 ∧ (runOn roomy (.bvSet true) 100).blk = [(1, 0x0000001000000000)] := by decide

theorem test_bvSet_faults : (runOn fresh (.bvSet true) 100).statusWord = 0x542 ∧ (runOn built (.bvSet true) 3).statusWord = 0x25A := by decide

theorem test_bvPush : (runOn { roomy with size := 64 } (.bvPush true)).size = 65 ∧
    (runOn { roomy with size := 64 } (.bvPush true)).blk = [(1, 1)] := by decide

theorem test_bvPush_capacity : runOn full (.bvPush true) = { full with err := true, errCode := 5, stickyErr := true } := by decide

theorem test_bvGet : (runOn full .bvGet 99).res = 1 ∧ (runOn full .bvGet 98).res = 0 ∧ (runOn full .bvGet 100).statusWord = 0x442 := by decide

theorem test_bvWrword : (runOn part .bvWrword 1 0xFFFFFFFFFFFFFFFF).blk = [(1, 0x3F)] ∧ (runOn part .bvWrword 2 1).statusWord = 0x442 := by decide

theorem test_bvRdword : (runOn full .bvRdword 1).res = 0x0000000800000000 ∧ (runOn full .bvRdword 2).statusWord = 0x442 := by decide

theorem test_bvBuild : runOn full (.bvBuild true false) = { built with found := true } := by decide

/-- V-BV7 built 0, 1; its one at position 69 (R201's back-fill). -/
theorem test_bvBuild_zeros : (runOn part (.bvBuild false true)).s0 = [0, 70] ∧
    (runOn part (.bvBuild false true)).rt = [{ abs := 0, rel := 0x0004020100808080 }, { abs := 1, rel := 0 }] := by decide

/-! ### Rank, select and sampling tables (R230 to R273, program P3, section 2.6) -/

theorem test_rank1 : (runOn built .rank1 100).res = 1 ∧ (runOn built .rank1 99).res = 0 ∧ (runOn built .rank1 101).statusWord = 0x45A := by decide

theorem test_rank0 : (runOn built .rank0 100).res = 99 ∧ (runOn full .rank0 5).statusWord = 0x342 := by decide

theorem test_counts : (runOn built .count1).res = 1 ∧ (runOn built .count0).res = 99 ∧ (runOn built .rtLen).res = 2 := by decide

theorem test_select1 : shown (runOn built .select1 0) = (99, 0x1C) ∧ shown (runOn built .select1 1) = (2 ^ 64 - 1, 0x18) := by decide

theorem test_select0 : (runOn built .select0 98).res = 98 ∧ shown (runOn built .select0 99) = (2 ^ 64 - 1, 0x18) := by decide

theorem test_smp : (runOn built (.smpLen true)).res = 2 ∧ (runOn built (.smpLen false)).res = 0 ∧ (runOn built (.smpRead true) 1).res = 100 ∧
    (runOn built (.smpRead false) 2).statusWord = 0x45A := by decide

/-! ### STATUS, the window and the record -/

/-- Section 2.6: the last row of P3. -/
theorem test_illegal_before_phase : (match State.engineTurn (State.busyWith built 0x0000FF26) with | .next t => t.statusWord | _ => 0) = 0x15A := by
  decide

/-- Section 2.6: W1C of bits 6 and 7. -/
theorem test_status_write : ({ fresh with stickyErr := true, overrun := true }.hostWrite 0x04 32 0xC0).statusWord = 0 ∧
    ({ fresh with stickyErr := true, overrun := true }.hostWrite 0x04 32 0xFFFFFF3F).statusWord = 0xC0 := by decide

/-- R78: the halves of a 64-bit register; other accesses read 0. -/
theorem test_window : { fresh with res := 0x1122334455667788 }.hostRead 0x1C 32 = 0x11223344 ∧
    { fresh with res := 0x1122334455667788 }.hostRead 0x1C 64 = 0 ∧ { fresh with res := 0x1122334455667788 }.hostRead 0x1A 16 = 0 := by decide

/-- R86: the record of the empty vector has 72 bytes. -/
theorem test_record_empty : (Record.toBytes ⟨0, 0, [], [{ abs := 0, rel := 0 }], [0], [0]⟩).length = 72 := by decide

/-- R83 and program P1: the first rank-table element of V-BV1. -/
theorem test_record_entry : entryBytes { abs := 0, rel := 0x000C060301818181 } =
    [0, 0, 0, 0, 0, 0, 0, 0, 0x81, 0x81, 0x81, 0x01, 0x03, 0x06, 0x0C, 0x00] := by decide

/-- R81: a select0Table of one element leaves the select1Table count at offset 44 of a record without words, and the tables stand in
this order. -/
theorem test_record_order : (Record.toBytes ⟨0, 0, [], [], [7], [9, 10]⟩).drop 32 =
    [1, 0, 0, 0, 0, 0, 0, 0, 7, 0, 0, 0, 2, 0, 0, 0, 0, 0, 0, 0, 9, 0, 0, 0, 10, 0, 0, 0] := by decide

/-- R119: `rank1 i`. -/
theorem test_pseudo : (Pseudo.rank1 5).expand = [.wrArg0 5, .cmd .rank1, .wait, .rd .res] := by decide

/-! ### States of the invariant -/

/-- The words of a vector whose one listed word is word 1. -/
theorem bit_of_word_one {s : State} {w : Word} (hb : s.blk = [(1, w)]) {n p : Nat} (hn : w.toNat < 2 ^ n) (hp : 64 + n ≤ p) :
    s.bit p = false := by
  unfold State.bit
  rw [hb, BlockMem.read_cons]
  split
  · rename_i h
    refine Nat.testBit_lt_two_pow (Nat.lt_of_lt_of_le hn (Nat.pow_le_pow_right (by omega) ?_))
    have h1 : 1 = p / 64 := h
    omega
  · simp

theorem fresh_inv : fresh.Inv := by
  refine ⟨by decide, by decide, by decide, fun p _ => by simp [State.bit, fresh, State.reset], fun _ => by decide, fun h => ?_,
    fun h => ?_, fun h => ?_, by decide, by decide⟩ <;> exact absurd h (by decide)

theorem part_inv : part.Inv := by
  refine ⟨by decide, by decide, by decide, fun p hp => bit_of_word_one (w := 0x20) (n := 6) rfl (by decide) hp, fun _ => by decide,
    fun h => ?_, fun h => ?_, fun h => ?_, by decide, by decide⟩ <;> exact absurd h (by decide)

theorem full_inv : full.Inv := by
  refine ⟨by decide, by decide, by decide, fun p hp => bit_of_word_one (w := 0x0000000800000000) (n := 36) rfl (by decide) hp,
    fun _ => by decide, fun h => ?_, fun h => ?_, fun h => ?_, by decide, by decide⟩ <;> exact absurd h (by decide)

/-- The ones of `built` before a position. -/
theorem built_rank (n : Nat) : built.rank true n = if n ≤ 99 then 0 else 1 := by
  split
  · exact Nat.le_zero.mp (Nat.le_trans (State.rank_mono (s := built) (v := true) (by omega)) (by decide : built.rank true 99 ≤ 0))
  · rw [State.rank_of_size_le (s := built) (v := true) (show built.size.toNat ≤ n by show 100 ≤ n; omega)]
    decide

theorem built_inv : built.Inv := by
  refine ⟨by decide, by decide, by decide, fun p hp => bit_of_word_one (w := 0x0000000800000000) (n := 36) rfl (by decide) hp,
    fun h => absurd h (by decide), fun _ => by decide, fun _ => ⟨by decide, ?_, ?_, ?_⟩, fun _ v => ?_, by decide, by decide⟩
  · intro g e he
    match g, he with
    | 0, he => cases he; decide
    | 1, he => cases he; rw [State.cnt_zero_left, built_rank]; decide
    | g + 2, he => exact absurd he (by simp [built])
  · intro g e he k h1 h7
    unfold State.cnt
    rw [built_rank, built_rank]
    match g, he with
    | 0, he => cases he; revert h1 h7; revert k; decide
    | 1, he => cases he; revert h1 h7; revert k; decide
    | g + 2, he => exact absurd he (by simp [built])
  · intro g e he
    match g, he with
    | 0, he => cases he; decide
    | 1, he => cases he; decide
    | g + 2, he => exact absurd he (by simp [built])
  · cases v
    · rfl
    · refine ⟨by decide, fun k p hk hp => ?_, by decide⟩
      have hk1 : k < 1 := hk
      obtain rfl : k = 0 := by omega
      cases hp
      exact ⟨by decide, by decide⟩

theorem blank_bit (p : Nat) : blank.bit p = false := by
  simp [State.bit, blank, roomy, State.reset]

theorem blank_rank (n : Nat) : blank.rank true n = 0 := by
  induction n with
  | zero => rfl
  | succ n ih => rw [State.rank_succ, ih]; simp [State.holds, blank_bit]

theorem blank_entry {g : Nat} {e : RankEntry} (he : blank.rt[g]? = some e) : e = { abs := 0, rel := 0 } := by
  have h : e ∈ blank.rt := List.mem_of_getElem? he
  exact List.eq_of_mem_replicate h

theorem blank_inv : blank.Inv := by
  refine ⟨by decide, by decide, by decide, fun p _ => blank_bit p, fun h => absurd h (by decide), fun _ => ?_,
    fun _ => ⟨by decide, ?_, ?_, ?_⟩, fun _ v => ?_, by decide, by decide⟩
  · rw [blank_rank]; decide
  · intro g e he
    rw [blank_entry he, State.cnt_zero_left, blank_rank]; decide
  · intro g e he k _ _
    rw [blank_entry he, State.cnt, blank_rank, blank_rank]
    simp [getRel]
  · intro g e he
    rw [blank_entry he]; decide
  · cases v <;> rfl

/-! ### Witnesses: for every statement with hypotheses, inputs that meet them, clause by clause -/

/-- The state with one event on the agenda. -/
def State.before (s : State) (e : HostEvent) : State := { s with agenda := [e] }

/-- The step that takes a host write at a window offset. -/
theorem step_write (s : State) {off : Nat} (h : off < 256) (width : Nat) (v : Word) :
    step (State.before s (.write (Config.regBase + off) width v)) = .next (State.hostWrite { s with agenda := [] } off width v) := by
  show Host.Outcome.next (State.busWrite { s with agenda := [] } (Config.regBase + off) width v) = _
  unfold State.busWrite
  rw [windowOffset_base h]

theorem witness_DecodeEncodeRoundTrip : (Instr.riSetrel 1).wellFormed = true ∧ (Instr.riGetrel 7).wellFormed = true := by decide

theorem witness_EncodeDecodeRoundTrip : decode 0x00000712 = .ok (.riSetrel 7) ∧ decode 0x00000326 = .ok (.bvBuild true true) := by decide

/-- Each case of R115 at the ends of its ranges, in a state that runs the word. -/
theorem witness_IllegalWordFaultsIllegalCommand :
    (State.busyWith fresh 0xFF).running = some { cmd := 0xFF, arg0 := 0, arg1 := 0 } ∧ IllegalWord 0x03 ∧ IllegalWord 0xFF ∧
    IllegalWord 0x101 ∧ IllegalWord 0x230 ∧ IllegalWord 0x426 ∧ IllegalWord 0x812 ∧ IllegalWord 0x14 := by
  refine ⟨rfl, ?_, ?_, ?_, ?_, ?_, ?_, ?_⟩ <;> (unfold IllegalWord; decide)

theorem witness_StepRunsDecodedCommand :
    (State.busyWith fresh 0x130 5).running = some { cmd := 0x130, arg0 := 5, arg1 := 0 } ∧ decode 0x130 = .ok .rank1 ∧
    (State.busyWith fresh 0x130 5).agenda = [] ∧ (State.before (State.busyWith fresh 0x130 5) .engine).agenda = [.engine] := by decide

theorem witness_CmdRegisterIssues :
    (State.before fresh (.write (Config.regBase + 0x00) 32 0x130)).agenda = [.write (Config.regBase + 0x00) 32 0x130] ∧
    (State.before fresh (.write (Config.regBase + 0x00) 32 0x130)).busy = false ∧
    (State.before (State.busyWith fresh 1) (.write (Config.regBase + 0x00) 32 0x130)).busy = true ∧
    (∃ t, (State.busyWith fresh 0x130 5).engineTurn = .next t) := ⟨rfl, rfl, rfl, _, rfl⟩

theorem witness_OverrunSetAndCleared :
    (State.busyWith fresh 1).busy = true ∧
    (∃ t, step (State.before { fresh with overrun := true } (.write (Config.regBase + 0x04) 32 0x80)) = .next t ∧ t.overrun = false) ∧
    (∃ t, step (State.before { fresh with overrun := true } .reset) = .next t ∧ t.overrun = false) ∧
    (0x80 : Word).getLsbD 7 = true := ⟨rfl, ⟨_, step_write _ (by decide) _ _, rfl⟩, ⟨_, rfl, rfl⟩, by decide⟩

theorem witness_StickyErrSetAndCleared :
    (∃ t, (State.busyWith fresh 0).busy = true ∧ (State.busyWith fresh 0).engineTurn = .next t ∧ t.err = true) ∧
    (∃ t, exec .bvClear { fresh with stickyErr := true } = .next t ∧ t.stickyErr = true) ∧
    (∃ t, step (State.before { fresh with stickyErr := true } (.write (Config.regBase + 0x04) 32 0x40)) = .next t ∧ t.stickyErr = false) ∧
    (∃ t, step (State.before { fresh with stickyErr := true } .reset) = .next t ∧ t.stickyErr = false) ∧
    (0x40 : Word).getLsbD 6 = true :=
  ⟨⟨_, rfl, rfl, rfl⟩, ⟨_, rfl, rfl⟩, ⟨_, step_write _ (by decide) _ _, rfl⟩, ⟨_, rfl, rfl⟩, by decide⟩

theorem witness_StatusWriteClearsStickyBits :
    (0x40 : Word).extractLsb' 0 32 = (0x40 : Word32) ∧ (0x38 ≤ 0x38 ∧ 0x38 ≤ 0xFF) ∧ (0x38 ≤ 0xFF ∧ 0xFF ≤ 0xFF) := by decide

/-- An allowed offset of the list, an access that is not allowed (misaligned, 64 bits at 0x00, another width), and a host event. -/
theorem witness_WindowAccessWidths :
    (0x30, fresh.maxBits.setWidth 64) ∈ [(0x08, fresh.arg0), (0x10, fresh.arg1), (0x18, fresh.res), (0x20, fresh.size.setWidth 64),
      (0x28, fresh.ones.setWidth 64), (0x30, fresh.maxBits.setWidth 64)] ∧
    (∀ a ∈ [(0x04, 64), (0x00, 64), (0x09, 32), (0x08, 16)],
      ¬(a.2 = 32 ∧ a.1 % 4 = 0) ∧ ¬(a.2 = 64 ∧ a.1 % 8 = 0 ∧ a.1 ≠ 0)) ∧
    (State.before fresh .reset).agenda = [.reset] ∧ HostEvent.reset ≠ .engine := by decide

theorem witness_ReadsHaveNoSideEffects :
    0xFF < 256 ∧ (State.before fresh (.read (Config.regBase + 0xFF) 32)).agenda = [.read (Config.regBase + 0xFF) 32] ∧ 0x18 ≤ 0x18 :=
  ⟨by decide, rfl, by decide⟩

theorem witness_Arg0IsLatched :
    fresh.running = none ∧
    (State.busyWith fresh 0x130 5).running = some { cmd := 0x130, arg0 := 5, arg1 := 0 } ∧
    (∃ t, exec .rank1 (State.busyWith built 0x130 5) = .next t) := ⟨rfl, rfl, _, rfl⟩

theorem witness_Arg1IsLatched :
    fresh.running = none ∧
    (State.busyWith fresh 0x130 5 6).running = some { cmd := 0x130, arg0 := 5, arg1 := 6 } ∧
    (∃ t, exec .bvWrword (State.busyWith full 0x24 0 6) = .next t) ∧ Instr.rank1 ≠ .selw ∧ Instr.rank1 ≠ .bvWrword :=
  ⟨rfl, rfl, ⟨_, rfl⟩, by decide, by decide⟩

theorem witness_BusyShowsOldValues :
    ∃ t, step (State.before { State.busyWith fresh 0 with stickyErr := true } (.write (Config.regBase + 0x00) 32 1)) = .next t ∧
      t.stickyErr = true ∧ (HostEvent.write (Config.regBase + 0x00) 32 1) ≠ .engine ∧
      (HostEvent.write (Config.regBase + 0x00) 32 1) ≠ .reset :=
  ⟨_, step_write _ (by decide) _ _, rfl, nofun, nofun⟩

theorem witness_ResetInputResets : (State.before (State.busyWith built 1) .reset).agenda = [.reset] := rfl

theorem witness_ResetWindowReads : 0x2C < 0x30 := by decide

theorem witness_StepKeepsInvariant : fresh.Inv ∧ ∃ t, step fresh = .next t := ⟨fresh_inv, _, rfl⟩

theorem witness_InvariantNeverStops : built.Inv ∧ part.Inv ∧ blank.Inv := ⟨built_inv, part_inv, blank_inv⟩

theorem witness_FaultsChangeOnlyStatus : ∃ t, exec .rank1 (State.busyWith built 0x130 101) = .next t ∧ t.err = true := ⟨_, rfl, rfl⟩

/-- A command with FOUND = 1, and a NotFound. -/
theorem witness_NormalCompletionStatus :
    (∃ t, exec .count1 built = .next t ∧ t.err = false ∧ t.found = true) ∧
    (∃ t, exec .select1 (State.busyWith built 0x140 1) = .next t ∧ t.err = false ∧ t.found = false) :=
  ⟨⟨_, rfl, rfl, rfl⟩, ⟨_, rfl, rfl, rfl⟩⟩

theorem witness_RixOnlyByRiCommands : isRi .bvClear = false ∧ ∃ t, exec .bvClear built = .next t := ⟨rfl, _, rfl⟩

theorem witness_PhaseChangesOnlyByBuildClearReset :
    (∃ t, step (State.busyWith full 0x126) = .next t ∧ full.frozen = false ∧ t.frozen = true) ∧
    (∃ t, step (State.busyWith built 0x20) = .next t ∧ built.frozen = true ∧ t.frozen = false) ∧
    (∃ t, step (State.before built .reset) = .next t ∧ t.frozen = false) := by
  refine ⟨?_, ⟨_, rfl, rfl, rfl⟩, ⟨_, rfl, rfl⟩⟩
  have h : (match step (State.busyWith full 0x126) with | .next t => t.frozen | _ => false) = true := by decide
  revert h
  cases step (State.busyWith full 0x126) with
  | next t => exact fun h => ⟨t, rfl, rfl, h⟩
  | fault _ => exact nofun
  | refused _ => exact nofun

theorem witness_FrozenVectorIsImmutable : built.frozen = true ∧ Instr.count1 ≠ .bvClear ∧ ∃ t, exec .count1 built = .next t :=
  ⟨rfl, by decide, _, rfl⟩

theorem witness_FrozenWritesFault : built.frozen = true ∧
    Instr.bvBuild true false ∈ [.bvSet true, .bvPush true, .bvWrword, .bvBuild true false] := by decide

theorem witness_TableCommandsNeedBuild : full.frozen = false ∧ Instr.smpRead true ∈
    [.riLoad, .rank1, .rank0, .count1, .count0, .rtLen, .select1, .select0, .smpLen true, .smpRead true] := by decide

/-- Two states with one bit vector that differ in RES; a result, an RI_LOAD and a fault. -/
theorem witness_QueriesArePure :
    isQuery .count1 = true ∧ isQuery .riLoad = true ∧ State.SameVector built { built with res := 7 } ∧
    (∃ t, exec .count1 built = .next t ∧ t.err = false) ∧ (∃ t, exec .riLoad built = .next t ∧ t.err = false) ∧
    (∃ t, exec .bvGet (State.busyWith built 0x23 100) = .next t ∧ t.err = true) :=
  ⟨rfl, rfl, ⟨rfl, rfl, rfl, rfl, rfl, rfl, rfl, rfl, rfl⟩, ⟨_, rfl, rfl⟩, ⟨_, rfl, rfl⟩, ⟨_, rfl, rfl⟩⟩

/-- r at the population count, and one below it. -/
theorem witness_SelwFindsTheOne :
    countBits (State.busyWith fresh 2 0xEF 7).opnd0 64 ≤ (State.busyWith fresh 2 0xEF 7).opnd1.toNat ∧
    (State.busyWith fresh 2 0xEF 6).opnd1.toNat < countBits (State.busyWith fresh 2 0xEF 6).opnd0 64 := by decide

theorem witness_LutHoldsPositions :
    7 < 8 ∧ 7 < ((List.range 8).countP fun j => (0xFF : Byte).getLsbD j) ∧
    ((List.range 8).countP fun j => (0x7F : Byte).getLsbD j) ≤ 7 := by decide

theorem witness_RiSetrelWritesOneField :
    (1, 0, 7) ∈ relFields ∧ (7, 50, 9) ∈ relFields ∧ (0x12 : Word32).toNat % 256 = 0x12 ∧ (0x12 : Word32).toNat / 256 % 8 = 0 ∧
    (0x912 : Word32).toNat % 256 = 0x12 ∧ (0x912 : Word32).toNat / 2048 ≠ 0 := by decide

theorem witness_RiGetrelReadsOneField :
    (1, 0, 7) ∈ relFields ∧ (7, 50, 9) ∈ relFields ∧ (0x14 : Word32).toNat % 256 = 0x14 ∧ (0x14 : Word32).toNat / 256 % 8 = 0 ∧
    (0x914 : Word32).toNat % 256 = 0x14 ∧ (0x914 : Word32).toNat / 2048 ≠ 0 := by decide

theorem witness_RiLoadReadsEntry :
    full.frozen = false ∧ built.frozen = true ∧ built.rt.length ≤ (State.busyWith built 0x15 2).opnd0.toNat ∧
    built.rt[(State.busyWith built 0x15 1).opnd0.toNat]? = some { abs := 1, rel := 0 } := by decide

theorem witness_BvSetWritesOneBit :
    built.frozen = true ∧ part.Inv ∧ part.frozen = false ∧ part.maxBits.toNat ≤ (State.busyWith part 0x121 100).opnd0.toNat ∧
    (State.busyWith part 0x121 99).opnd0.toNat < part.maxBits.toNat := ⟨rfl, part_inv, by decide⟩

theorem witness_BvPushAppendsOneBit :
    built.frozen = true ∧ full.frozen = false ∧ full.maxBits.toNat ≤ full.size.toNat ∧ part.Inv ∧ part.frozen = false ∧
    part.size.toNat < part.maxBits.toNat := ⟨rfl, rfl, by decide, part_inv, by decide⟩

theorem witness_BvGetReadsOneBit :
    part.size.toNat ≤ (State.busyWith part 0x23 70).opnd0.toNat ∧ (State.busyWith part 0x23 69).opnd0.toNat < part.size.toNat := by decide

theorem witness_BvWrwordWritesOneWord :
    built.frozen = true ∧ part.frozen = false ∧ ceilDiv part.size.toNat 64 ≤ (State.busyWith part 0x24 2).opnd0.toNat ∧
    (State.busyWith part 0x24 1).opnd0.toNat < ceilDiv part.size.toNat 64 := by decide

theorem witness_BvRdwordReadsOneWord :
    ceilDiv part.size.toNat 64 ≤ (State.busyWith part 0x25 2).opnd0.toNat ∧
    (State.busyWith part 0x25 1).opnd0.toNat < ceilDiv part.size.toNat 64 := by decide

theorem witness_BvBuildFreezesVector : full.Inv ∧ full.frozen = false ∧ fresh.Inv ∧ fresh.frozen = false := ⟨full_inv, rfl, fresh_inv, rfl⟩

/-- The table BV_BUILD leaves for `full` has entries at both ends. -/
theorem witness_BvBuildRankTableClosedForm :
    full.Inv ∧ full.frozen = false ∧ (runOn full (.bvBuild true false)).rt[0]? = some { abs := 0, rel := 0x0004020100808080 } ∧
    (runOn full (.bvBuild true false)).rt[1]? = some { abs := 1, rel := 0 } ∧ (7, 50, 9) ∈ relFields :=
  ⟨full_inv, rfl, by decide, by decide, by decide⟩

theorem witness_BvBuildSamplingClosedForm :
    full.Inv ∧ full.frozen = false ∧ 0 < ceilDiv (full.rank true full.size.toNat) 512 ∧
    (runOn full (.bvBuild true false)).s1[0]? = some 99 ∧ (runOn full (.bvBuild true false)).s1[1]? = some 100 :=
  ⟨full_inv, rfl, by decide, by decide, by decide⟩

/-- `i` at `size` and one past it. -/
theorem witness_Rank1CountsOnesBefore :
    full.frozen = false ∧ built.frozen = true ∧ built.size.toNat < (State.busyWith built 0x130 101).opnd0.toNat ∧
    (State.busyWith built 0x130 100).Inv ∧ (State.busyWith built 0x130 100).opnd0.toNat ≤ built.size.toNat :=
  ⟨rfl, rfl, by decide, built_inv.congr rfl rfl rfl rfl rfl rfl rfl rfl rfl rfl (by decide) (by decide), by decide⟩

theorem witness_Rank0CountsZerosBefore :
    full.frozen = false ∧ built.frozen = true ∧ built.size.toNat < (State.busyWith built 0x30 101).opnd0.toNat ∧
    (State.busyWith built 0x30 100).Inv ∧ (State.busyWith built 0x30 100).opnd0.toNat ≤ built.size.toNat :=
  ⟨rfl, rfl, by decide, built_inv.congr rfl rfl rfl rfl rfl rfl rfl rfl rfl rfl (by decide) (by decide), by decide⟩

theorem witness_CountsAndRankTableLength :
    full.frozen = false ∧ Instr.rtLen ∈ [.count1, .count0, .rtLen] ∧ built.Inv ∧ built.frozen = true :=
  ⟨rfl, by decide, built_inv, rfl⟩

theorem witness_RankCommandLaws :
    built.Inv ∧ built.frozen = true ∧ 100 ≤ built.size.toNat ∧ 99 < built.size.toNat := ⟨built_inv, rfl, by decide⟩

/-- x one below the count and at it, with a sampling table (ones) and without (zeros). -/
theorem witness_SelectFindsPosition :
    full.frozen = false ∧ Instr.select0 ∈ [.select1, .select0] ∧
    (true, Instr.select1) ∈ [(true, .select1), (false, .select0)] ∧ built.frozen = true ∧
    (State.busyWith built 0x140 0).Inv ∧ (State.busyWith built 0x140 0).opnd0.toNat < built.rank true built.size.toNat ∧
    built.rank true built.size.toNat ≤ (State.busyWith built 0x140 1).opnd0.toNat ∧
    (State.busyWith built 0x40 98).opnd0.toNat < built.rank false built.size.toNat ∧
    built.rank false built.size.toNat ≤ (State.busyWith built 0x40 99).opnd0.toNat :=
  ⟨rfl, by decide, by decide, rfl, built_inv.congr rfl rfl rfl rfl rfl rfl rfl rfl rfl rfl (by decide) (by decide), by decide⟩

/-- A one and a zero, two ranks in order, a rank past the count, and the same vector in another state. -/
theorem witness_SelectRankLaws :
    built.Inv ∧ built.frozen = true ∧ 99 < built.size.toNat ∧ built.bit 99 = true ∧ built.bit 98 = false ∧
    97 < 98 ∧ 98 < built.rank false built.size.toNat ∧
    (built.rank false built.size.toNat ≤ 99 ∧ 99 < 2 ^ 64) ∧ State.Inv { built with res := 7 } ∧ State.blk { built with res := 7 } = built.blk :=
  ⟨built_inv, rfl, by decide, by decide, by decide, by decide, by decide, by decide,
    built_inv.congr rfl rfl rfl rfl rfl rfl rfl rfl rfl rfl (by decide) (by decide), rfl⟩

/-- A bracket of two groups, scanned, and one of eleven, searched. -/
theorem witness_SearchStrategiesAgree :
    (built.Inv ∧ built.frozen = true ∧ 0 ≤ 1 ∧ 1 < built.rt.length ∧ groupCount built true 0 = .ok 0 ∧ 1 - 0 + 1 ≤ 10) ∧
    (blank.Inv ∧ blank.frozen = true ∧ 0 ≤ 10 ∧ 10 < blank.rt.length ∧ groupCount blank false 0 = .ok 0 ∧ 10 < 10 - 0 + 1) :=
  ⟨⟨built_inv, rfl, by decide, by decide, rfl, by decide⟩, ⟨blank_inv, rfl, by decide, by decide, rfl, by decide⟩⟩

theorem witness_SamplingTableReadOut :
    full.frozen = false ∧ Instr.smpRead true ∈ [.smpLen true, .smpRead true] ∧ (true, built.s1) ∈ [(true, built.s1), (false, built.s0)] ∧
    built.frozen = true ∧ built.s1.length ≤ (State.busyWith built 0x142 2).opnd0.toNat ∧
    built.s1[(State.busyWith built 0x142 1).opnd0.toNat]? = some 100 := by decide

/-- The record of `built`. -/
def builtRecord : Record :=
  ⟨100, 1, [0, 0x0000000800000000], [{ abs := 0, rel := 0x0004020100808080 }, { abs := 1, rel := 0 }], [], [99, 100]⟩

theorem witness_RecordBytesRoundTrip :
    builtRecord.blocks.length < 2 ^ 64 ∧ builtRecord.rankTable.length < 2 ^ 64 ∧ builtRecord.select0Table.length < 2 ^ 64 ∧
    builtRecord.select1Table.length < 2 ^ 64 := by decide

/-- An element of each container, the words that hold the last bit of word 0 and the ends of word 1, and an element's bytes with
padding that is not 0. -/
theorem witness_RecordLayout :
    (builtRecord.blocks.length = 2 ∧ builtRecord.rankTable.length = 2 ∧ builtRecord.select0Table.length = 0 ∧
      builtRecord.select1Table.length = 2) ∧
    builtRecord.blocks[63 / 64]? = some 0 ∧ builtRecord.blocks[64 / 64]? = some 0x0000000800000000 ∧
    builtRecord.blocks[127 / 64]? = some 0x0000000800000000 ∧ builtRecord.rankTable[1]? = some { abs := 1, rel := 0 } ∧
    { builtRecord with select0Table := [0] }.select0Table[0]? = some 0 ∧ builtRecord.select1Table[1]? = some 100 ∧
    HoldsLE [5, 0, 0, 1] 0 4 (0x01000005 : Word32).toNat ∧ HoldsLE [0, 0, 0, 0, 0, 0, 0, 0xF8] 0 8 (0xF800000000000000 : Word).toNat ∧
    [(0xFF : Byte), 1, 2, 3].length = 4 := by
  refine ⟨by decide, by decide, by decide, by decide, by decide, by decide, by decide, ?_, ?_, by decide⟩
  · intro j hj
    refine ⟨[5, 0, 0, 1][j], by simp [hj], ?_⟩
    revert j
    decide
  · intro j hj
    refine ⟨[0, 0, 0, 0, 0, 0, 0, 0xF8][j], by simp [hj], ?_⟩
    revert j
    decide

theorem witness_SaveReadsOutTheVector : built.Inv ∧ built.frozen = true ∧ built.running = none := ⟨built_inv, rfl, rfl⟩

/-- The save of `built`, and a block of exactly its capacity. -/
theorem witness_LoadRestoresSavedVector :
    built.Inv ∧ built.frozen = true ∧ built.running = none ∧ (∃ t, saveRecord built = .next (builtRecord, t)) ∧ full.Inv ∧
    full.running = none ∧ built.size.toNat ≤ full.maxBits.toNat := by
  refine ⟨built_inv, rfl, rfl, ?_, full_inv, rfl, by decide⟩
  have h : (match saveRecord built with | .next p => decide (p.1 = builtRecord) | _ => false) = true := by decide
  revert h
  cases saveRecord built with
  | next p => exact fun h => ⟨p.2, by rw [← of_decide_eq_true h]⟩
  | fault _ => exact nofun
  | refused _ => exact nofun

/-- What a load answers; true where the model stops. -/
def loadAnswer (r : Host.Outcome (Bool × State) Fault Refusal) : Bool :=
  match r with
  | .next p => p.1
  | .fault _ => true
  | .refused _ => true

theorem refused_of_loadAnswer {r : Host.Outcome (Bool × State) Fault Refusal} (h : loadAnswer r = false) :
    ∃ t, r = .next (false, t) := by
  cases r with
  | next p => exact ⟨p.2, by rw [← show p.1 = false from h]⟩
  | fault _ => exact absurd (show true = false from h) (by decide)
  | refused _ => exact absurd (show true = false from h) (by decide)

/-- A record whose 1-count is wrong, refused after the rebuild; one that does not fit, refused at once; bytes that are no record; and
bytes that are one (R86's). -/
theorem witness_FailedLoadLeavesBlockCleared :
    full.running = none ∧ (∃ t, loadRecord { builtRecord with numOfOnes := 2 } full = .next (false, t)) ∧
    (∃ t, loadRecord { builtRecord with size := 101 } full = .next (false, t)) ∧
    (∃ t, loadBytes [0] full = .next (false, t)) ∧ Record.ofBytes [0] = none ∧
    Record.ofBytes (Record.toBytes ⟨0, 0, [], [{ abs := 0, rel := 0 }], [0], [0]⟩) = some ⟨0, 0, [], [{ abs := 0, rel := 0 }], [0], [0]⟩ :=
  ⟨rfl, refused_of_loadAnswer (by decide), refused_of_loadAnswer (by decide), refused_of_loadAnswer (by decide), by decide, by decide⟩

end Sys2Proof.Tests
end

/-! SUPPORT. The invariant, operation by operation: one rule for each way the vector and its tables are written. -/

namespace Sys2Proof.Machine

section
variable {s t : State} {v : Bool}

/-! ### What leaves the vector alone -/

/-- A step that leaves the vector, its capacity, ERR, ERRCODE and FOUND alone keeps the invariant. -/
theorem State.Inv.of_sameVector (h : s.Inv) (hv : s.SameVector t) (hmax : t.maxBits = s.maxBits) (herr : t.err = s.err)
    (hcode : t.errCode = s.errCode) (hfound : t.found = s.found) : t.Inv := by
  obtain ⟨hsize, hones, hfrozen, hfs1, hfs0, hblk, hrt, hs1, hs0⟩ := hv
  refine h.congr hsize.symm hones.symm hfrozen.symm hfs1.symm hfs0.symm hblk.symm hrt.symm hs1.symm hs0.symm hmax ?_ ?_
  · rw [herr, hcode]
    exact h.codes
  · rw [herr, hfound]
    exact h.foundOrErr

theorem State.SameVector.refl (s : State) : s.SameVector s := ⟨rfl, rfl, rfl, rfl, rfl, rfl, rfl, rfl, rfl⟩

/-- Fault codes are 1 to 5 (60_exceptions.md R291). -/
theorem ErrCode.toBits_range (c : ErrCode) : c.toBits.toNat ≤ 5 ∧ c.toBits ≠ 0 := by
  cases c <;> decide

/-- The fault fields without a fault (10_state.md R44). -/
theorem codes_of_noFault : (0 : BitVec 4).toNat ≤ 5 ∧ (false = true ↔ (0 : BitVec 4) ≠ 0) := by decide

theorem State.Inv.raiseFault (h : s.Inv) (c : ErrCode) : (s.raiseFault c).Inv :=
  h.congr rfl rfl rfl rfl rfl rfl rfl rfl rfl rfl
    ⟨c.toBits_range.1, fun _ => c.toBits_range.2, fun _ => rfl⟩ (fun hfe => Bool.false_ne_true hfe.1)

/-- A command that ends without a fault and leaves the vector alone keeps the invariant. -/
theorem State.Inv.of_completed (h : s.Inv) (hv : s.SameVector t) (hmax : t.maxBits = s.maxBits) (herr : t.err = false)
    (hcode : t.errCode = 0) : t.Inv := by
  obtain ⟨hsize, hones, hfrozen, hfs1, hfs0, hblk, hrt, hs1, hs0⟩ := hv
  refine h.congr hsize.symm hones.symm hfrozen.symm hfs1.symm hfs0.symm hblk.symm hrt.symm hs1.symm hs0.symm hmax ?_ ?_
  · simp [herr, hcode]
  · simp [herr]

theorem State.Inv.complete (h : s.Inv) : s.complete.Inv := h.of_completed (.refl s) rfl rfl rfl

/-! ### The empty vector -/

/-- The empty vector of the build phase meets the invariant, whatever MAX_BITS is (70_reset_and_hazards.md R320). -/
theorem inv_reset_maxBits {m : Word32} (hm : 1 ≤ m.toNat) : State.Inv { State.reset with maxBits := m } where
  capacity := hm
  sizeLe := Nat.zero_le _
  blkWf := rfl
  padding _ _ := BitVec.getLsbD_zero
  building _ := ⟨rfl, rfl, rfl, rfl, rfl, rfl⟩
  onesOk h := nomatch h
  rankTable h := nomatch h
  sampling h := nomatch h
  codes := codes_of_noFault
  foundOrErr h := nomatch h.1

/-- A state without a vector, without a fault and with some capacity meets the invariant: after BV_CLEAR and after reset. -/
theorem inv_of_emptied (hm : 1 ≤ t.maxBits.toNat) (hv : State.reset.SameVector t) (herr : t.err = false) (hcode : t.errCode = 0) :
    t.Inv :=
  (inv_reset_maxBits hm).of_completed hv rfl herr hcode

/-! ### Writes of the bit store in the build phase -/

/-- While building, the invariant asks only that the size is in bounds, the words are canonical and the padding is 0. -/
theorem State.Inv.of_building (h : s.Inv) (hf : s.frozen = false) (ht : t = { s with size := t.size, blk := t.blk })
    (hsize : t.size.toNat ≤ s.maxBits.toNat) (hwf : t.blk.wf = true) (hpad : ∀ p, t.size.toNat ≤ p → t.bit p = false) : t.Inv := by
  have hmax : t.maxBits = s.maxBits := by rw [ht]
  have htf : t.frozen = false := by rw [ht]; exact hf
  have hnot : t.frozen ≠ true := by simp [htf]
  refine ⟨hmax ▸ h.capacity, hmax ▸ hsize, hwf, hpad, fun _ => ?_, fun hc => absurd hc hnot, fun hc => absurd hc hnot,
    fun hc => absurd hc hnot, ?_, ?_⟩
  · rw [ht]
    exact h.building hf
  · rw [ht]
    exact h.codes
  · rw [ht]
    exact h.foundOrErr

/-- The size after growth to `n` bits, where `n` is within the capacity. -/
theorem State.grow_size_toNat {n : Nat} (hn : n ≤ s.maxBits.toNat) : (s.grow n).size.toNat = n := by
  have := s.maxBits.isLt
  rw [State.grow_size, BitVec.toNat_ofNat, Nat.mod_eq_of_lt (by omega)]

/-- Growth within the capacity keeps the invariant (42_bitvector.md R192). -/
theorem State.Inv.grow (h : s.Inv) (hf : s.frozen = false) {n : Nat} (hle : s.size.toNat ≤ n) (hn : n ≤ s.maxBits.toNat) :
    (s.grow n).Inv := by
  have hsize := State.grow_size_toNat hn
  refine h.of_building hf rfl (by omega) (BlockMem.wf_keepBelow _ h.blkWf) fun p hp => ?_
  rw [State.bit_grow_of_padding h.padding]
  exact h.padding p (by omega)

/-- Writing a word whose bits outside the vector are 0 keeps the invariant (42_bitvector.md R195). -/
theorem State.Inv.writeBlk (h : s.Inv) (hf : s.frozen = false) {w : Nat} {x : Word}
    (hx : ∀ j, s.size.toNat ≤ 64 * w + j → x.getLsbD j = false) : (s.writeBlk w x).Inv := by
  refine h.of_building hf rfl h.sizeLe (BlockMem.wf_write _ _ h.blkWf) fun p hp => ?_
  have hp : s.size.toNat ≤ p := hp
  rw [State.bit_writeBlk]
  split
  · exact hx _ (by omega)
  · exact h.padding p hp

/-- Writing a bit of the vector keeps the invariant (42_bitvector.md R191). -/
theorem State.Inv.writeBit (h : s.Inv) (hf : s.frozen = false) {i : Nat} (hi : i < s.size.toNat) : (s.writeBit i v).Inv := by
  refine h.of_building hf rfl h.sizeLe (BlockMem.wf_write _ _ h.blkWf) fun p hp => ?_
  have hp : s.size.toNat ≤ p := hp
  rw [State.bit_writeBit, if_neg (by omega)]
  exact h.padding p hp

/-! ### The bit-store commands -/

theorem execBvSet_keeps_inv (h : s.Inv) (ht : execBvSet v s = .next t) : t.Inv := by
  obtain rfl := Host.Outcome.next.inj ht
  split
  · exact h.raiseFault _
  next hf =>
    have hf : s.frozen = false := by simpa using hf
    split
    · exact h.raiseFault _
    next hcap =>
      split
      next hi =>
        have hsize := State.grow_size_toNat (s := s) (n := s.index + 1) (by omega)
        exact ((h.grow hf (by omega) (by omega)).writeBit hf (by omega)).complete
      next hi => exact (h.writeBit hf (by omega)).complete

theorem execBvPush_keeps_inv (h : s.Inv) (ht : execBvPush v s = .next t) : t.Inv := by
  obtain rfl := Host.Outcome.next.inj ht
  split
  · exact h.raiseFault _
  next hf =>
    have hf : s.frozen = false := by simpa using hf
    split
    · exact h.raiseFault _
    next hcap =>
      have hgrown := h.grow hf (n := s.size.toNat + 1) (by omega) (by omega)
      have hsize := State.grow_size_toNat (s := s) (n := s.size.toNat + 1) (by omega)
      refine (hgrown.writeBlk hf fun j hj => ?_).complete
      rcases Nat.lt_or_ge j 64 with hj64 | hj64
      · have hold := hgrown.padding (64 * (s.size.toNat / 64) + j) hj
        unfold State.bit at hold
        rw [show (64 * (s.size.toNat / 64) + j) / 64 = s.size.toNat / 64 by omega,
          show (64 * (s.size.toNat / 64) + j) % 64 = j by omega] at hold
        rw [BitVec.getLsbD_or, bool_shift_getLsbD hj64, hold, decide_eq_false (by omega)]
        rfl
      · exact BitVec.getLsbD_of_ge _ _ hj64

theorem execBvWrword_keeps_inv (h : s.Inv) (ht : execBvWrword s = .next t) : t.Inv := by
  unfold execBvWrword at ht
  split at ht
  · obtain rfl := Host.Outcome.next.inj ht
    exact h.raiseFault _
  next hf =>
    split at ht
    · obtain rfl := Host.Outcome.next.inj ht
      exact h.raiseFault _
    · obtain rfl := Host.Outcome.next.inj ht
      refine (h.writeBlk (by simpa using hf) fun j hj => ?_).complete
      have hout : ¬j < s.bitsInWord s.index := by
        unfold State.bitsInWord
        omega
      simp [mask_getLsbD, hout]

/-! ### The build -/

/-- What BV_BUILD leaves when its pass ends in `a` (42_bitvector.md R197). -/
def State.builtWith (s : State) (fs1 fs0 : Bool) (a : BuildAcc) : State :=
  { s.complete with
    rt := finishRankTable s.nb a.c1 a.rt
    ones := BitVec.ofNat 32 a.c1
    s1 := if fs1 then a.l1 ++ [s.size] else []
    s0 := if fs0 then a.l0 ++ [s.size] else []
    fs1 := fs1
    fs0 := fs0
    frozen := true }

theorem State.isSelect_congr (hs : s.size = t.size) (hb : s.blk = t.blk) (x p : Nat) : s.IsSelect v x p ↔ t.IsSelect v x p := by
  unfold State.IsSelect State.holds State.bit
  rw [State.rank_congr hs hb, hs, hb]

/-- The whole words of the vector count what the vector holds. -/
theorem State.rank_words (v : Bool) : s.rank v (64 * s.nb) = s.rank v s.size.toNat :=
  State.rank_of_size_le ((ceilDiv_le_iff (by omega)).mp (Nat.le_refl _))

section
variable {fs1 fs0 : Bool} {a : BuildAcc}

/-- BV_BUILD leaves the words, and so the ranks of 00_scope.md R10, as they were. -/
theorem State.builtWith_rank (v : Bool) (n : Nat) : (s.builtWith fs1 fs0 a).rank v n = s.rank v n :=
  State.rank_congr (s := s.builtWith fs1 fs0 a) (t := s) rfl rfl v n

/-- BV_BUILD counts the ones of the vector (42_bitvector.md R208). -/
theorem State.builtWith_ones (hpass : PassOk s fs1 fs0 s.nb a) : (s.builtWith fs1 fs0 a).ones.toNat = s.rank true s.size.toNat := by
  have hle := State.rank_le (s := s) (v := true) s.size.toNat
  have := s.size.isLt
  show (BitVec.ofNat 32 a.c1).toNat = _
  rw [hpass.c1, State.rank_words, BitVec.toNat_ofNat, Nat.mod_eq_of_lt (by omega)]

theorem State.builtWith_countOf (hpass : PassOk s fs1 fs0 s.nb a) (v : Bool) :
    (s.builtWith fs1 fs0 a).countOf v = s.rank v (64 * s.nb) := by
  have hones := State.builtWith_ones hpass
  have hsum := State.rank_add_rank (s := s) (Nat.le_refl s.size.toNat)
  rw [State.rank_words]
  cases v with
  | true => exact hones
  | false =>
    show s.size.toNat - (s.builtWith fs1 fs0 a).ones.toNat = _
    omega

/-- BV_BUILD leaves the rank table of 42_bitvector.md R203. -/
theorem State.builtWith_rankTableOk (hpass : PassOk s fs1 fs0 s.nb a) : (s.builtWith fs1 fs0 a).RankTableOk := by
  obtain ⟨hlen, hentry⟩ := finishRankTable_ok hpass
  have hcnt : ∀ lo hi, (s.builtWith fs1 fs0 a).cnt true lo hi = s.cnt true lo hi := fun lo hi => by
    unfold State.cnt
    rw [State.builtWith_rank, State.builtWith_rank]
  refine ⟨hlen, fun g e he => ?_, fun g e he k h1 h7 => ?_, fun g e he => ?_⟩
  all_goals obtain ⟨habs, hrel, hunused⟩ := hentry g e he
  · rw [habs, hcnt, State.cnt_zero_left]
  · rw [hrel k h1 h7, hcnt]
  · exact hunused

/-- A sample list of all `v`-bits of `s`, closed with its size, is the sampling table of R206 for a state with the same words. -/
theorem State.SampledTo.samplesOk {l : List Word32} (hl : s.SampledTo v (s.rank v (64 * s.nb)) l) (hsize : s.size = t.size)
    (hblk : s.blk = t.blk) (hsamples : t.samples v = l ++ [s.size]) (hcount : t.countOf v = s.rank v (64 * s.nb)) : t.SamplesOk v := by
  obtain ⟨hlen, hsel, hlast⟩ := hl.close
  refine ⟨by rw [hsamples, hcount, hlen], fun k p hk hp => ?_, by rw [hsamples, hcount, hlast, hsize]⟩
  rw [hcount] at hk
  rw [hsamples] at hp
  exact (State.isSelect_congr hsize hblk _ _).mp (hsel k p hk hp)

/-- BV_BUILD leaves each requested sampling table as 42_bitvector.md R206 has it, and the other empty. -/
theorem State.builtWith_sampling (hpass : PassOk s fs1 fs0 s.nb a) (v : Bool) :
    if (s.builtWith fs1 fs0 a).hasSamples v then (s.builtWith fs1 fs0 a).SamplesOk v else (s.builtWith fs1 fs0 a).samples v = [] := by
  have hcount := State.builtWith_countOf hpass
  cases v with
  | true =>
    have hl := hpass.l1
    cases fs1 with
    | true => exact hl.samplesOk rfl rfl rfl (hcount true)
    | false => rfl
  | false =>
    have hl := hpass.l0
    cases fs0 with
    | true => exact hl.samplesOk rfl rfl rfl (hcount false)
    | false => rfl

/-- BV_BUILD keeps the invariant: its pass computes the count and the tables (42_bitvector.md R203, R206, R208). -/
theorem State.Inv.builtWith (h : s.Inv) (ha : buildPass s fs1 fs0 s.nb = .ok a) : (s.builtWith fs1 fs0 a).Inv := by
  obtain ⟨a', ha', hpass⟩ := buildPass_ok h.padding fs1 fs0 (Nat.le_refl s.nb)
  obtain rfl : a' = a := Except.ok.inj (ha'.symm.trans ha)
  exact {
    capacity := h.capacity
    sizeLe := h.sizeLe
    blkWf := h.blkWf
    padding := h.padding
    building := fun hf => nomatch hf
    onesOk := fun _ => (State.builtWith_ones hpass).trans (State.builtWith_rank true _).symm
    rankTable := fun _ => State.builtWith_rankTableOk hpass
    sampling := fun _ => State.builtWith_sampling hpass
    codes := codes_of_noFault
    foundOrErr := fun hfe => nomatch hfe.2 }

end

/-! ### Commands -/

/-- Every command that answers a next state keeps the invariant. -/
theorem exec_keeps_inv {i : Instr} (h : s.Inv) (ht : exec i s = .next t) : t.Inv := by
  cases exec_ends ht with
  | raised c hc => exact hc ▸ h.raiseFault c
  | notFound _ hn => exact h.of_completed (hn ▸ .refl s) (hn ▸ rfl) (hn ▸ rfl) (hn ▸ rfl)
  | result w hw => exact h.of_completed (hw ▸ .refl s) (hw ▸ rfl) (hw ▸ rfl) (hw ▸ rfl)
  | rix _ e he => exact h.of_completed (he ▸ .refl s) (he ▸ rfl) (he ▸ rfl) (he ▸ rfl)
  | cleared _ hc => exact inv_of_emptied (hc ▸ h.capacity) (hc ▸ .refl State.reset) (hc ▸ rfl) (hc ▸ rfl)
  | stored hi =>
    obtain ⟨v, rfl⟩ | ⟨v, rfl⟩ | rfl := hi
    · exact execBvSet_keeps_inv h ht
    · exact execBvPush_keeps_inv h ht
    · exact execBvWrword_keeps_inv h ht
  | built fs1 fs0 _ _ a ha hb => exact hb ▸ h.builtWith ha

end

end Sys2Proof.Machine

/-! SUPPORT. What a host access, a command, the engine's turn and a step can change, field by field. -/

namespace Sys2Proof.Machine

section
variable {s t : State}

/-! ### The window -/

theorem State.writeCmd_idle (h : s.running = none) (c : Word32) :
    s.writeCmd c = { s with running := some { cmd := c, arg0 := s.arg0, arg1 := s.arg1 } } := by
  simp [State.writeCmd, h]

theorem State.writeCmd_busy (h : s.busy = true) (c : Word32) : s.writeCmd c = { s with overrun := true } := by
  obtain ⟨l, hl⟩ := Option.isSome_iff_exists.mp h
  simp [State.writeCmd, hl]

/-- The accesses the window takes (20_memory.md R78). -/
theorem accessOk_cases {off width : Nat} (h : ¬accessOk off width = false) :
    (width = 32 ∧ off % 4 = 0) ∨ (width = 64 ∧ off % 8 = 0 ∧ off ≠ 0) := by
  have hok : accessOk off width = true := (Bool.not_eq_false _).mp h
  simpa [accessOk, and_assoc] using hok

/-- From RES on no register takes a write (10_state.md R31, R45). -/
theorem State.hostWrite_readOnly (s : State) {off : Nat} (h : 0x18 ≤ off) (width : Nat) (v : Word) :
    s.hostWrite off width v = s := by
  unfold State.hostWrite
  split
  · rfl
  · split
    · unfold State.write64
      split
      case h_3 => rfl
      all_goals omega
    · unfold State.write32
      split
      case h_7 => rfl
      all_goals omega

@[simp] theorem State.hostWrite_cmd (s : State) (v : Word) : s.hostWrite 0x00 32 v = s.writeCmd (v.extractLsb' 0 32) := rfl

@[simp] theorem State.hostWrite_status (s : State) (v : Word) : s.hostWrite 0x04 32 v = s.writeStatus (v.extractLsb' 0 32) := rfl

/-- A host write does nothing, writes CMD, STATUS, ARG0 or ARG1 (10_state.md R31). -/
theorem hostWrite_cases (s : State) (off width : Nat) (v : Word) :
    s.hostWrite off width v = s ∨
    (off = 0x00 ∧ width = 32 ∧ s.hostWrite off width v = s.writeCmd (v.extractLsb' 0 32)) ∨
    (off = 0x04 ∧ width = 32 ∧ s.hostWrite off width v = s.writeStatus (v.extractLsb' 0 32)) ∨
    (∃ a, s.hostWrite off width v = { s with arg0 := a }) ∨ ∃ a, s.hostWrite off width v = { s with arg1 := a } := by
  unfold State.hostWrite
  split
  · exact .inl rfl
  next hok =>
    split
    next =>
      unfold State.write64
      split
      · exact .inr (.inr (.inr (.inl ⟨_, rfl⟩)))
      · exact .inr (.inr (.inr (.inr ⟨_, rfl⟩)))
      · exact .inl rfl
    next h64 =>
      have hwidth : width = 32 := by
        obtain ⟨h32, -⟩ | ⟨hw, -⟩ := accessOk_cases hok
        · exact h32
        · contradiction
      unfold State.write32
      split
      · exact .inr (.inl ⟨rfl, hwidth, rfl⟩)
      · exact .inr (.inr (.inl ⟨rfl, hwidth, rfl⟩))
      · exact .inr (.inr (.inr (.inl ⟨_, rfl⟩)))
      · exact .inr (.inr (.inr (.inl ⟨_, rfl⟩)))
      · exact .inr (.inr (.inr (.inr ⟨_, rfl⟩)))
      · exact .inr (.inr (.inr (.inr ⟨_, rfl⟩)))
      · exact .inl rfl

/-- A host write leaves everything but the latched command, ARG0, ARG1 and the two sticky bits alone. -/
theorem hostWrite_frame (s : State) (off width : Nat) (v : Word) :
    ∃ r a0 a1 e o, s.hostWrite off width v = { s with running := r, arg0 := a0, arg1 := a1, stickyErr := e, overrun := o } := by
  obtain h | ⟨-, -, h⟩ | ⟨-, -, h⟩ | ⟨a, h⟩ | ⟨a, h⟩ := hostWrite_cases s off width v
  case inr.inl =>
    cases hr : s.running with
    | none => exact ⟨_, _, _, _, _, h.trans (State.writeCmd_idle hr _)⟩
    | some l => exact ⟨_, _, _, _, _, h.trans (State.writeCmd_busy (by simp [State.busy, hr]) _)⟩
  all_goals exact ⟨_, _, _, _, _, h⟩

theorem windowOffset_eq_some {addr off : Nat} (h : windowOffset addr = some off) : addr = Config.regBase + off := by
  unfold windowOffset at h
  split at h
  · have := Option.some.inj h
    omega
  · nomatch h

theorem State.busWrite_base {off : Nat} (h : off < 256) (width : Nat) (v : Word) :
    s.busWrite (Config.regBase + off) width v = s.hostWrite off width v := by
  simp [State.busWrite, windowOffset_base h]

/-- A write on the bus is no access of the block or a host write at its window offset. -/
theorem busWrite_cases (s : State) (addr width : Nat) (v : Word) :
    s.busWrite addr width v = s ∨ ∃ off, addr = Config.regBase + off ∧ s.busWrite addr width v = s.hostWrite off width v := by
  unfold State.busWrite
  split
  next off hoff => exact .inr ⟨off, windowOffset_eq_some hoff, rfl⟩
  · exact .inl rfl

theorem busRead_frame (s : State) (addr width : Nat) : ∃ r, s.busRead addr width = { s with rdata := r } := by
  unfold State.busRead
  split
  · exact ⟨_, rfl⟩
  · exact ⟨_, rfl⟩

/-! ### Commands -/

/-- What every command that commits leaves: BUSY = 0, ARG0, ARG1 and OVERRUN as they were, and STICKY_ERR raised by a fault and
kept otherwise (60_exceptions.md R292, R293). -/
structure CommandFrame (s t : State) : Prop where
  running : t.running = none
  arg0 : t.arg0 = s.arg0
  arg1 : t.arg1 = s.arg1
  overrun : t.overrun = s.overrun
  stickyErr : t.stickyErr = (s.stickyErr || t.err)

theorem raiseFault_frame (s : State) (c : ErrCode) : CommandFrame s (s.raiseFault c) :=
  ⟨rfl, rfl, rfl, rfl, (Bool.or_true _).symm⟩

theorem exec_frame {i : Instr} (h : exec i s = .next t) : CommandFrame s t := by
  cases exec_ends h with
  | raised c hc => exact hc ▸ raiseFault_frame s c
  | notFound _ ht | result _ ht | rix _ _ ht | cleared _ ht | stored _ _ _ _ ht | built _ _ _ _ _ _ ht =>
    subst ht
    exact ⟨rfl, rfl, rfl, rfl, (Bool.or_false _).symm⟩

/-- Only the RI_ commands write RIX (10_state.md R49). -/
theorem exec_rix {i : Instr} (hi : isRi i = false) (h : exec i s = .next t) : t.rix = s.rix := by
  cases exec_ends h with
  | rix hri =>
    obtain rfl | rfl | ⟨k, rfl⟩ | rfl | rfl := hri
    all_goals nomatch hi
  | raised _ ht | notFound _ ht | result _ ht | cleared _ ht | stored _ _ _ _ ht | built _ _ _ _ _ _ ht =>
    subst ht
    rfl

/-- The phase changes only by BV_BUILD, to frozen, and by BV_CLEAR, to building (10_state.md R55). -/
theorem exec_phase {i : Instr} (h : exec i s = .next t) :
    t.frozen = s.frozen ∨ (∃ fs1 fs0, i = .bvBuild fs1 fs0 ∧ t.frozen = true) ∨ (i = .bvClear ∧ t.frozen = false) := by
  cases exec_ends h with
  | cleared hi ht => exact .inr (.inr ⟨hi, ht ▸ rfl⟩)
  | built fs1 fs0 hi _ _ _ ht => exact .inr (.inl ⟨fs1, fs0, hi, ht ▸ rfl⟩)
  | raised _ ht | notFound _ ht | result _ ht | rix _ _ ht | stored _ _ _ _ ht => exact .inl (ht ▸ rfl)

/-- In the frozen phase only BV_CLEAR changes the bit vector (10_state.md R52, R55). -/
theorem exec_sameVector_of_frozen {i : Instr} (hf : s.frozen = true) (hi : i ≠ .bvClear) (h : exec i s = .next t) :
    s.SameVector t := by
  cases exec_ends h with
  | cleared hc => exact absurd hc hi
  | stored _ hb => exact absurd (hf.symm.trans hb) (by decide)
  | built _ _ _ hb => exact absurd (hf.symm.trans hb) (by decide)
  | raised _ ht | notFound _ ht | result _ ht | rix _ _ ht => exact ht ▸ .refl s

/-! ### The engine's turn -/

/-- The engine's turn commits the running command, if there is one. -/
theorem engineTurn_frame (h : s.engineTurn = .next t) : t = s ∧ s.running = none ∨ CommandFrame s t := by
  obtain ⟨hr, rfl⟩ | ⟨l, e, -, -, rfl⟩ | ⟨l, i, -, -, hi⟩ := engineTurn_cases h
  · exact .inl ⟨rfl, hr⟩
  · exact .inr (raiseFault_frame _ _)
  · exact .inr (exec_frame hi)

theorem engineTurn_frame_of_busy (hb : s.busy = true) (h : s.engineTurn = .next t) : CommandFrame s t := by
  obtain ⟨-, hr⟩ | hframe := engineTurn_frame h
  · simp [State.busy, hr] at hb
  · exact hframe

/-- The engine's turn never touches OVERRUN (10_state.md R43). -/
theorem engineTurn_overrun (h : s.engineTurn = .next t) : t.overrun = s.overrun := by
  obtain ⟨rfl, -⟩ | hframe := engineTurn_frame h
  · rfl
  · exact hframe.overrun

/-- The engine's turn never clears STICKY_ERR (10_state.md R42). -/
theorem engineTurn_keeps_stickyErr (h : s.engineTurn = .next t) (hs : s.stickyErr = true) : t.stickyErr = true := by
  obtain ⟨rfl, -⟩ | hframe := engineTurn_frame h
  · exact hs
  · rw [hframe.stickyErr, hs, Bool.true_or]

/-- The phase stays, or the running command is BV_BUILD or BV_CLEAR and leaves its own (10_state.md R55). -/
def TurnPhase (s t : State) : Prop :=
  t.frozen = s.frozen ∨
  (∃ l fs1 fs0, s.running = some l ∧ decode l.cmd = .ok (.bvBuild fs1 fs0) ∧ t.frozen = true) ∨
  (∃ l, s.running = some l ∧ decode l.cmd = .ok .bvClear ∧ t.frozen = false)

theorem engineTurn_phase (h : s.engineTurn = .next t) : TurnPhase s t := by
  obtain ⟨-, rfl⟩ | ⟨l, e, -, -, rfl⟩ | ⟨l, i, hl, hd, hi⟩ := engineTurn_cases h
  · exact .inl rfl
  · exact .inl rfl
  · obtain hf | ⟨fs1, fs0, rfl, hf⟩ | ⟨rfl, hf⟩ := exec_phase hi
    · exact .inl hf
    · exact .inr (.inl ⟨l, fs1, fs0, hl, hd, hf⟩)
    · exact .inr (.inr ⟨l, hl, hd, hf⟩)

/-! ### Steps -/

theorem step_engine_of_empty (h : s.agenda = []) : step s = s.engineTurn := by
  simp [step, State.nextEvent, h]

theorem step_event {e : HostEvent} {rest : List HostEvent} (h : s.agenda = e :: rest) :
    step s = State.takeEvent { s with agenda := rest } e := by
  simp [step, State.nextEvent, h]

/-- A write in the window is a host write at its offset. -/
theorem step_write_base {off width : Nat} {v : Word} {rest : List HostEvent} (hoff : off < 256)
    (h : s.agenda = .write (Config.regBase + off) width v :: rest) :
    step s = .next (State.hostWrite { s with agenda := rest } off width v) := by
  rw [step_event h, State.takeEvent, State.busWrite_base hoff]

end

end Sys2Proof.Machine

/-! SUPPORT. Settled: the invariant, and what a step does to the command registers, the sticky bits and the phase. -/

namespace Sys2Proof.Machine

section
variable {s t : State}

/-! ### The invariant -/

theorem engineTurn_keeps_inv (h : s.Inv) (ht : s.engineTurn = .next t) : t.Inv := by
  obtain ⟨-, rfl⟩ | ⟨l, e, -, -, rfl⟩ | ⟨l, i, -, -, hi⟩ := engineTurn_cases ht
  · exact h
  · exact h.raiseFault _
  · exact exec_keeps_inv h hi

theorem hostWrite_keeps_inv (h : s.Inv) (off width : Nat) (v : Word) : (s.hostWrite off width v).Inv := by
  obtain ⟨r, a0, a1, e, o, hw⟩ := hostWrite_frame s off width v
  exact h.of_sameVector (hw ▸ .refl s) (hw ▸ rfl) (hw ▸ rfl) (hw ▸ rfl) (hw ▸ rfl)

theorem busWrite_keeps_inv (h : s.Inv) (addr width : Nat) (v : Word) : (s.busWrite addr width v).Inv := by
  obtain hw | ⟨off, -, hw⟩ := busWrite_cases s addr width v
  · rw [hw]
    exact h
  · rw [hw]
    exact hostWrite_keeps_inv h off width v

theorem busRead_keeps_inv (h : s.Inv) (addr width : Nat) : (s.busRead addr width).Inv := by
  obtain ⟨r, hr⟩ := busRead_frame s addr width
  exact hr ▸ h.of_sameVector (.refl s) rfl rfl rfl rfl

theorem resetInput_keeps_inv (h : s.Inv) : s.resetInput.Inv := inv_of_emptied h.capacity (.refl State.reset) rfl rfl

/-- The agenda is no part of what the invariant sees. -/
theorem State.Inv.setAgenda (h : s.Inv) (rest : List HostEvent) : State.Inv { s with agenda := rest } :=
  h.of_sameVector (.refl s) rfl rfl rfl rfl

/-- Settles O20: each event of the agenda, and each way a command ends, keeps the invariant. -/
theorem stepKeepsInvariant : Obligations.StepKeepsInvariant := by
  intro s t h ht
  obtain ⟨-, he⟩ | ⟨rest, -, he⟩ | ⟨a, w, rest, -, rfl⟩ | ⟨a, w, d, rest, -, rfl⟩ | ⟨rest, -, rfl⟩ := step_cases ht
  · exact engineTurn_keeps_inv h he
  · exact engineTurn_keeps_inv (h.setAgenda rest) he
  · exact busRead_keeps_inv (h.setAgenda rest) a w
  · exact busWrite_keeps_inv (h.setAgenda rest) a w d
  · exact resetInput_keeps_inv (h.setAgenda rest)

/-! ### CMD -/

theorem engineTurn_of_decode {l : Latched} {i : Instr} (hl : s.running = some l) (hd : decode l.cmd = .ok i) :
    s.engineTurn = exec i s := by
  simp [State.engineTurn, hl, hd]

/-- Settles O6: with or without a turn on the agenda, the step is the engine's turn. -/
theorem stepRunsDecodedCommand : Obligations.StepRunsDecodedCommand := by
  intro s l i hl hd
  exact ⟨fun ha => (step_engine_of_empty ha).trans (engineTurn_of_decode hl hd),
    fun rest ha => (step_event ha).trans (engineTurn_of_decode hl hd)⟩

theorem State.busy_of_running {l : Latched} (h : s.running = some l) : s.busy = true := by simp [State.busy, h]

theorem State.running_of_not_busy (h : s.busy = false) : s.running = none := by simpa [State.busy] using h

/-- Settles O7, by the two cases of a CMD write and the frame of a command. -/
theorem cmdRegisterIssues : Obligations.CmdRegisterIssues := by
  refine ⟨fun s v rest ha => ?_, fun s t l hl => ⟨State.busy_of_running hl, fun i hd => engineTurn_of_decode hl hd, fun ht => ?_⟩,
    fun s => rfl⟩
  · rw [step_write_base (by decide) ha, State.hostWrite_cmd]
    refine ⟨fun hb => ?_, fun hb => ?_⟩
    · exact congrArg _ (State.writeCmd_idle (s := { s with agenda := rest }) (State.running_of_not_busy hb) _)
    · exact congrArg _ (State.writeCmd_busy (s := { s with agenda := rest }) hb _)
  · simp [State.busy, (engineTurn_frame_of_busy (State.busy_of_running hl) ht).running]

/-! ### The sticky bits -/

/-- The sticky bits of `s` that are 1 are 1 in `t` (10_state.md R42, R43). -/
def KeepsSticky (s t : State) : Prop := (s.stickyErr = true → t.stickyErr = true) ∧ (s.overrun = true → t.overrun = true)

theorem KeepsSticky.of_eq (he : t.stickyErr = s.stickyErr) (ho : t.overrun = s.overrun) : KeepsSticky s t :=
  ⟨he.trans, ho.trans⟩

theorem writeCmd_keepsSticky (s : State) (c : Word32) : KeepsSticky s (s.writeCmd c) := by
  cases hr : s.running with
  | none => rw [State.writeCmd_idle hr]; exact .of_eq rfl rfl
  | some l => rw [State.writeCmd_busy (State.busy_of_running hr)]; exact ⟨id, fun _ => rfl⟩

/-- A host write keeps the sticky bits unless it writes STATUS. -/
theorem hostWrite_keepsSticky (s : State) (off width : Nat) (v : Word) :
    (off = 0x04 ∧ width = 32) ∨ KeepsSticky s (s.hostWrite off width v) := by
  obtain h | ⟨-, -, h⟩ | ⟨hoff, hwidth, -⟩ | ⟨a, h⟩ | ⟨a, h⟩ := hostWrite_cases s off width v
  case inr.inr.inl => exact .inl ⟨hoff, hwidth⟩
  case inr.inl => exact .inr (h ▸ writeCmd_keepsSticky s _)
  all_goals
    rw [h]
    exact .inr (.of_eq rfl rfl)

theorem engineTurn_keepsSticky (h : s.engineTurn = .next t) : KeepsSticky s t :=
  ⟨engineTurn_keeps_stickyErr h, (engineTurn_overrun h).trans⟩

/-- A step is a reset, a host write of STATUS, or keeps the sticky bits. -/
theorem step_sticky_cases (ht : step s = .next t) :
    (∃ rest, s.agenda = .reset :: rest) ∨
    (∃ v rest, s.agenda = .write (Config.regBase + 0x04) 32 v :: rest ∧
      t = State.writeStatus { s with agenda := rest } (v.extractLsb' 0 32)) ∨
    KeepsSticky s t := by
  obtain ⟨-, he⟩ | ⟨rest, -, he⟩ | ⟨a, w, rest, -, rfl⟩ | ⟨a, w, d, rest, ha, rfl⟩ | ⟨rest, ha, -⟩ := step_cases ht
  · exact .inr (.inr (engineTurn_keepsSticky he))
  · exact .inr (.inr (engineTurn_keepsSticky (s := { s with agenda := rest }) he))
  · obtain ⟨r, hr⟩ := busRead_frame { s with agenda := rest } a w
    exact .inr (.inr (hr ▸ .of_eq rfl rfl))
  · obtain hw | ⟨off, rfl, hw⟩ := busWrite_cases { s with agenda := rest } a w d
    · rw [hw]
      exact .inr (.inr (.of_eq rfl rfl))
    · rw [hw]
      obtain ⟨rfl, rfl⟩ | hk := hostWrite_keepsSticky { s with agenda := rest } off w d
      · exact .inr (.inl ⟨d, rest, ha, rfl⟩)
      · exact .inr (.inr hk)
  · exact .inl ⟨rest, ha⟩

theorem step_reset {rest : List HostEvent} (h : s.agenda = .reset :: rest) :
    step s = .next (State.resetInput { s with agenda := rest }) := step_event h

theorem step_writeStatus {v : Word} {rest : List HostEvent} (h : s.agenda = .write (Config.regBase + 0x04) 32 v :: rest) :
    step s = .next (State.writeStatus { s with agenda := rest } (v.extractLsb' 0 32)) := step_write_base (by decide) h

/-- Settles O8: every step that is no reset and no STATUS write keeps the sticky bits. -/
theorem overrunSetAndCleared : Obligations.OverrunSetAndCleared := by
  refine ⟨fun s c hb => State.writeCmd_busy hb c, fun s t ht hs hcleared => ?_, fun s v rest h => ?_⟩
  · obtain hreset | ⟨v, rest, ha, rfl⟩ | ⟨-, hkeeps⟩ := step_sticky_cases ht
    · exact .inl hreset
    · refine .inr ⟨v, rest, ha, ?_⟩
      simpa [State.writeStatus, hs] using hcleared
    · simp [hkeeps hs] at hcleared
  · obtain ha | ⟨ha, hv⟩ := h
    · exact ⟨_, step_reset ha, rfl⟩
    · exact ⟨_, step_writeStatus ha, by simp [State.writeStatus, hv]⟩

/-- Settles O9, like O8, with the frame of a command for the bit's setting. -/
theorem stickyErrSetAndCleared : Obligations.StickyErrSetAndCleared := by
  refine ⟨fun s t hb ht herr => ?_, fun i s t ht hs => ?_, fun s t ht hs hcleared => ?_, fun s v rest h => ?_⟩
  · rw [(engineTurn_frame_of_busy hb ht).stickyErr, herr, Bool.or_true]
  · rw [(exec_frame ht).stickyErr, hs, Bool.true_or]
  · obtain hreset | ⟨v, rest, ha, rfl⟩ | ⟨hkeeps, -⟩ := step_sticky_cases ht
    · exact .inl hreset
    · refine .inr ⟨v, rest, ha, ?_⟩
      simpa [State.writeStatus, hs] using hcleared
    · simp [hkeeps hs] at hcleared
  · obtain ha | ⟨ha, hv⟩ := h
    · exact ⟨_, step_reset ha, rfl⟩
    · exact ⟨_, step_writeStatus ha, by simp [State.writeStatus, hv]⟩

/-! ### The phase -/

theorem busRead_frozen (s : State) (addr width : Nat) : (s.busRead addr width).frozen = s.frozen := by
  obtain ⟨r, hr⟩ := busRead_frame s addr width
  rw [hr]

theorem busWrite_frozen (s : State) (addr width : Nat) (v : Word) : (s.busWrite addr width v).frozen = s.frozen := by
  obtain hw | ⟨off, -, hw⟩ := busWrite_cases s addr width v
  · rw [hw]
  · obtain ⟨r, a0, a1, e, o, hf⟩ := hostWrite_frame s off width v
    rw [hw, hf]

/-- A step other than a reset changes the phase only where it runs BV_BUILD or BV_CLEAR. -/
theorem step_phase (ht : step s = .next t) : TurnPhase s t ∨ (∃ rest, s.agenda = .reset :: rest) ∧ t.frozen = false := by
  obtain ⟨-, he⟩ | ⟨rest, -, he⟩ | ⟨a, w, rest, -, rfl⟩ | ⟨a, w, d, rest, -, rfl⟩ | ⟨rest, ha, rfl⟩ := step_cases ht
  · exact .inl (engineTurn_phase he)
  · exact .inl (engineTurn_phase (s := { s with agenda := rest }) he)
  · exact .inl (.inl (busRead_frozen _ a w))
  · exact .inl (.inl (busWrite_frozen _ a w d))
  · exact .inr ⟨⟨rest, ha⟩, rfl⟩

/-- Settles O25, by the ways a step can change the phase. -/
theorem phaseChangesOnlyByBuildClearReset : Obligations.PhaseChangesOnlyByBuildClearReset := by
  intro s t ht
  obtain (hsame | ⟨l, fs1, fs0, hl, hd, hf⟩ | ⟨l, hl, hd, hf⟩) | ⟨hreset, hf⟩ := step_phase ht
  · rw [hsame]
    exact ⟨fun h0 h1 => absurd (h0.symm.trans h1) (by decide), fun h1 h0 => absurd (h0.symm.trans h1) (by decide)⟩
  · exact ⟨fun _ _ => ⟨l, fs1, fs0, hl, hd⟩, fun _ h0 => absurd (h0.symm.trans hf) (by decide)⟩
  · exact ⟨fun _ h1 => absurd (hf.symm.trans h1) (by decide), fun _ _ => .inl ⟨l, hl, hd⟩⟩
  · exact ⟨fun _ h1 => absurd (hf.symm.trans h1) (by decide), fun _ _ => .inr hreset⟩

/-- Settles O26, by the ways a command can end. -/
theorem frozenVectorIsImmutable : Obligations.FrozenVectorIsImmutable :=
  fun _ _ _ hf hi h => exec_sameVector_of_frozen hf hi h

/-- Settles O27: the phase is the first thing each of the four commands tests. -/
theorem frozenWritesFault : Obligations.FrozenWritesFault := by
  intro s v fs1 fs0 i hf hi
  simp only [List.mem_cons, List.not_mem_nil, or_false] at hi
  obtain rfl | rfl | rfl | rfl := hi
  · exact congrArg _ (if_pos hf)
  · exact congrArg _ (if_pos hf)
  · exact if_pos hf
  · exact if_pos hf

/-- Settles O28: the phase is the first thing each of the ten commands tests. -/
theorem tableCommandsNeedBuild : Obligations.TableCommandsNeedBuild := by
  intro s v i hf hi
  simp only [List.mem_cons, List.not_mem_nil, or_false] at hi
  obtain rfl | rfl | rfl | rfl | rfl | rfl | rfl | rfl | rfl | rfl := hi
  all_goals exact if_pos hf

end

end Sys2Proof.Machine

/-! SUPPORT. The STATUS word and the window bit by bit, and the statements about them. -/

namespace Sys2Proof.Machine

section
variable {s : State}

/-! ### The STATUS word -/

theorem getLsbD_append_bit_zero {n : Nat} (x : BitVec n) (b : Bool) : (x ++ BitVec.ofBool b).getLsbD 0 = b := by
  rw [BitVec.getLsbD_append]
  cases b <;> rfl

theorem getLsbD_append_bit_succ {n : Nat} (x : BitVec n) (b : Bool) (j : Nat) :
    (x ++ BitVec.ofBool b).getLsbD (j + 1) = x.getLsbD j := by
  simp [BitVec.getLsbD_append]

theorem getLsbD_zero_append {n : Nat} (x : BitVec n) (j : Nat) : ((0 : BitVec 20) ++ x).getLsbD j = x.getLsbD j := by
  rw [BitVec.getLsbD_append]
  split
  · rfl
  next h => simp [BitVec.getLsbD_of_ge x j (by omega)]

/-- STATUS bit by bit (10_state.md R36): eight flags, then ERRCODE, then zeros. -/
theorem State.statusWord_getLsbD (s : State) : ∀ j, s.statusWord.getLsbD j =
    match j with
    | 0 => s.busy
    | 1 => s.err
    | 2 => s.found
    | 3 => s.frozen
    | 4 => s.fs1
    | 5 => s.fs0
    | 6 => s.stickyErr
    | 7 => s.overrun
    | k + 8 => s.errCode.getLsbD k
  | 0 | 1 | 2 | 3 | 4 | 5 | 6 | 7 => by
    simp only [State.statusWord, getLsbD_append_bit_succ, getLsbD_append_bit_zero]
  | k + 8 => by
    simp only [State.statusWord, getLsbD_append_bit_succ]
    exact getLsbD_zero_append _ _

/-- STATUS bits 11:8 are ERRCODE (10_state.md R36, R44). -/
theorem State.statusWord_errCode (s : State) : s.statusWord.extractLsb' 8 4 = s.errCode := by
  refine BitVec.eq_of_getLsbD_eq fun j hj => ?_
  rw [BitVec.getLsbD_extractLsb', Nat.add_comm, State.statusWord_getLsbD]
  simp [hj]

/-- STATUS bits 31:12 read 0 (10_state.md R45). -/
theorem State.statusWord_reserved (s : State) : s.statusWord.extractLsb' 12 20 = 0 := by
  refine BitVec.eq_of_getLsbD_eq fun j hj => ?_
  rw [BitVec.getLsbD_extractLsb', show 12 + j = j + 4 + 8 by omega, State.statusWord_getLsbD]
  simp

/-- Settles O11, from the bits of the STATUS word. -/
theorem statusWordFields : Obligations.StatusWordFields := by
  intro s
  have hbit := s.statusWord_getLsbD
  exact ⟨hbit 0, hbit 1, hbit 2, hbit 3, hbit 4, hbit 5, hbit 6, hbit 7, s.statusWord_errCode, s.statusWord_reserved, rfl⟩

/-! ### A write of STATUS -/

/-- The two write-1-to-clear bits of STATUS are 6 and 7 (10_state.md R45). -/
theorem w1cMask_getLsbD : ∀ j, (0xC0 : Word32).getLsbD j = (j == 6 || j == 7)
  | 0 | 1 | 2 | 3 | 4 | 5 | 6 | 7 => by decide
  | k + 8 => by
    have hlt : 0xC0 < 2 ^ (k + 8) := Nat.lt_of_lt_of_le (by decide) (Nat.pow_le_pow_right (by decide) (Nat.le_add_left 8 k))
    exact Nat.testBit_lt_two_pow hlt

/-- A STATUS write of `v` clears the bits 6 and 7 that are 1 in `v` (10_state.md R45). -/
theorem State.writeStatus_statusWord (s : State) (v : Word32) :
    (s.writeStatus v).statusWord = s.statusWord &&& ~~~(v &&& 0xC0) := by
  refine BitVec.eq_of_getLsbD_eq fun j hj => ?_
  rw [BitVec.getLsbD_and, BitVec.getLsbD_not, BitVec.getLsbD_and, w1cMask_getLsbD, State.statusWord_getLsbD,
    State.statusWord_getLsbD]
  match j with
  | 0 | 1 | 2 | 3 | 4 | 5 | 6 | 7 => simp [State.writeStatus, State.busy]
  | k + 8 => simp [State.writeStatus, hj]

/-! ### Reserved offsets -/

/-- Past MAXBITS there is no register (10_state.md R31, R45). -/
theorem State.reg64_reserved (s : State) {off : Nat} (h : 0x38 ≤ off) : s.reg64 off = 0 := by
  unfold State.reg64
  split
  case h_7 => rfl
  all_goals omega

theorem State.reg32_reserved (s : State) {off : Nat} (h : 0x38 ≤ off) (h4 : off % 4 = 0) : s.reg32 off = 0 := by
  unfold State.reg32
  split
  · rfl
  · omega
  · split
    · rw [State.reg64_reserved s h]
      rfl
    · rw [State.reg64_reserved s (by omega)]
      rfl

theorem State.hostRead_reserved (s : State) {off : Nat} (h : 0x38 ≤ off) (width : Nat) : s.hostRead off width = 0 := by
  unfold State.hostRead
  split
  · rfl
  next hok =>
    split
    · exact s.reg64_reserved h
    · obtain ⟨-, h4⟩ | ⟨h64, -⟩ := accessOk_cases hok
      · rw [s.reg32_reserved h h4]
        rfl
      · contradiction

/-- Settles O10: `writeStatus` is the write, and past MAXBITS the window has no register. -/
theorem statusWriteClearsStickyBits : Obligations.StatusWriteClearsStickyBits := by
  refine ⟨fun s v => ⟨s.writeStatus v, rfl, fun x hx => ?_, s.writeStatus_statusWord v⟩, State.statusWord_reserved,
    fun s off width v h _ => ⟨s.hostRead_reserved h width, s.hostWrite_readOnly (by omega) width v⟩⟩
  rw [State.hostWrite_status, hx]

/-! ### The window after reset -/

theorem reset_reg64 {off : Nat} (h : off ≠ 0x30) : State.reset.reg64 off = 0 := by
  unfold State.reg64
  split
  case h_6 => contradiction
  all_goals rfl

theorem reset_reg32 {off : Nat} (h : off < 0x30) : State.reset.reg32 off = 0 := by
  unfold State.reg32
  split
  · rfl
  · decide
  · split
    · rw [reset_reg64 (by omega)]
      rfl
    · rw [reset_reg64 (by omega)]
      rfl

/-- Settles O18, register by register. -/
theorem resetWindowReads : Obligations.ResetWindowReads := by
  refine ⟨fun off width h => ?_, rfl, rfl⟩
  unfold State.hostRead
  split
  · rfl
  · split
    · exact reset_reg64 (by omega)
    · rw [reset_reg32 h]
      rfl

end
end Sys2Proof.Machine

/-! SUPPORT. What a command does not read: where two states differ only in what it does not read, it does the same in both. -/

namespace Sys2Proof.Machine

section
variable {s u : State} {i : Instr} {g : State → State}

/-- `u` shows command `i` what `s` shows it, and each way a command ends (60_exceptions.md R292 to R295) leaves in `u` what `g`
makes of what it leaves in `s`. -/
structure CarriesOver (i : Instr) (s u : State) (g : State → State) : Prop where
  vector : u.SameVector s
  maxBits : u.maxBits = s.maxBits
  opnd0 : u.opnd0 = s.opnd0
  opnd1 : i = .selw ∨ i = .bvWrword → u.opnd1 = s.opnd1
  rix : isRi i = true → u.rix = s.rix
  raised : ∀ c, u.raiseFault c = g (s.raiseFault c) := by intros; rfl
  notFound : u.notFound = g s.notFound := by rfl
  result : ∀ v, u.completeWith v = g (s.completeWith v) := by intros; rfl
  rixWritten : isRi i = true → ∀ e, { u.complete with rix := e } = g { s.complete with rix := e } := by intros; rfl
  stored : ∀ n m, { u.complete with size := n, blk := m } = g { s.complete with size := n, blk := m } := by intros; rfl
  vectorWritten : ∀ n o f f1 f0 m rt s1 s0,
    { u.complete with size := n, ones := o, frozen := f, fs1 := f1, fs0 := f0, blk := m, rt := rt, s1 := s1, s0 := s0 } =
      g { s.complete with
        size := n, ones := o, frozen := f, fs1 := f1, fs0 := f0, blk := m, rt := rt, s1 := s1, s0 := s0 } := by intros; rfl

@[simp] theorem andThen_next {α β : Type} (a : α) (f : α → Host.Outcome β Fault Refusal) : andThen (.next a) f = f a := rfl

theorem andThen_ite {α β : Type} (c : Prop) [Decidable c] (a b : Host.Outcome α Fault Refusal) (f : α → Host.Outcome β Fault Refusal) :
    andThen (if c then a else b) f = if c then andThen a f else andThen b f := by
  split <;> rfl

theorem writeBit_blk_congr {x y : State} (h : x.blk = y.blk) (j : Nat) (v : Bool) : (x.writeBit j v).blk = (y.writeBit j v).blk := by
  simp only [State.writeBit, State.writeBlk_blk, h]

namespace CarriesOver

theorem index (h : CarriesOver i s u g) : u.index = s.index := congrArg BitVec.toNat h.opnd0

/-- Raising a fault in `u` is raising it in `s`, carried over. -/
theorem raise (h : CarriesOver i s u g) (c : ErrCode) :
    (.next (u.raiseFault c) : Result) = andThen (.next (s.raiseFault c)) fun t => .next (g t) := congrArg _ (h.raised c)

theorem finish (h : CarriesOver i s u g) (r : Except Fault Nat) : u.finish r = andThen (s.finish r) fun t => .next (g t) := by
  cases r with
  | ok n => exact congrArg _ (h.result _)
  | error f => rfl

theorem whenFrozen (h : CarriesOver i s u g) {a b : Result} (hab : a = andThen b fun t => .next (g t)) :
    (if u.frozen = false then .next (u.raiseFault .notBuilt) else a) =
      andThen (if s.frozen = false then .next (s.raiseFault .notBuilt) else b) fun t => .next (g t) := by
  obtain ⟨-, -, hfrozen, -⟩ := h.vector
  rw [andThen_ite, hfrozen, h.raise, hab]

theorem selectBody (h : CarriesOver i s u g) (v : Bool) :
    selectBody v u = andThen (selectBody v s) fun t => .next (g t) := by
  refine h.whenFrozen ?_
  rw [andThen_ite, h.vector.countOf, h.index, h.vector.selectAt, h.finish, h.notFound, andThen_next]

/-- Completing after writes of the bit store that give both states the same size and words. -/
theorem complete_stored (h : CarriesOver i s u g) {s' u' : State} (hs : s' = { s with size := s'.size, blk := s'.blk })
    (hu : u' = { u with size := u'.size, blk := u'.blk }) (hsize : u'.size = s'.size) (hblk : u'.blk = s'.blk) :
    u'.complete = g s'.complete :=
  calc u'.complete = { u.complete with size := s'.size, blk := s'.blk } := by rw [hu, hsize, hblk]; rfl
    _ = g { s.complete with size := s'.size, blk := s'.blk } := h.stored _ _
    _ = g s'.complete := congrArg (fun x => g x.complete) hs.symm

theorem grow_blk (h : CarriesOver i s u g) (n : Nat) : (u.grow n).blk = (s.grow n).blk := by
  obtain ⟨-, -, -, -, -, hblk, -⟩ := h.vector
  rw [State.grow_blk, State.grow_blk, hblk, h.vector.nb]

theorem execBvSet (h : CarriesOver i s u g) (v : Bool) : execBvSet v u = andThen (execBvSet v s) fun t => .next (g t) := by
  obtain ⟨hsize, -, hfrozen, -, -, hblk, -⟩ := h.vector
  refine congrArg Host.Outcome.next ?_
  rw [hfrozen, h.index, h.maxBits, hsize]
  split
  · exact h.raised _
  · split
    · exact h.raised _
    · split
      · exact h.complete_stored rfl rfl rfl (writeBit_blk_congr (h.grow_blk _) _ v)
      · exact h.complete_stored rfl rfl hsize (writeBit_blk_congr hblk _ v)

theorem execBvPush (h : CarriesOver i s u g) (v : Bool) : execBvPush v u = andThen (execBvPush v s) fun t => .next (g t) := by
  obtain ⟨hsize, -, hfrozen, -⟩ := h.vector
  refine congrArg Host.Outcome.next ?_
  simp only [hfrozen, h.maxBits, hsize, h.grow_blk]
  split
  · exact h.raised _
  · split
    · exact h.raised _
    · exact h.complete_stored rfl rfl rfl (congrArg (BlockMem.write · _ _) (h.grow_blk _))

theorem execBvWrword (h : CarriesOver i s u g) (h1 : u.opnd1 = s.opnd1) :
    execBvWrword u = andThen (execBvWrword s) fun t => .next (g t) := by
  obtain ⟨hsize, -, hfrozen, -, -, hblk, -⟩ := h.vector
  have hbits : u.bitsInWord u.index = s.bitsInWord s.index := by
    unfold State.bitsInWord
    rw [hsize, h.index]
  unfold Machine.execBvWrword
  rw [hbits, hfrozen, h.vector.nb, h.index, h1, andThen_ite, andThen_ite, h.raise, h.raise]
  congr 2
  exact congrArg Host.Outcome.next (h.complete_stored rfl rfl hsize (congrArg (BlockMem.write · _ _) hblk))

theorem execBvRdword (h : CarriesOver i s u g) : execBvRdword u = andThen (execBvRdword s) fun t => .next (g t) := by
  unfold Machine.execBvRdword
  rw [h.vector.nb, h.index, andThen_ite, h.raise, h.vector.blkWord]
  congr 1
  cases s.blkWord s.index with
  | ok w => exact congrArg Host.Outcome.next (h.result w)
  | error f => rfl

theorem execBvBuild (h : CarriesOver i s u g) (fs1 fs0 : Bool) :
    execBvBuild fs1 fs0 u = andThen (execBvBuild fs1 fs0 s) fun t => .next (g t) := by
  obtain ⟨hsize, -, hfrozen, -, -, hblk, -⟩ := h.vector
  unfold Machine.execBvBuild
  rw [hfrozen, andThen_ite, h.raise, h.vector.buildPass, h.vector.nb]
  congr 1
  cases buildPass s fs1 fs0 s.nb with
  | ok a =>
    have hw := h.vectorWritten s.size (BitVec.ofNat 32 a.c1) true fs1 fs0 s.blk (finishRankTable s.nb a.c1 a.rt)
      (if fs1 then a.l1 ++ [s.size] else []) (if fs0 then a.l0 ++ [s.size] else [])
    refine congrArg Host.Outcome.next (Eq.trans ?_ hw)
    simp [hsize, hblk, State.complete]
  | error f => rfl

end CarriesOver

/-- A command does in `u` what it does in `s`, carried over. -/
theorem exec_carriesOver (h : CarriesOver i s u g) : exec i u = andThen (exec i s) fun t => .next (g t) := by
  have hv := h.vector
  obtain ⟨hsize, -, -, -, -, -, hrt, -⟩ := id hv
  cases i with
  | popcnt =>
    simp only [exec, execPopcnt, h.opnd0, h.result, andThen_next]
  | selw =>
    simp only [exec, execSelw, h.opnd0, h.opnd1 (by simp), h.notFound, h.finish, andThen_ite, andThen_next]
  | riClr => exact congrArg _ (h.rixWritten rfl _)
  | riSetabs =>
    simp only [exec, execRiSetabs, h.opnd0, h.rix rfl, h.rixWritten rfl, andThen_next]
  | riSetrel k =>
    simp only [exec, execRiSetrel, h.opnd0, h.rix rfl, h.rixWritten rfl, h.raised, andThen_ite, andThen_next]
  | riGetabs =>
    simp only [exec, execRiGetabs, h.rix rfl, h.result, andThen_next]
  | riGetrel k =>
    simp only [exec, execRiGetrel, h.rix rfl, h.result, h.raised, andThen_ite, andThen_next]
  | riLoad =>
    refine h.whenFrozen ?_
    rw [andThen_ite, hrt, h.index, h.raise, hv.rtEntry]
    cases s.rtEntry s.index with
    | ok e => simp only [h.rixWritten rfl, andThen_next]
    | error f => rfl
  | riGetpack =>
    simp only [exec, execRiGetpack, h.rix rfl, h.result, andThen_next]
  | riSetpack =>
    simp only [exec, execRiSetpack, h.opnd0, h.rix rfl, h.rixWritten rfl, andThen_next]
  | bvClear => exact congrArg _ (h.vectorWritten _ _ _ _ _ _ _ _ _)
  | bvSet v => exact h.execBvSet v
  | bvPush v => exact h.execBvPush v
  | bvGet =>
    simp only [exec, execBvGet, hsize, h.index, h.raised, h.finish, hv.blkWord, andThen_ite, andThen_next]
  | bvWrword => exact h.execBvWrword (h.opnd1 (by simp))
  | bvRdword => exact h.execBvRdword
  | bvBuild fs1 fs0 => exact h.execBvBuild fs1 fs0
  | rank0 =>
    refine h.whenFrozen ?_
    simp only [hsize, h.index, h.raised, h.finish, hv.rank1At, andThen_ite, andThen_next]
  | rank1 =>
    refine h.whenFrozen ?_
    simp only [hsize, h.index, h.raised, h.finish, hv.rank1At, andThen_ite, andThen_next]
  | count0 =>
    refine h.whenFrozen ?_
    simp only [hv.countOf, h.result, andThen_next]
  | count1 =>
    refine h.whenFrozen ?_
    simp only [hv.countOf, h.result, andThen_next]
  | rtLen =>
    refine h.whenFrozen ?_
    simp only [hrt, h.result, andThen_next]
  | select0 => exact h.selectBody false
  | select1 => exact h.selectBody true
  | smpLen v =>
    refine h.whenFrozen ?_
    simp only [hv.samples, h.result, andThen_next]
  | smpRead v =>
    refine h.whenFrozen ?_
    simp only [hv.samples, hv.sample, h.index, h.raised, h.finish, andThen_ite, andThen_next]


/-! ### The operand registers -/

/-- With a command latched, no command reads the register ARG0 (10_state.md R33). -/
theorem carriesOver_arg0 {l : Latched} (hl : s.running = some l) (i : Instr) (v : Word) :
    CarriesOver i s { s with arg0 := v } fun t => { t with arg0 := v } where
  vector := .refl s
  maxBits := rfl
  opnd0 := (State.opnd0_latched (s := { s with arg0 := v }) hl).trans (State.opnd0_latched hl).symm
  opnd1 _ := rfl
  rix _ := rfl

/-- Settles O14: a new ARG0 carries every command over to the same effect. -/
theorem arg0IsLatched : Obligations.Arg0IsLatched := by
  refine ⟨fun s c hidle => ?_, fun i s l v hl => exec_carriesOver (carriesOver_arg0 hl i v), fun s l v hl => ?_,
    fun i s t ht => (exec_frame ht).arg0, rfl⟩
  · rw [State.writeCmd_idle hidle]
    rfl
  · exact ⟨State.opnd0_latched hl, rfl, hl, State.opnd0_latched (s := { s with arg0 := v }) hl⟩

/-- With a command latched, no command reads the register ARG1 (10_state.md R34). -/
theorem carriesOver_arg1 {l : Latched} (hl : s.running = some l) (i : Instr) (v : Word) :
    CarriesOver i s { s with arg1 := v } fun t => { t with arg1 := v } where
  vector := .refl s
  maxBits := rfl
  opnd0 := rfl
  opnd1 _ := (State.opnd1_latched (s := { s with arg1 := v }) hl).trans (State.opnd1_latched hl).symm
  rix _ := rfl

/-- Only SELW and BV_WRWORD read the latched ARG1 (10_state.md R34). -/
theorem carriesOver_latchedArg1 {l : Latched} (hl : s.running = some l) (hselw : i ≠ .selw) (hwr : i ≠ .bvWrword) (v : Word) :
    CarriesOver i s { s with running := some { l with arg1 := v } } id where
  vector := .refl s
  maxBits := rfl
  opnd0 := (State.opnd0_latched hl).symm
  opnd1 hi := absurd hi (not_or.mpr ⟨hselw, hwr⟩)
  rix _ := rfl

theorem andThen_next_self (r : Result) : (andThen r fun t => .next t) = r := by
  cases r <;> rfl

/-- Settles O15: so does a new ARG1, and a new latched ARG1 for all but SELW and BV_WRWORD. -/
theorem arg1IsLatched : Obligations.Arg1IsLatched := by
  refine ⟨fun s c hidle => ?_, fun i s l v hl => exec_carriesOver (carriesOver_arg1 hl i v), fun s l v hl => ?_,
    fun i s t ht => (exec_frame ht).arg1, rfl, fun i s l v hselw hwr hl => ?_⟩
  · rw [State.writeCmd_idle hidle]
    rfl
  · exact ⟨State.opnd1_latched hl, rfl, hl, State.opnd1_latched (s := { s with arg1 := v }) hl⟩
  · exact (exec_carriesOver (carriesOver_latchedArg1 hl hselw hwr v)).trans (andThen_next_self _)

/-! ### RIX -/

/-- A command that is no RI_ command neither reads nor writes RIX (10_state.md R49). -/
theorem carriesOver_rix (hi : isRi i = false) (s : State) (e : RankEntry) :
    CarriesOver i s { s with rix := e } fun t => { t with rix := e } where
  vector := .refl s
  maxBits := rfl
  opnd0 := rfl
  opnd1 _ := rfl
  rix hri := absurd (hi.symm.trans hri) (by decide)
  rixWritten hri := absurd (hi.symm.trans hri) (by decide)

/-- Settles O24: so does a new RIX for every command that is no RI_ command. -/
theorem rixOnlyByRiCommands : Obligations.RixOnlyByRiCommands := by
  refine ⟨fun i s t e hi ht => ⟨exec_rix hi ht, ?_⟩, fun s e off width => rfl, rfl⟩
  rw [exec_carriesOver (carriesOver_rix hi s e), ht, andThen_next]

end

end Sys2Proof.Machine

/-! SUPPORT. From a state of the invariant every datapath ends, and so does every command and every step. -/

namespace Sys2Proof.Machine

section
variable {s : State} {v : Bool}

/-! ### Datapaths -/

/-- The counts the select unit compares with are those of the vector (42_bitvector.md R208, 44_select.md R260). -/
theorem State.Inv.countOf_eq (h : s.Inv) (hf : s.frozen = true) (v : Bool) : s.countOf v = s.rank v s.size.toNat := by
  have hones := h.onesOk hf
  have hsum := State.rank_add_rank (s := s) (Nat.le_refl s.size.toNat)
  cases v with
  | true => exact hones
  | false =>
    show s.size.toNat - s.ones.toNat = _
    omega

/-- An existing word is read (20_memory.md R88). -/
theorem State.blkWord_of_lt_nb {w : Nat} (h : w < s.nb) : s.blkWord w = .ok (s.blk.read w) := if_pos h

/-- The select datapath finds every `v`-bit there is (44_select.md R264, R268). -/
theorem State.Inv.selectAt_ends (h : s.Inv) (hf : s.frozen = true) {x : Nat} (hx : x < s.countOf v) :
    ∃ p, selectAt s v x = .ok p := by
  obtain ⟨p, -, hp⟩ := State.exists_isSelect (h.countOf_eq hf v ▸ hx)
  exact ⟨p, selectAt_eq h.padding (h.rankTable hf) (h.sampling hf v) hx hp⟩

/-- BV_BUILD in the build phase commits what its pass ends in (42_bitvector.md R197). -/
theorem execBvBuild_of_building (hpad : ∀ p, s.size.toNat ≤ p → s.bit p = false) (hf : s.frozen = false) (fs1 fs0 : Bool) :
    ∃ a, execBvBuild fs1 fs0 s = .next (s.builtWith fs1 fs0 a) := by
  obtain ⟨a, ha, -⟩ := buildPass_ok hpad fs1 fs0 (Nat.le_refl s.nb)
  refine ⟨a, ?_⟩
  rw [execBvBuild, if_neg (by simp [hf]), ha]
  rfl

/-! ### Commands -/

/-- The model does not stop: a next state is answered. -/
def Answers (r : Result) : Prop := ∃ t, r = .next t

theorem answers_next (t : State) : Answers (.next t) := ⟨t, rfl⟩

theorem answers_ite {c : Prop} [Decidable c] {a b : Result} (ha : c → Answers a) (hb : ¬c → Answers b) :
    Answers (if c then a else b) := by
  split
  · exact ha ‹_›
  · exact hb ‹_›

theorem answers_finish {r : Except Fault Nat} {n : Nat} (h : r = .ok n) : Answers (s.finish r) := h ▸ answers_next _

/-- A command that tests the phase first answers if it does on a frozen vector (60_exceptions.md R294). -/
theorem answers_whenFrozen {r : Result} (h : s.frozen = true → Answers r) :
    Answers (if s.frozen = false then .next (s.raiseFault .notBuilt) else r) :=
  answers_ite (fun _ => answers_next _) fun hf => h ((Bool.not_eq_false _).mp hf)

theorem execSelw_answers (s : State) : Answers (execSelw s) := by
  refine answers_ite (fun _ => answers_next _) fun hr => ?_
  obtain ⟨p, hp, -⟩ := selw_spec (Nat.lt_of_not_le hr)
  exact answers_finish hp

theorem execRiLoad_answers (s : State) : Answers (execRiLoad s) := by
  refine answers_whenFrozen fun _ => answers_ite (fun _ => answers_next _) fun hg => ?_
  rw [State.rtEntry_ok (List.getElem?_eq_getElem (Nat.lt_of_not_le hg))]
  exact answers_next _

theorem execBvGet_answers (s : State) : Answers (execBvGet s) := by
  refine answers_ite (fun _ => answers_next _) fun hi => ?_
  rw [State.blkWord_of_lt_nb (State.word_lt_nb (Nat.lt_of_not_le hi))]
  exact answers_next _

theorem execBvRdword_answers (s : State) : Answers (execBvRdword s) := by
  refine answers_ite (fun _ => answers_next _) fun hw => ?_
  rw [State.blkWord_of_lt_nb (Nat.lt_of_not_le hw)]
  exact answers_next _

theorem execBvBuild_answers (h : s.Inv) (fs1 fs0 : Bool) : Answers (execBvBuild fs1 fs0 s) := by
  cases hf : s.frozen with
  | true => exact ⟨_, if_pos hf⟩
  | false =>
    obtain ⟨a, ha⟩ := execBvBuild_of_building h.padding hf fs1 fs0
    exact ⟨_, ha⟩

theorem execRank1_answers (h : s.Inv) : Answers (execRank1 s) :=
  answers_whenFrozen fun hf => answers_ite (fun _ => answers_next _) fun hi =>
    answers_finish (rank1At_eq h.padding (h.rankTable hf) (Nat.le_of_not_lt hi))

theorem execRank0_answers (h : s.Inv) : Answers (execRank0 s) := by
  refine answers_whenFrozen fun hf => answers_ite (fun _ => answers_next _) fun hi => ?_
  rw [rank1At_eq h.padding (h.rankTable hf) (Nat.le_of_not_lt hi)]
  exact answers_next _

theorem selectBody_answers (h : s.Inv) (v : Bool) : Answers (selectBody v s) := by
  refine answers_whenFrozen fun hf => answers_ite (fun _ => answers_next _) fun hx => ?_
  obtain ⟨p, hp⟩ := h.selectAt_ends hf (Nat.lt_of_not_le hx)
  exact answers_finish hp

theorem execSmpRead_answers (s : State) (v : Bool) : Answers (execSmpRead v s) :=
  answers_whenFrozen fun _ => answers_ite (fun _ => answers_next _) fun hk =>
    answers_finish (State.sample_ok (List.getElem?_eq_getElem (Nat.lt_of_not_le hk)))

/-- From a state of the invariant every command answers a next state. -/
theorem exec_answers (h : s.Inv) (i : Instr) : Answers (exec i s) := by
  cases i with
  | popcnt | riClr | riSetabs | riGetabs | riGetpack | riSetpack | bvClear | bvSet | bvPush => exact answers_next _
  | selw => exact execSelw_answers s
  | riSetrel | riGetrel => exact answers_ite (fun _ => answers_next _) fun _ => answers_next _
  | riLoad => exact execRiLoad_answers s
  | bvGet => exact execBvGet_answers s
  | bvWrword => exact answers_ite (fun _ => answers_next _) fun _ => answers_ite (fun _ => answers_next _) fun _ => answers_next _
  | bvRdword => exact execBvRdword_answers s
  | bvBuild fs1 fs0 => exact execBvBuild_answers h fs1 fs0
  | rank0 => exact execRank0_answers h
  | rank1 => exact execRank1_answers h
  | count0 | count1 | rtLen | smpLen => exact answers_whenFrozen fun _ => answers_next _
  | select0 | select1 => exact selectBody_answers h _
  | smpRead v => exact execSmpRead_answers s v

/-! ### Steps -/

theorem engineTurn_answers (h : s.Inv) : Answers s.engineTurn := by
  unfold State.engineTurn
  split
  · exact answers_next _
  · split
    · exact exec_answers h _
    · exact answers_next _

/-- Every event but the engine's turn is answered with a next state, in every state: there is no bus error (20_memory.md R78). -/
theorem takeEvent_answers (s : State) {e : HostEvent} (he : e ≠ .engine) : Answers (s.takeEvent e) := by
  cases e with
  | engine => exact absurd rfl he
  | read | write | reset => exact answers_next _

theorem step_answers (h : s.Inv) : Answers (step s) := by
  cases ha : s.agenda with
  | nil => exact step_engine_of_empty ha ▸ engineTurn_answers h
  | cons e rest =>
    rw [step_event ha]
    by_cases he : e = .engine
    · exact he ▸ engineTurn_answers (h.setAgenda rest)
    · exact takeEvent_answers _ he

/-- Settles O21: the datapaths make only the accesses of 20_memory.md R88, 40_popcount.md R143 and 44_select.md R264. -/
theorem invariantNeverStops : Obligations.InvariantNeverStops :=
  fun _ h => ⟨exec_answers h, step_answers h⟩

end

end Sys2Proof.Machine

/-! SUPPORT. Settled: which accesses the window takes and what they return, and what the host sees and can change while a command
runs. -/

namespace Sys2Proof.Machine

section
variable {s : State}

/-! ### Accesses -/

/-- The low half of a register, as a 32-bit read returns it (20_memory.md R78). -/
theorem toNat_lowHalf (r : Word) : ((r.extractLsb' 0 32).setWidth 64).toNat = r.toNat % 2 ^ 32 := by
  rw [BitVec.toNat_setWidth_of_le (by decide), BitVec.extractLsb'_toNat, Nat.shiftRight_zero]

/-- The high half of a register, as a 32-bit read returns it (20_memory.md R78). -/
theorem toNat_highHalf (r : Word) : ((r.extractLsb' 32 32).setWidth 64).toNat = r.toNat / 2 ^ 32 := by
  have := r.isLt
  rw [BitVec.toNat_setWidth_of_le (by decide), BitVec.extractLsb'_toNat, Nat.shiftRight_eq_div_pow, Nat.mod_eq_of_lt (by omega)]

/-- Every access but those of 20_memory.md R78 is refused. -/
theorem accessOk_eq_false {off width : Nat} (h32 : ¬(width = 32 ∧ off % 4 = 0)) (h64 : ¬(width = 64 ∧ off % 8 = 0 ∧ off ≠ 0)) :
    accessOk off width = false := by
  by_contra hok
  exact (accessOk_cases hok).elim h32 h64

/-- A refused access reads 0. -/
theorem State.hostRead_refused (s : State) {off width : Nat} (h : accessOk off width = false) : s.hostRead off width = 0 :=
  if_pos h

/-- A refused access writes nothing. -/
theorem State.hostWrite_refused (s : State) {off width : Nat} (h : accessOk off width = false) (v : Word) :
    s.hostWrite off width v = s := if_pos h

/-- Settles O12: the registers one by one, and the accesses `accessOk` refuses. -/
theorem windowAccessWidths : Obligations.WindowAccessWidths := by
  refine ⟨fun s off r hr => ?_, fun s v => ⟨rfl, rfl, rfl, rfl, rfl, rfl⟩, fun s off width v h32 h64 => ?_,
    fun s e rest ha he => ?_⟩
  · simp only [List.mem_cons, Prod.mk.injEq, List.not_mem_nil, or_false] at hr
    obtain ⟨rfl, rfl⟩ | ⟨rfl, rfl⟩ | ⟨rfl, rfl⟩ | ⟨rfl, rfl⟩ | ⟨rfl, rfl⟩ | ⟨rfl, rfl⟩ := hr
    all_goals exact ⟨rfl, toNat_lowHalf _, toNat_highHalf _⟩
  · have hok := accessOk_eq_false h32 h64
    exact ⟨s.hostRead_refused hok, s.hostWrite_refused hok v⟩
  · rw [step_event ha]
    exact takeEvent_answers _ he

/-- A read in the window returns what the register shows and records it (log entry 3). -/
theorem State.busRead_base {off : Nat} (h : off < 256) (width : Nat) :
    s.busRead (Config.regBase + off) width = { s with rdata := s.hostRead off width } := by
  simp [State.busRead, windowOffset_base h]

/-- Settles O13, by the read of a window offset and the writes that no register takes. -/
theorem readsHaveNoSideEffects : Obligations.ReadsHaveNoSideEffects := by
  refine ⟨fun s off width rest hoff ha => ?_, fun s off width v h => s.hostWrite_readOnly h width v⟩
  rw [step_event ha, State.takeEvent, State.busRead_base hoff]
  rfl

/-! ### While a command runs -/

/-- What a host access can do while a command runs: write ARG0, ARG1, OVERRUN and the value read, and clear STICKY_ERR
(20_memory.md R90, 60_exceptions.md R299). -/
def BusyFrame (s t : State) : Prop :=
  t = { s with arg0 := t.arg0, arg1 := t.arg1, stickyErr := t.stickyErr, overrun := t.overrun, rdata := t.rdata } ∧
    (t.stickyErr = true → s.stickyErr = true)

theorem BusyFrame.refl (s : State) : BusyFrame s s := ⟨rfl, id⟩

theorem writeStatus_busyFrame (s : State) (v : Word32) : BusyFrame s (s.writeStatus v) :=
  ⟨rfl, fun h => ((Bool.and_eq_true _ _).mp h).1⟩

theorem hostWrite_busyFrame {l : Latched} (hl : s.running = some l) (off width : Nat) (v : Word) :
    BusyFrame s (s.hostWrite off width v) := by
  obtain h | ⟨-, -, h⟩ | ⟨-, -, h⟩ | ⟨a, h⟩ | ⟨a, h⟩ := hostWrite_cases s off width v
  all_goals rw [h]
  · exact .refl s
  · rw [State.writeCmd_busy (State.busy_of_running hl)]
    exact ⟨rfl, id⟩
  · exact writeStatus_busyFrame s _
  · exact ⟨rfl, id⟩
  · exact ⟨rfl, id⟩

theorem busWrite_busyFrame {l : Latched} (hl : s.running = some l) (addr width : Nat) (v : Word) :
    BusyFrame s (s.busWrite addr width v) := by
  obtain h | ⟨off, -, h⟩ := busWrite_cases s addr width v
  all_goals rw [h]
  · exact .refl s
  · exact hostWrite_busyFrame hl off width v

theorem busRead_busyFrame (s : State) (addr width : Nat) : BusyFrame s (s.busRead addr width) := by
  obtain ⟨r, hr⟩ := busRead_frame s addr width
  rw [hr]
  exact ⟨rfl, id⟩

/-- Settles O16, by the two kinds of host access. -/
theorem busyShowsOldValues : Obligations.BusyShowsOldValues := by
  intro s t l e rest hl ha he hreset ht
  rw [step_event ha] at ht
  have hl : State.running { s with agenda := rest } = some l := hl
  cases e with
  | engine => exact absurd rfl he
  | reset => exact absurd rfl hreset
  | read addr width => exact Host.Outcome.next.inj ht ▸ busRead_busyFrame _ addr width
  | write addr width data => exact Host.Outcome.next.inj ht ▸ busWrite_busyFrame hl addr width data

end

end Sys2Proof.Machine

/-! SUPPORT. A query answers what the bit vector and its operands determine (20_memory.md R92). -/

namespace Sys2Proof.Machine

section
variable {s t : State} {i : Instr}

/-- The two ends of a query `i`, from states `s` and `t`: the same fault, both NotFound, the same result or the same entry in RIX,
and nothing else changed; or the same stop. -/
inductive SameEnd (i : Instr) (s t : State) : Result → Result → Prop where
  | raised (c : ErrCode) : SameEnd i s t (.next (s.raiseFault c)) (.next (t.raiseFault c))
  | notFound (hi : i ≠ .riLoad) : SameEnd i s t (.next s.notFound) (.next t.notFound)
  | result (hi : i ≠ .riLoad) (v : Word) : SameEnd i s t (.next (s.completeWith v)) (.next (t.completeWith v))
  | rix (hi : i = .riLoad) (e : RankEntry) : SameEnd i s t (.next { s.complete with rix := e }) (.next { t.complete with rix := e })
  | stopped (f : Fault) : SameEnd i s t (.fault f) (.fault f)

namespace SameEnd

theorem ite {c : Prop} [Decidable c] {a b a' b' : Result} (ha : SameEnd i s t a a') (hb : SameEnd i s t b b') :
    SameEnd i s t (if c then a else b) (if c then a' else b') := by
  split
  · exact ha
  · exact hb

theorem finish (hi : i ≠ .riLoad) (r : Except Fault Nat) : SameEnd i s t (s.finish r) (t.finish r) := by
  cases r with
  | ok n => exact .result hi _
  | error f => exact .stopped f

/-- A query that tests the phase first ends alike if it does on a frozen vector. -/
theorem whenFrozen (hv : s.SameVector t) {a b : Result} (h : SameEnd i s t a b) :
    SameEnd i s t (if s.frozen = false then .next (s.raiseFault .notBuilt) else a)
      (if t.frozen = false then .next (t.raiseFault .notBuilt) else b) := by
  obtain ⟨-, -, hfrozen, -⟩ := hv
  rw [hfrozen]
  exact ite (.raised _) h

theorem selectBody (hi : i ≠ .riLoad) (hv : s.SameVector t) (hindex : s.index = t.index) (v : Bool) :
    SameEnd i s t (selectBody v s) (selectBody v t) := by
  refine whenFrozen hv ?_
  rw [hv.countOf, hindex, hv.selectAt]
  exact ite (.notFound hi) (finish hi _)

/-- A query leaves the bit vector as it was. -/
theorem sameVector {r r' : Result} (h : SameEnd i s t r r') {s' : State} (hr : r = .next s') : s.SameVector s' := by
  cases h with
  | stopped => nomatch hr
  | raised | notFound | result | rix => exact Host.Outcome.next.inj hr ▸ .refl s

/-- Queries that end alike answer alike. -/
theorem answers {r r' : Result} (h : SameEnd i s t r r') {s' : State} (hr : r = .next s') :
    ∃ t', r' = .next t' ∧ t'.err = s'.err ∧ t'.errCode = s'.errCode ∧ t'.found = s'.found ∧
      (s'.err = false → i ≠ .riLoad → t'.res = s'.res) ∧ (s'.err = false → i = .riLoad → t'.rix = s'.rix) := by
  cases h with
  | stopped => nomatch hr
  | raised c =>
    obtain rfl := Host.Outcome.next.inj hr
    exact ⟨_, rfl, rfl, rfl, rfl, (nomatch ·), (nomatch ·)⟩
  | notFound hi | result hi =>
    obtain rfl := Host.Outcome.next.inj hr
    exact ⟨_, rfl, rfl, rfl, rfl, fun _ _ => rfl, fun _ h => absurd h hi⟩
  | rix hi =>
    obtain rfl := Host.Outcome.next.inj hr
    exact ⟨_, rfl, rfl, rfl, rfl, fun _ h => absurd hi h, fun _ _ => rfl⟩

end SameEnd

/-- A query ends alike from two states with the same bit vector and operands. -/
theorem exec_sameEnd (hq : isQuery i = true) (hv : s.SameVector t) (h0 : s.opnd0 = t.opnd0) (h1 : s.opnd1 = t.opnd1) :
    SameEnd i s t (exec i s) (exec i t) := by
  have hindex : s.index = t.index := congrArg BitVec.toNat h0
  obtain ⟨hsize, -, -, -, -, -, hrt, -⟩ := id hv
  cases i with
  | popcnt =>
    simp only [exec, execPopcnt, h0]
    exact .result (by simp) _
  | selw =>
    simp only [exec, execSelw, h0, h1]
    exact .ite (.notFound (by simp)) (.finish (by simp) _)
  | riLoad =>
    refine .whenFrozen hv ?_
    rw [hrt, hindex, hv.rtEntry]
    refine .ite (.raised _) ?_
    cases t.rtEntry t.index with
    | ok e => exact .rix rfl e
    | error f => exact .stopped f
  | bvGet =>
    simp only [exec, execBvGet, hsize, hindex, hv.blkWord]
    exact .ite (.raised _) (.finish (by simp) _)
  | bvRdword =>
    simp only [exec, execBvRdword, hv.nb, hindex, hv.blkWord]
    refine .ite (.raised _) ?_
    cases t.blkWord t.index with
    | ok w => exact .result (by simp) w
    | error f => exact .stopped f
  | rank0 | rank1 =>
    refine .whenFrozen hv ?_
    rw [hsize, hindex, hv.rank1At]
    exact .ite (.raised _) (.finish (by simp) _)
  | count0 | count1 =>
    refine .whenFrozen hv ?_
    rw [hv.countOf]
    exact .result (by simp) _
  | rtLen =>
    refine .whenFrozen hv ?_
    rw [hrt]
    exact .result (by simp) _
  | select0 | select1 => exact .selectBody (by simp) hv hindex _
  | smpLen v =>
    refine .whenFrozen hv ?_
    rw [hv.samples]
    exact .result (by simp) _
  | smpRead v =>
    refine .whenFrozen hv ?_
    rw [hv.samples, hv.sample, hindex]
    exact .ite (.raised _) (.finish (by simp) _)
  | riClr | riSetabs | riSetrel | riGetabs | riGetrel | riGetpack | riSetpack => nomatch hq
  | bvClear | bvSet | bvPush | bvWrword | bvBuild => nomatch hq

/-- Settles O29: a query ends alike from two states with the same bit vector and operands. -/
theorem queriesArePure : Obligations.QueriesArePure := by
  intro i s t s' hq hv h0 h1 hs'
  have h := exec_sameEnd hq hv h0 h1
  exact ⟨h.sameVector hs', h.answers hs'⟩

end

end Sys2Proof.Machine

/-! SUPPORT. The record as bytes: numbers, elements and containers read back, how many bytes each reader takes, and where each field
stands (20_memory.md R79 to R83). -/

namespace Sys2Proof.Machine

/-! ### Numbers -/

@[simp] theorem bytesLE_length (n v : Nat) : (bytesLE n v).length = n := by
  induction n generalizing v with
  | zero => rfl
  | succ n ih => rw [bytesLE, List.length_cons, ih]

@[simp] theorem u64_length (v : Word) : (u64 v).length = 8 := bytesLE_length 8 _

@[simp] theorem u32_length (v : Word32) : (u32 v).length = 4 := bytesLE_length 4 _

@[simp] theorem entryBytes_length (e : RankEntry) : (entryBytes e).length = 16 := rfl

/-- Byte `j` of a number holds its bits `8j+7 : 8j` (20_memory.md R79). -/
theorem bytesLE_getElem? {n j : Nat} (v : Nat) (hj : j < n) : (bytesLE n v)[j]? = some (BitVec.ofNat 8 (v / 256 ^ j)) := by
  induction n generalizing v j with
  | zero => omega
  | succ n ih =>
    cases j with
    | zero => simp [bytesLE]
    | succ j =>
      rw [bytesLE, List.getElem?_cons_succ, ih _ (by omega), Nat.div_div_eq_div_mul, Nat.pow_succ']

/-- The bytes of a number hold the number, up to their width. -/
theorem numberLE_bytesLE (n v : Nat) : numberLE (bytesLE n v) = v % 256 ^ n := by
  induction n generalizing v with
  | zero => simp [numberLE, bytesLE, Nat.mod_one]
  | succ n ih =>
    rw [bytesLE, numberLE, ih, BitVec.toNat_ofNat, Nat.pow_succ' (m := 256)]
    exact Nat.mod_mul.symm

/-! ### Reading back -/

theorem readNumber_append {n : Nat} {bs : List Byte} (h : bs.length = n) (rest : List Byte) :
    readNumber n (bs ++ rest) = some (numberLE bs, rest) := by
  subst h
  simp [readNumber]

theorem readU64_append (v : Word) (rest : List Byte) : readU64 (u64 v ++ rest) = some (v, rest) := by
  rw [readU64, readNumber_append (u64_length v), u64, numberLE_bytesLE, show v.toNat % 256 ^ 8 = _ from Nat.mod_eq_of_lt v.isLt]
  simp

theorem readU32_append (v : Word32) (rest : List Byte) : readU32 (u32 v ++ rest) = some (v, rest) := by
  rw [readU32, readNumber_append (u32_length v), u32, numberLE_bytesLE, show v.toNat % 256 ^ 4 = _ from Nat.mod_eq_of_lt v.isLt]
  simp

/-- A rankTable element reads back, whatever its padding (20_memory.md R83). -/
theorem readEntry_padded (e : RankEntry) {padding : List Byte} (h : padding.length = 4) (rest : List Byte) :
    readEntry (u32 e.abs ++ padding ++ u64 e.rel ++ rest) = some (e, rest) := by
  simp [readEntry, readU32_append, readNumber_append h, readU64_append]

theorem readEntry_append (e : RankEntry) (rest : List Byte) : readEntry (entryBytes e ++ rest) = some (e, rest) :=
  readEntry_padded e (bytesLE_length 4 0) rest

section
variable {α : Type} {bytes : α → List Byte} {read : List Byte → Option (α × List Byte)}

theorem readElements_append (h : ∀ x rest, read (bytes x ++ rest) = some (x, rest)) (xs : List α) (rest : List Byte) :
    readElements read xs.length (xs.flatMap bytes ++ rest) = some (xs, rest) := by
  induction xs with
  | nil => rfl
  | cons x xs ih => simp [readElements, h, ih]

/-- A container reads back when its count fits a `u64` (20_memory.md R82). -/
theorem readContainer_append (h : ∀ x rest, read (bytes x ++ rest) = some (x, rest)) {xs : List α} (hlen : xs.length < 2 ^ 64)
    (rest : List Byte) : readContainer read (container bytes xs ++ rest) = some (xs, rest) := by
  have hn : (BitVec.ofNat 64 xs.length).toNat = xs.length := by rw [BitVec.toNat_ofNat, Nat.mod_eq_of_lt hlen]
  simp only [readContainer, container, List.append_assoc, readU64_append, Option.bind_eq_bind, Option.bind_some, hn,
    readElements_append h]

end

/-- Settles O54, field by field. -/
theorem recordBytesRoundTrip : Obligations.RecordBytesRoundTrip := by
  intro r hblocks hrank hs0 hs1
  have hlast := readContainer_append readU32_append hs1 []
  rw [List.append_nil] at hlast
  simp only [Record.ofBytes, Record.toBytes, List.append_assoc, readU64_append, readContainer_append readU64_append hblocks,
    readContainer_append readEntry_append hrank, readContainer_append readU32_append hs0, hlast, Option.bind_eq_bind,
    Option.bind_some]
  rfl

/-! ### How many bytes a reader takes -/

/-- The reader takes `k` bytes from the front. -/
def Takes {α : Type} (read : List Byte → Option (α × List Byte)) (k : Nat) : Prop :=
  ∀ bs x rest, read bs = some (x, rest) → bs.length = k + rest.length

theorem readNumber_takes (n : Nat) : Takes (readNumber n) n := by
  intro bs x rest h
  unfold readNumber at h
  split at h
  next hn =>
    simp only [Option.some.injEq, Prod.mk.injEq] at h
    obtain ⟨-, rfl⟩ := h
    rw [List.length_drop]
    omega
  · nomatch h

theorem Takes.map {α β : Type} {read : List Byte → Option (α × List Byte)} {k : Nat} (h : Takes read k) (f : α → β) :
    Takes (fun bs => (read bs).map fun p => (f p.1, p.2)) k := by
  intro bs x rest hx
  obtain ⟨⟨a, rest'⟩, ha, hp⟩ := Option.map_eq_some_iff.mp hx
  obtain ⟨-, rfl⟩ := Prod.mk.inj hp
  exact h _ _ _ ha

theorem readU64_takes : Takes readU64 8 := (readNumber_takes 8).map _

theorem readU32_takes : Takes readU32 4 := (readNumber_takes 4).map _

theorem readEntry_takes : Takes readEntry 16 := by
  intro bs x rest h
  simp only [readEntry, Option.bind_eq_bind, Option.bind_eq_some_iff, Option.pure_def, Option.some.injEq, Prod.mk.injEq] at h
  obtain ⟨⟨abs, bs1⟩, h1, ⟨pad, bs2⟩, h2, ⟨rel, bs3⟩, h3, -, rfl⟩ := h
  have habs : bs.length = 4 + bs1.length := readU32_takes _ _ _ h1
  have hpad : bs1.length = 4 + bs2.length := readNumber_takes _ _ _ _ h2
  have hrel : bs2.length = 8 + bs3.length := readU64_takes _ _ _ h3
  show bs.length = 16 + bs3.length
  omega

section
variable {α : Type} {read : List Byte → Option (α × List Byte)} {k : Nat} {xs : List α} {bs rest : List Byte}

theorem readElements_takes (hread : Takes read k) {n : Nat} (h : readElements read n bs = some (xs, rest)) :
    xs.length = n ∧ bs.length = k * n + rest.length := by
  induction n generalizing bs xs with
  | zero =>
    obtain ⟨rfl, rfl⟩ := Prod.mk.inj (Option.some.inj h)
    simp
  | succ n ih =>
    simp only [readElements, Option.bind_eq_bind, Option.bind_eq_some_iff, Option.pure_def, Option.some.injEq,
      Prod.mk.injEq] at h
    obtain ⟨⟨x, bs1⟩, hx, ⟨ys, bs2⟩, hys, rfl, rfl⟩ := h
    obtain ⟨hlen, hbs1⟩ := ih hys
    have hbs := hread _ _ _ hx
    exact ⟨by rw [List.length_cons, hlen], by rw [hbs, hbs1, Nat.mul_succ]; omega⟩

theorem readContainer_takes (hread : Takes read k) (h : readContainer read bs = some (xs, rest)) :
    bs.length = 8 + k * xs.length + rest.length := by
  simp only [readContainer, Option.bind_eq_bind, Option.bind_eq_some_iff] at h
  obtain ⟨⟨n, bs1⟩, hn, hxs⟩ := h
  have hbs := readU64_takes _ _ _ hn
  obtain ⟨hlen, hbs1⟩ := readElements_takes hread hxs
  rw [hbs, hbs1, hlen]
  omega

end

/-- Bytes are a record only if they have the length of 20_memory.md R81 for its counts. -/
theorem Record.ofBytes_length {bs : List Byte} {r : Record} (h : Record.ofBytes bs = some r) :
    bs.length = 48 + 8 * r.blocks.length + 16 * r.rankTable.length + 4 * (r.select0Table.length + r.select1Table.length) := by
  simp only [Record.ofBytes, Option.bind_eq_bind, Option.bind_eq_some_iff] at h
  obtain ⟨⟨_, bs1⟩, h1, ⟨_, bs2⟩, h2, ⟨_, bs3⟩, h3, ⟨_, bs4⟩, h4, ⟨_, bs5⟩, h5, ⟨_, bs6⟩, h6, hr⟩ := h
  split at hr
  next hend =>
    obtain rfl := Option.some.inj hr
    obtain rfl := List.isEmpty_iff.mp hend
    have := readU64_takes _ _ _ h1
    have := readU64_takes _ _ _ h2
    have := readContainer_takes readU64_takes h3
    have := readContainer_takes readEntry_takes h4
    have := readContainer_takes readU32_takes h5
    have := readContainer_takes readU32_takes h6
    simp only [List.length_nil] at *
    omega
  · nomatch hr

/-! ### Where the fields stand -/

theorem holdsLE_bytesLE (n v : Nat) : HoldsLE (bytesLE n v) 0 n v := by
  intro j hj
  exact ⟨_, by rw [Nat.zero_add, bytesLE_getElem? v hj], BitVec.toNat_ofNat _ _⟩

/-- Bytes that hold a number over their whole length are its bytes. -/
theorem HoldsLE.eq_bytesLE {bs : List Byte} {n v : Nat} (h : HoldsLE bs 0 n v) (hlen : bs.length = n) : bs = bytesLE n v := by
  refine List.ext_getElem? fun j => ?_
  rcases Nat.lt_or_ge j n with hj | hj
  · obtain ⟨b, hb, hv⟩ := h j hj
    rw [Nat.zero_add] at hb
    rw [hb, bytesLE_getElem? v hj]
    exact congrArg some (BitVec.eq_of_toNat_eq (hv.trans (BitVec.toNat_ofNat _ 8).symm))
  · rw [List.getElem?_eq_none (by omega), List.getElem?_eq_none (by simpa using hj)]

section
variable {a b : List Byte} {off n v : Nat}

theorem HoldsLE.append_left (h : HoldsLE a off n v) (b : List Byte) : HoldsLE (a ++ b) off n v := by
  intro j hj
  obtain ⟨x, hx, hv⟩ := h j hj
  obtain ⟨hlt, -⟩ := List.getElem?_eq_some_iff.mp hx
  exact ⟨x, by rw [List.getElem?_append_left hlt, hx], hv⟩

/-- Bytes in front move a field up by their length. -/
theorem HoldsLE.append_right (h : HoldsLE b off n v) {k : Nat} (hk : a.length = k) : HoldsLE (a ++ b) (k + off) n v := by
  intro j hj
  obtain ⟨x, hx, hv⟩ := h j hj
  refine ⟨x, ?_, hv⟩
  rw [List.getElem?_append_right (by omega), ← hx]
  congr 1
  omega

theorem HoldsLE.cast (h : HoldsLE a off n v) {off' : Nat} (hoff : off = off') : HoldsLE a off' n v := hoff ▸ h

end

theorem holdsLE_u64 (v : Word) : HoldsLE (u64 v) 0 8 v.toNat := holdsLE_bytesLE 8 _

theorem holdsLE_u32 (v : Word32) : HoldsLE (u32 v) 0 4 v.toNat := holdsLE_bytesLE 4 _

/-- Eight bytes hold a count modulo `2^64`. -/
theorem holdsLE_count (m : Nat) : HoldsLE (u64 (BitVec.ofNat 64 m)) 0 8 m := by
  intro j hj
  obtain ⟨b, hb, hv⟩ := holdsLE_u64 (BitVec.ofNat 64 m) j hj
  have hsplit : 2 ^ 64 = 256 ^ j * 256 ^ (8 - j) :=
    calc 2 ^ 64 = 256 ^ 8 := by decide
      _ = 256 ^ j * 256 ^ (8 - j) := by rw [← Nat.pow_add, Nat.add_sub_cancel' (by omega)]
  refine ⟨b, hb, hv.trans ?_⟩
  rw [BitVec.toNat_ofNat, hsplit, Nat.mod_mul_right_div_self, Nat.mod_mod_of_dvd _ (dvd_pow_self 256 (by omega))]

/-- The parts of a rankTable element (20_memory.md R83). -/
theorem holdsLE_entryBytes (e : RankEntry) :
    HoldsLE (entryBytes e) 0 4 e.abs.toNat ∧ HoldsLE (entryBytes e) 4 4 0 ∧ HoldsLE (entryBytes e) 8 8 e.rel.toNat :=
  ⟨((holdsLE_u32 e.abs).append_left _).append_left _, ((holdsLE_bytesLE 4 0).append_right (u32_length e.abs)).append_left _,
    (holdsLE_u64 e.rel).append_right rfl⟩

section
variable {α : Type} {bytes : α → List Byte} {k : Nat}

theorem flatMap_length (hk : ∀ x, (bytes x).length = k) (xs : List α) : (xs.flatMap bytes).length = k * xs.length := by
  induction xs with
  | nil => rfl
  | cons x xs ih => rw [List.flatMap_cons, List.length_append, hk, ih, List.length_cons, Nat.mul_succ, Nat.add_comm]

theorem container_length (hk : ∀ x, (bytes x).length = k) (xs : List α) : (container bytes xs).length = 8 + k * xs.length := by
  rw [container, List.length_append, u64_length, flatMap_length hk]

theorem HoldsLE.flatMap (hk : ∀ x, (bytes x).length = k) {xs : List α} {i : Nat} {x : α} (hx : xs[i]? = some x) {off n v : Nat}
    (h : HoldsLE (bytes x) off n v) : HoldsLE (xs.flatMap bytes) (k * i + off) n v := by
  induction xs generalizing i with
  | nil => simp at hx
  | cons y ys ih =>
    rw [List.flatMap_cons]
    cases i with
    | zero =>
      obtain rfl := Option.some.inj hx
      exact (h.append_left _).cast (by omega)
    | succ i => exact ((ih hx).append_right (hk y)).cast (by rw [Nat.mul_succ]; omega)

/-- A container begins with its count (20_memory.md R82). -/
theorem holdsLE_container_count (xs : List α) : HoldsLE (container bytes xs) 0 8 xs.length :=
  (holdsLE_count xs.length).append_left _

/-- Element `i` of a container stands `8 + k*i` bytes after its start. -/
theorem HoldsLE.container (hk : ∀ x, (bytes x).length = k) {xs : List α} {i : Nat} {x : α} (hx : xs[i]? = some x) {off n v : Nat}
    (h : HoldsLE (bytes x) off n v) : HoldsLE (container bytes xs) (8 + (k * i + off)) n v :=
  (h.flatMap hk hx).append_right (u64_length _)

end

/-! ### The record's fields (20_memory.md R81) -/

namespace Record

variable (r : Record)

theorem toBytes_length : r.toBytes.length =
    48 + 8 * r.blocks.length + 16 * r.rankTable.length + 4 * (r.select0Table.length + r.select1Table.length) := by
  simp only [toBytes, List.length_append, u64_length, container_length u64_length, container_length entryBytes_length,
    container_length u32_length]
  omega

variable {r} {off n v : Nat}

theorem holdsLE_of_blocks (h : HoldsLE (container u64 r.blocks) off n v) : HoldsLE r.toBytes (16 + off) n v :=
  (((h.append_right rfl).append_left _).append_left _).append_left _

theorem holdsLE_of_rankTable (h : HoldsLE (container entryBytes r.rankTable) off n v) :
    HoldsLE r.toBytes (24 + 8 * r.blocks.length + off) n v := by
  refine ((h.append_right ?_).append_left _).append_left _
  simp only [List.length_append, u64_length, container_length u64_length]
  omega

theorem holdsLE_of_select0Table (h : HoldsLE (container u32 r.select0Table) off n v) :
    HoldsLE r.toBytes (32 + 8 * r.blocks.length + 16 * r.rankTable.length + off) n v := by
  refine (h.append_right ?_).append_left _
  simp only [List.length_append, u64_length, container_length u64_length, container_length entryBytes_length]
  omega

theorem holdsLE_of_select1Table (h : HoldsLE (container u32 r.select1Table) off n v) :
    HoldsLE r.toBytes (40 + 8 * r.blocks.length + 16 * r.rankTable.length + 4 * r.select0Table.length + off) n v := by
  refine h.append_right ?_
  simp only [List.length_append, u64_length, container_length u64_length, container_length entryBytes_length,
    container_length u32_length]
  omega

theorem holdsLE_block {w : Nat} {x : Word} (hx : r.blocks[w]? = some x) : HoldsLE r.toBytes (24 + 8 * w) 8 x.toNat :=
  (holdsLE_of_blocks ((holdsLE_u64 x).container u64_length hx)).cast (by omega)

/-- A part of rank-table element `g`, `off` bytes into it (20_memory.md R83). -/
theorem holdsLE_entry {g : Nat} {e : RankEntry} (he : r.rankTable[g]? = some e) (h : HoldsLE (entryBytes e) off n v) :
    HoldsLE r.toBytes (32 + 8 * r.blocks.length + 16 * g + off) n v :=
  (holdsLE_of_rankTable (h.container entryBytes_length he)).cast (by omega)

theorem holdsLE_select0 {k : Nat} {p : Word32} (hp : r.select0Table[k]? = some p) :
    HoldsLE r.toBytes (40 + 8 * r.blocks.length + 16 * r.rankTable.length + 4 * k) 4 p.toNat :=
  (holdsLE_of_select0Table ((holdsLE_u32 p).container u32_length hp)).cast (by omega)

theorem holdsLE_select1 {k : Nat} {p : Word32} (hp : r.select1Table[k]? = some p) :
    HoldsLE r.toBytes (48 + 8 * r.blocks.length + 16 * r.rankTable.length + 4 * r.select0Table.length + 4 * k) 4 p.toNat :=
  (holdsLE_of_select1Table ((holdsLE_u32 p).container u32_length hp)).cast (by omega)

end Record

/-- Bit `i` of a little-endian number is bit `i mod 8` of its byte `i div 8` (20_memory.md R80). -/
theorem HoldsLE.getLsbD {bs : List Byte} {off n v i : Nat} (h : HoldsLE bs off n v) (hi : i < 8 * n) :
    ∃ b, bs[off + i / 8]? = some b ∧ b.getLsbD (i % 8) = v.testBit i := by
  obtain ⟨b, hb, hv⟩ := h (i / 8) (by omega)
  refine ⟨b, hb, ?_⟩
  have hmod : i % 8 < 8 := by omega
  have hbyte : b.toNat = v / 2 ^ (8 * (i / 8)) % 2 ^ 8 := by rw [Nat.pow_mul]; exact hv
  show b.toNat.testBit (i % 8) = v.testBit i
  rw [hbyte, Nat.testBit_mod_two_pow, Nat.testBit_div_two_pow, decide_eq_true hmod, Bool.true_and, Nat.mod_add_div]

/-- Settles O55, by the field lemmas of `Record` and the reader that ignores the padding. -/
theorem recordLayout : Obligations.RecordLayout := by
  refine ⟨?_, ?_⟩
  · rintro r nb rtLen s0Len s1Len rfl rfl rfl rfl
    refine ⟨r.toBytes_length, ?size, ?numOfOnes, Record.holdsLE_of_blocks (holdsLE_container_count _),
      fun _ _ hx => Record.holdsLE_block hx, Record.holdsLE_of_rankTable (holdsLE_container_count _), fun g e he => ?entry,
      Record.holdsLE_of_select0Table (holdsLE_container_count _), fun _ _ hp => Record.holdsLE_select0 hp,
      Record.holdsLE_of_select1Table (holdsLE_container_count _), fun _ _ hp => Record.holdsLE_select1 hp, fun p w hw => ?bit⟩
    case size =>
      exact (((((holdsLE_u64 r.size).append_left _).append_left _).append_left _).append_left _).append_left _
    case numOfOnes =>
      have hones := (holdsLE_u64 r.numOfOnes).append_right (u64_length r.size)
      exact (((hones.append_left _).append_left _).append_left _).append_left _
    case entry =>
      obtain ⟨habs, hpad, hrel⟩ := holdsLE_entryBytes e
      exact ⟨Record.holdsLE_entry he habs, Record.holdsLE_entry he hpad, Record.holdsLE_entry he hrel⟩
    case bit =>
      obtain ⟨b, hb, hbit⟩ := (Record.holdsLE_block hw).getLsbD (i := p % 64) (by omega)
      rw [Nat.mod_mod_of_dvd p (by decide)] at hbit
      exact ⟨b, hb, hbit⟩
  · intro abs padding rel rest e habs hpad hrel hholdsAbs hholdsRel
    rw [hholdsAbs.eq_bytesLE habs, hholdsRel.eq_bytesLE hrel]
    exact readEntry_padded e hpad rest

end Sys2Proof.Machine

/-! SUPPORT. The host's procedures as commands run one after another, and what a load that fails leaves (20_memory.md R84, R85). -/

namespace Sys2Proof.Machine

section
variable {s t : State} {m : Instr}

/-! ### Sequences -/

theorem andThen_eq_next {α β : Type} {r : Host.Outcome α Fault Refusal} {f : α → Host.Outcome β Fault Refusal} {b : β} :
    andThen r f = .next b ↔ ∃ a, r = .next a ∧ f a = .next b := by
  cases r <;> simp [andThen]

theorem next_of_thenResult {r : Result} {p : Word × State} (h : thenResult r = .next p) : r = .next p.2 := by
  obtain ⟨t, ht, hp⟩ := andThen_eq_next.mp h
  obtain rfl := Host.Outcome.next.inj hp
  exact ht

/-! ### One command -/

/-- Decoding the word of a well-formed command gives the command back (30_encoding.md R117). -/
theorem decode_encode (hm : m.wellFormed = true) : decode (encode m) = .ok m := by
  cases m with
  | riSetrel k | riGetrel k =>
    revert k
    decide
  | bvSet v | bvPush v | smpLen v | smpRead v => cases v <;> rfl
  | bvBuild fs1 fs0 => cases fs1 <;> cases fs0 <;> rfl
  | popcnt | selw | riClr | riSetabs | riGetabs | riLoad | riGetpack | riSetpack => rfl
  | bvClear | bvGet | bvWrword | bvRdword => rfl
  | rank0 | rank1 | count0 | count1 | rtLen | select0 | select1 => rfl

/-- `s` after the writes of ARG0, ARG1 and CMD that issue `m`: the operands are latched (10_state.md R32 to R34). A register
the host does not write keeps its value. -/
def State.issued (s : State) (m : Instr) (a : Word := s.arg0) (b : Word := s.arg1) : State :=
  { s with arg0 := a, arg1 := b, running := some { cmd := encode m, arg0 := a, arg1 := b } }

/-- `DO m` on an idle block executes `m` (30_encoding.md R119). -/
theorem doCommand_eq (h : s.running = none) (hm : m.wellFormed = true) : doCommand m s = exec m (s.issued m) := by
  have hword : ((encode m).setWidth 64).extractLsb' 0 32 = encode m := by
    refine BitVec.eq_of_toNat_eq ?_
    rw [BitVec.extractLsb'_toNat, Nat.shiftRight_zero, BitVec.toNat_setWidth_of_le (by decide), Nat.mod_eq_of_lt (encode m).isLt]
  rw [doCommand, State.hostWrite_cmd, hword, State.writeCmd_idle h]
  exact engineTurn_of_decode rfl (decode_encode hm)

theorem doCommand1_eq (h : s.running = none) (hm : m.wellFormed = true) (a : Word) :
    doCommand1 m a s = exec m (s.issued m a) := doCommand_eq (s := { s with arg0 := a }) h hm

theorem doCommand2_eq (h : s.running = none) (hm : m.wellFormed = true) (a b : Word) :
    doCommand2 m a b s = exec m (s.issued m a b) := doCommand_eq (s := { s with arg0 := a, arg1 := b }) h hm

theorem doCommand_keeps_inv (h : s.Inv) (ht : doCommand m s = .next t) : t.Inv :=
  engineTurn_keeps_inv (hostWrite_keeps_inv h _ _ _) ht

theorem doCommand1_keeps_inv {a : Word} (h : s.Inv) (ht : doCommand1 m a s = .next t) : t.Inv :=
  doCommand_keeps_inv (hostWrite_keeps_inv h _ _ _) ht

theorem doCommand2_keeps_inv {a b : Word} (h : s.Inv) (ht : doCommand2 m a b s = .next t) : t.Inv :=
  doCommand_keeps_inv (hostWrite_keeps_inv (hostWrite_keeps_inv h _ _ _) _ _ _) ht

/-- `DO m` leaves the block idle. -/
theorem doCommand_idle (h : doCommand m s = .next t) : t.running = none := by
  obtain ⟨rfl, hr⟩ | hframe := engineTurn_frame h
  · exact hr
  · exact hframe.running

/-! ### The procedures leave the block idle -/

theorem readOut_idle {n : Nat} {p : List Word × State} (hs : s.running = none) (h : readOut m n s = .next p) :
    p.2.running = none := by
  cases n with
  | zero => exact Host.Outcome.next.inj h ▸ hs
  | succ n =>
    obtain ⟨a, -, h⟩ := andThen_eq_next.mp h
    obtain ⟨q, hq, h⟩ := andThen_eq_next.mp h
    exact Host.Outcome.next.inj h ▸ doCommand_idle (next_of_thenResult hq)

theorem readSamples_idle {v : Bool} {p : List Word32 × State} (h : readSamples v s = .next p) : p.2.running = none := by
  obtain ⟨n, hn, h⟩ := andThen_eq_next.mp h
  obtain ⟨q, hq, h⟩ := andThen_eq_next.mp h
  exact Host.Outcome.next.inj h ▸ readOut_idle (doCommand_idle (next_of_thenResult hn)) hq

theorem verifyRecord_idle {r : Record} {v : Bool × State} (h : verifyRecord r s = .next v) : v.2.running = none := by
  obtain ⟨a, -, h⟩ := andThen_eq_next.mp h
  obtain ⟨b, -, h⟩ := andThen_eq_next.mp h
  obtain ⟨c, hc, h⟩ := andThen_eq_next.mp h
  exact Host.Outcome.next.inj h ▸ readSamples_idle hc

/-! ### A load that fails -/

/-- `DO BV_CLEAR` leaves no vector, and the capacity as it was (42_bitvector.md R190). -/
theorem doCommand_bvClear (h : s.running = none) :
    ∃ t, doCommand .bvClear s = .next t ∧ t.SameVector State.reset ∧ t.maxBits = s.maxBits :=
  ⟨_, doCommand_eq h rfl, .refl State.reset, rfl⟩

/-- The last step of the load procedure reports a failure and leaves no vector (20_memory.md R85 step 7). -/
theorem loadFailed_cleared (h : s.running = none) : ∃ t, loadFailed s = .next (false, t) ∧ t.SameVector State.reset := by
  obtain ⟨t, ht, hv, -⟩ := doCommand_bvClear h
  exact ⟨t, by rw [loadFailed, ht, andThen_next], hv⟩

theorem cleared_of_loadFailed {b : Bool} (h : s.running = none) (ht : loadFailed s = .next (b, t)) : t.SameVector State.reset := by
  obtain ⟨u, hu, hv⟩ := loadFailed_cleared h
  rw [hu] at ht
  cases ht
  exact hv

theorem loadRecord_cleared {r : Record} (h : s.running = none) (ht : loadRecord r s = .next (false, t)) :
    t.SameVector State.reset := by
  unfold loadRecord at ht
  split at ht
  · exact cleared_of_loadFailed h ht
  · simp only [andThen_eq_next] at ht
    obtain ⟨s2, -, s3, -, s4, -, s5, -, v, hv, ht⟩ := ht
    split at ht
    next hagrees =>
      cases ht
      nomatch hagrees
    next => exact cleared_of_loadFailed (verifyRecord_idle hv) ht

theorem loadBytes_cleared {bs : List Byte} (h : s.running = none) (ht : loadBytes bs s = .next (false, t)) :
    t.SameVector State.reset := by
  unfold loadBytes at ht
  split at ht
  · exact loadRecord_cleared h ht
  · exact cleared_of_loadFailed h ht

theorem loadBytes_of_no_record {bs : List Byte} (h : Record.ofBytes bs = none) (s : State) : loadBytes bs s = loadFailed s := by
  simp [loadBytes, h]

/-- Settles O58: every way a load reports a failure ends in step 7, and the readers count the bytes. -/
theorem failedLoadLeavesBlockCleared : Obligations.FailedLoadLeavesBlockCleared := by
  refine ⟨fun r bs s t hidle ht => ht.elim (loadRecord_cleared hidle) (loadBytes_cleared hidle), fun bs s hidle hbs => ?_,
    fun bs r hr => Record.ofBytes_length hr⟩
  obtain ⟨t, ht, -⟩ := loadFailed_cleared hidle
  exact ⟨t, (loadBytes_of_no_record hbs s).trans ht⟩

end

end Sys2Proof.Machine

/-! SUPPORT. What the read-out commands answer, and the save procedure (20_memory.md R84). -/

namespace Sys2Proof.Machine

section
variable {s t : State} {m : Instr} {v : Bool}

/-! ### Read-out commands -/

theorem execBvRdword_of_lt (h : s.index < s.nb) : execBvRdword s = .next (s.completeWith (s.blk.read s.index)) := by
  rw [execBvRdword, if_neg (by omega), State.blkWord_of_lt_nb h]

theorem execRtLen_of_frozen (hf : s.frozen = true) : execRtLen s = .next (s.completeWith (BitVec.ofNat 64 s.rt.length)) :=
  if_neg (by simp [hf])

theorem execRiLoad_of_entry {e : RankEntry} (hf : s.frozen = true) (he : s.rt[s.index]? = some e) :
    execRiLoad s = .next { s.complete with rix := e } := by
  obtain ⟨hlt, -⟩ := List.getElem?_eq_some_iff.mp he
  rw [execRiLoad, if_neg (by simp [hf]), if_neg (by omega), State.rtEntry_ok he]

theorem execSmpLen_of_frozen (hf : s.frozen = true) (v : Bool) :
    execSmpLen v s = .next (s.completeWith (BitVec.ofNat 64 (s.samples v).length)) := if_neg (by simp [hf])

theorem execSmpRead_of_element {p : Word32} (hf : s.frozen = true) (hp : (s.samples v)[s.index]? = some p) :
    execSmpRead v s = .next (s.completeWith (p.setWidth 64)) := by
  obtain ⟨hlt, -⟩ := List.getElem?_eq_some_iff.mp hp
  rw [execSmpRead, if_neg (by simp [hf]), if_neg (by omega), State.sample_ok hp, State.finish_ok, BitVec.ofNat_toNat]

/-! ### Reading out of an idle block -/

/-- The index of an existing word fits a register. -/
theorem State.toNat_wordIndex {w : Nat} (hw : w < s.nb) : (BitVec.ofNat 64 w).toNat = w := by
  have := State.lt_nb_iff.mp hw
  have := s.size.isLt
  rw [BitVec.toNat_ofNat, Nat.mod_eq_of_lt (by omega)]

/-- `t` is idle and holds the vector of `s`. -/
structure IdleWith (s t : State) : Prop where
  vector : s.SameVector t
  idle : t.running = none

namespace IdleWith

theorem frozen (h : IdleWith s t) (hf : s.frozen = true) : t.frozen = true := by
  obtain ⟨-, -, hfrozen, -⟩ := h.vector
  exact hfrozen ▸ hf

theorem setArg0 (h : IdleWith s t) (a : Word) : IdleWith s { t with arg0 := a } := ⟨h.vector, h.idle⟩

/-- A command that answers with a result lets the host read it, and leaves the vector. -/
theorem result (h : IdleWith s t) (hm : m.wellFormed = true) {x : Word}
    (hx : exec m (t.issued m) = .next ((t.issued m).completeWith x)) :
    ∃ u, thenResult (doCommand m t) = .next (x, u) ∧ IdleWith s u :=
  ⟨(t.issued m).completeWith x, by rw [doCommand_eq h.idle hm, hx]; rfl, h.vector, rfl⟩

/-- `DO BV_RDWORD, w` reads word `w`. -/
theorem readWord (h : IdleWith s t) {w : Nat} (hw : w < s.nb) :
    ∃ u, thenResult (doCommand1 .bvRdword (BitVec.ofNat 64 w) t) = .next (s.blk.read w, u) ∧ IdleWith s u := by
  have hindex := State.toNat_wordIndex hw
  obtain ⟨hsize, -, -, -, -, hblk, -⟩ := h.vector
  have hx := execBvRdword_of_lt (s := t.issued .bvRdword (BitVec.ofNat 64 w)) (by
    show (BitVec.ofNat 64 w).toNat < t.nb
    rwa [hindex, ← h.vector.nb])
  have hread : t.blk.read (BitVec.ofNat 64 w).toNat = s.blk.read w := by rw [hindex, hblk]
  exact hread ▸ (h.setArg0 _).result rfl hx

theorem readRtLen (h : IdleWith s t) (hf : s.frozen = true) :
    ∃ u, thenResult (doCommand .rtLen t) = .next (BitVec.ofNat 64 s.rt.length, u) ∧ IdleWith s u := by
  obtain ⟨-, -, -, -, -, -, hrt, -⟩ := id h.vector
  rw [hrt]
  exact h.result rfl (execRtLen_of_frozen (h.frozen hf))

theorem readSmpLen (h : IdleWith s t) (hf : s.frozen = true) (v : Bool) :
    ∃ u, thenResult (doCommand (.smpLen v) t) = .next (BitVec.ofNat 64 (s.samples v).length, u) ∧ IdleWith s u := by
  rw [h.vector.samples]
  exact h.result rfl (execSmpLen_of_frozen (h.frozen hf) v)

/-- `DO SMP_READ, k` reads element `k` of a sampling table. -/
theorem readSample (h : IdleWith s t) (hf : s.frozen = true) {k : Nat} {p : Word32} (hk : k < 2 ^ 64)
    (hp : (s.samples v)[k]? = some p) :
    ∃ u, thenResult (doCommand1 (.smpRead v) (BitVec.ofNat 64 k) t) = .next (p.setWidth 64, u) ∧ IdleWith s u := by
  refine (h.setArg0 _).result rfl (execSmpRead_of_element (h.frozen hf) ?_)
  show (t.samples v)[(BitVec.ofNat 64 k).toNat]? = some p
  rw [← h.vector.samples, BitVec.toNat_ofNat, Nat.mod_eq_of_lt hk, hp]

/-- `DO RI_LOAD, g` leaves entry `g` in RIX. -/
theorem loadEntry (h : IdleWith s t) (hf : s.frozen = true) {g : Nat} {e : RankEntry} (hg : g < 2 ^ 64)
    (he : s.rt[g]? = some e) :
    ∃ u, doCommand1 .riLoad (BitVec.ofNat 64 g) t = .next u ∧ IdleWith s u ∧ u.rix = e := by
  obtain ⟨-, -, -, -, -, -, hrt, -⟩ := id h.vector
  have hx := execRiLoad_of_entry (s := t.issued .riLoad (BitVec.ofNat 64 g)) (e := e) (h.frozen hf) (by
    show t.rt[(BitVec.ofNat 64 g).toNat]? = some e
    rw [← hrt, BitVec.toNat_ofNat, Nat.mod_eq_of_lt hg, he])
  exact ⟨_, (doCommand1_eq h.idle rfl _).trans hx, ⟨h.vector, rfl⟩, rfl⟩

/-- `DO RI_GETABS` reads the absolute count in RIX and keeps RIX. -/
theorem readAbs (h : IdleWith s t) :
    ∃ u, thenResult (doCommand .riGetabs t) = .next (t.rix.abs.setWidth 64, u) ∧ IdleWith s u ∧ u.rix = t.rix :=
  ⟨(t.issued .riGetabs).completeWith (t.rix.abs.setWidth 64),
    by rw [doCommand_eq h.idle rfl, ← BitVec.ofNat_toNat]; rfl, ⟨h.vector, rfl⟩, rfl⟩

/-- `DO RI_GETPACK` reads the packed relative counts in RIX. -/
theorem readPack (h : IdleWith s t) : ∃ u, thenResult (doCommand .riGetpack t) = .next (t.rix.rel, u) ∧ IdleWith s u :=
  h.result rfl rfl

/-! ### Tables -/

/-- A read-out command that answers element `k` for index `k` reads out the elements. -/
theorem readOut_eq {xs : List Word}
    (hread : ∀ k x, xs[k]? = some x → ∀ t, IdleWith s t →
      ∃ u, thenResult (doCommand1 m (BitVec.ofNat 64 k) t) = .next (x, u) ∧ IdleWith s u)
    {n : Nat} (hn : n ≤ xs.length) (h : IdleWith s t) : ∃ u, readOut m n t = .next (xs.take n, u) ∧ IdleWith s u := by
  induction n with
  | zero => exact ⟨t, rfl, h⟩
  | succ n ih =>
    have hx : xs[n]? = some xs[n] := List.getElem?_eq_getElem hn
    obtain ⟨u, hu, hidle⟩ := ih (by omega)
    obtain ⟨u', hu', hidle'⟩ := hread n _ hx u hidle
    exact ⟨u', by rw [readOut, hu, andThen_next, hu', andThen_next, List.take_append_getElem], hidle'⟩

/-- The words of the vector, in order. -/
theorem readWords_eq (h : IdleWith s t) :
    ∃ u, readOut .bvRdword s.nb t = .next ((List.range s.nb).map s.blk.read, u) ∧ IdleWith s u := by
  have hread : ∀ k x, ((List.range s.nb).map s.blk.read)[k]? = some x → ∀ t, IdleWith s t →
      ∃ u, thenResult (doCommand1 .bvRdword (BitVec.ofNat 64 k) t) = .next (x, u) ∧ IdleWith s u := by
    intro k x hx t ht
    obtain ⟨hk, rfl⟩ := List.getElem?_eq_some_iff.mp hx
    simp only [List.length_map, List.length_range] at hk
    simpa using ht.readWord hk
  simpa [List.take_of_length_le] using readOut_eq hread (n := s.nb) (by simp) h

/-- The first `n` entries of the rank table, as RI_LOAD, RI_GETABS and RI_GETPACK read them. -/
theorem readEntries_take (hf : s.frozen = true) (hlen : s.rt.length < 2 ^ 64) {n : Nat} (hn : n ≤ s.rt.length)
    (h : IdleWith s t) : ∃ u, readEntries n t = .next (s.rt.take n, u) ∧ IdleWith s u := by
  induction n with
  | zero => exact ⟨t, rfl, h⟩
  | succ n ih =>
    have he : s.rt[n]? = some s.rt[n] := List.getElem?_eq_getElem hn
    obtain ⟨u, hu, hidle⟩ := ih (by omega)
    obtain ⟨u1, hu1, hidle1, hrix1⟩ := hidle.loadEntry hf (by omega) he
    obtain ⟨u2, hu2, hidle2, hrix2⟩ := hidle1.readAbs
    obtain ⟨u3, hu3, hidle3⟩ := hidle2.readPack
    refine ⟨u3, ?_, hidle3⟩
    rw [readEntries, hu, andThen_next, hu1, andThen_next, hu2, andThen_next, hu3, andThen_next, hrix2, hrix1,
      BitVec.setWidth_setWidth_of_le _ (by decide), BitVec.setWidth_eq, List.take_append_getElem]

theorem readEntries_eq (hf : s.frozen = true) (hlen : s.rt.length < 2 ^ 64) (h : IdleWith s t) :
    ∃ u, readEntries s.rt.length t = .next (s.rt, u) ∧ IdleWith s u := by
  simpa using readEntries_take hf hlen (Nat.le_refl _) h

theorem readSamples_eq (hf : s.frozen = true) (hlen : (s.samples v).length < 2 ^ 64) (h : IdleWith s t) :
    ∃ u, readSamples v t = .next (s.samples v, u) ∧ IdleWith s u := by
  have hread : ∀ k x, ((s.samples v).map (BitVec.setWidth 64))[k]? = some x → ∀ t, IdleWith s t →
      ∃ u, thenResult (doCommand1 (.smpRead v) (BitVec.ofNat 64 k) t) = .next (x, u) ∧ IdleWith s u := by
    intro k x hx t ht
    obtain ⟨hk, rfl⟩ := List.getElem?_eq_some_iff.mp hx
    rw [List.length_map] at hk
    simpa using ht.readSample hf (by omega) (List.getElem?_eq_getElem hk)
  obtain ⟨u1, hu1, hidle1⟩ := h.readSmpLen hf v
  obtain ⟨u2, hu2, hidle2⟩ := readOut_eq hread (Nat.le_refl _) hidle1
  have hn : (BitVec.ofNat 64 (s.samples v).length).toNat = ((s.samples v).map (BitVec.setWidth 64)).length := by
    rw [BitVec.toNat_ofNat, Nat.mod_eq_of_lt hlen, List.length_map]
  refine ⟨u2, ?_, hidle2⟩
  rw [readSamples, hu1, andThen_next, hn, hu2, andThen_next, List.take_length, List.map_map]
  simp [Function.comp_def]

end IdleWith

/-! ### The save procedure -/

/-- In a state of the invariant the rank table is far shorter than an index can say. -/
theorem State.Inv.rt_length_lt (h : s.Inv) (hf : s.frozen = true) : s.rt.length < 2 ^ 64 := by
  have hlen := (h.rankTable hf).length
  have hsize := s.size.isLt
  unfold State.nb ceilDiv at hlen
  omega

theorem State.Inv.samples_length_lt (h : s.Inv) (hf : s.frozen = true) (v : Bool) : (s.samples v).length < 2 ^ 64 := by
  have hs := h.sampling hf v
  split at hs
  · have hlen := hs.length
    have hcount : s.countOf v < 2 ^ 32 := by
      have := State.rank_le (s := s) (v := v) s.size.toNat
      have := s.size.isLt
      rw [h.countOf_eq hf]
      omega
    unfold ceilDiv at hlen
    omega
  · simp [hs]

/-- The record of a frozen vector (20_memory.md R81). -/
def State.saved (s : State) : Record where
  size := s.size.setWidth 64
  numOfOnes := s.ones.setWidth 64
  blocks := (List.range s.nb).map s.blk.read
  rankTable := s.rt
  select0Table := s.s0
  select1Table := s.s1

/-- The save procedure answers the record of the vector and leaves the vector (20_memory.md R84). -/
theorem saveRecord_eq (h : s.Inv) (hf : s.frozen = true) (hidle : s.running = none) :
    ∃ t, saveRecord s = .next (s.saved, t) ∧ IdleWith s t := by
  have hnb : ceilDiv (s.hostRead 0x20 64).toNat 64 = s.nb := by
    show ceilDiv (s.size.setWidth 64).toNat 64 = ceilDiv s.size.toNat 64
    rw [BitVec.toNat_setWidth_of_le (by decide)]
  have hrt := h.rt_length_lt hf
  obtain ⟨u1, hu1, hi1⟩ := IdleWith.readWords_eq (t := s) ⟨.refl s, hidle⟩
  obtain ⟨u2, hu2, hi2⟩ := hi1.readRtLen hf
  obtain ⟨u3, hu3, hi3⟩ := hi2.readEntries_eq hf hrt
  obtain ⟨u4, hu4, hi4⟩ := hi3.readSamples_eq hf (h.samples_length_lt hf false)
  obtain ⟨u5, hu5, hi5⟩ := hi4.readSamples_eq hf (h.samples_length_lt hf true)
  refine ⟨u5, ?_, hi5⟩
  simp only [saveRecord, hnb, hu1, hu2, BitVec.toNat_ofNat, Nat.mod_eq_of_lt hrt, hu3, hu4, hu5, andThen_next]
  rfl

/-- Settles O56, by what each read-out answers. -/
theorem saveReadsOutTheVector : Obligations.SaveReadsOutTheVector := by
  intro s h hf hidle
  obtain ⟨t, ht, hi⟩ := saveRecord_eq h hf hidle
  exact ⟨t, ht, hi.vector, hi.idle⟩

end

end Sys2Proof.Machine

/-! SUPPORT. The invariant leaves one choice of tables for a frozen vector, and so a load restores what was saved
(20_memory.md R85). -/

namespace Sys2Proof.Machine

section
variable {s t : State} {v : Bool} {w : Nat}

/-! ### The tables are determined by the words -/

/-- Every used bit of a packed word is in one sub-field (20_memory.md R73). -/
theorem exists_relField : ∀ j, j < 59 → ∃ k, k < 8 ∧ 1 ≤ k ∧ relOffset k ≤ j ∧ j < relOffset k + relWidth k := by decide

/-- An entry is its absolute count, its seven relative counts and its unused bits. -/
theorem rankEntry_eq {e f : RankEntry} (habs : getAbs e = getAbs f) (hrel : ∀ k, 1 ≤ k → k ≤ 7 → getRel e k = getRel f k)
    (hunused : e.rel.extractLsb' 59 5 = f.rel.extractLsb' 59 5) : e = f := by
  have hbits : e.rel = f.rel := by
    refine BitVec.eq_of_getLsbD_eq fun j hj => ?_
    rcases Nat.lt_or_ge j 59 with h59 | h59
    · obtain ⟨k, hk8, hk1, hle, hlt⟩ := exists_relField j h59
      have hbit := congrArg (Nat.testBit · (j - relOffset k)) (hrel k hk1 (by omega))
      simp only [getRel_testBit, show relOffset k + (j - relOffset k) = j by omega,
        decide_eq_true (show j - relOffset k < relWidth k by omega), decide_eq_true (show j - relOffset k < 64 by omega),
        Bool.true_and] at hbit
      exact hbit
    · have hbit := congrArg (BitVec.getLsbD · (j - 59)) hunused
      simpa [show 59 + (j - 59) = j by omega, show j - 59 < 5 by omega] using hbit
  cases e
  cases f
  cases BitVec.eq_of_toNat_eq habs
  cases hbits
  rfl

theorem State.cnt_congr (hsize : s.size = t.size) (hblk : s.blk = t.blk) (lo hi : Nat) : s.cnt v lo hi = t.cnt v lo hi := by
  unfold State.cnt
  rw [State.rank_congr hsize hblk, State.rank_congr hsize hblk]

/-- There is one rank table for given words (42_bitvector.md R203). -/
theorem State.RankTableOk.unique (hs : s.RankTableOk) (ht : t.RankTableOk) (hsize : s.size = t.size) (hblk : s.blk = t.blk) :
    s.rt = t.rt := by
  have hnb : s.nb = t.nb := by
    unfold State.nb
    rw [hsize]
  refine List.ext_getElem (by rw [hs.length, ht.length, hnb]) fun g h1 h2 => ?_
  have he := List.getElem?_eq_getElem h1
  have hf := List.getElem?_eq_getElem h2
  refine rankEntry_eq ?_ (fun k hk1 hk7 => ?_) ?_
  · rw [hs.abs g _ he, ht.abs g _ hf, State.cnt_congr hsize hblk]
  · rw [hs.rel g _ he k hk1 hk7, ht.rel g _ hf k hk1 hk7, State.cnt_congr hsize hblk]
  · rw [hs.unused g _ he, ht.unused g _ hf]

/-- There is one sampling table for given words (42_bitvector.md R206). -/
theorem State.SamplesOk.unique (hs : s.SamplesOk v) (ht : t.SamplesOk v) (hsize : s.size = t.size) (hblk : s.blk = t.blk)
    (hcount : s.countOf v = t.countOf v) : s.samples v = t.samples v := by
  refine List.ext_getElem (by rw [hs.length, ht.length, hcount]) fun k h1 h2 => ?_
  have hp := List.getElem?_eq_getElem h1
  have hq := List.getElem?_eq_getElem h2
  have hlen := hs.length
  rcases Nat.lt_or_ge k (ceilDiv (s.countOf v) 512) with hk | hk
  · have hsel := (State.isSelect_congr hsize hblk _ _).mp (hs.sample k _ hk hp)
    exact BitVec.eq_of_toNat_eq (hsel.unique (ht.sample k _ (hcount ▸ hk) hq))
  · obtain rfl : k = ceilDiv (s.countOf v) 512 := by omega
    have hlast : (t.samples v)[ceilDiv (s.countOf v) 512]? = some t.size := hcount ▸ ht.sentinel
    have hsp := Option.some.inj (hp.symm.trans hs.sentinel)
    have htq := Option.some.inj (hq.symm.trans hlast)
    rw [hsp, htq, hsize]

/-- Two frozen states of the invariant with the same words and requested tables hold the same vector. -/
theorem State.Inv.sameVector_of_frozen (hs : s.Inv) (ht : t.Inv) (hsf : s.frozen = true) (htf : t.frozen = true)
    (hsize : s.size = t.size) (hblk : s.blk = t.blk) (hhas : ∀ v, s.hasSamples v = t.hasSamples v) : s.SameVector t := by
  have hones : s.ones = t.ones := by
    refine BitVec.eq_of_toNat_eq ?_
    rw [hs.onesOk hsf, ht.onesOk htf, State.rank_congr hsize hblk, hsize]
  have hsamples : ∀ v, s.samples v = t.samples v := by
    intro v
    have hsv := hs.sampling hsf v
    have htv := ht.sampling htf v
    rw [← hhas v] at htv
    split at hsv
    next hreq =>
      rw [if_pos hreq] at htv
      refine hsv.unique htv hsize hblk ?_
      unfold State.countOf
      rw [hones, hsize]
    next hreq =>
      rw [if_neg hreq] at htv
      rw [hsv, htv]
  exact ⟨hsize, hones, hsf.trans htf.symm, hhas true, hhas false, hblk, (hs.rankTable hsf).unique (ht.rankTable htf) hsize hblk,
    hsamples true, hsamples false⟩

/-- In the frozen phase the table of a bit value is there exactly when it was requested (10_state.md R53). -/
theorem State.Inv.samples_isEmpty (h : s.Inv) (hf : s.frozen = true) (v : Bool) : (!(s.samples v).isEmpty) = s.hasSamples v := by
  have hs := h.sampling hf v
  split at hs
  next hreq =>
    have hpos : 0 < (s.samples v).length := by
      rw [hs.length]
      omega
    rw [hreq, List.isEmpty_eq_false_iff.mpr (List.length_pos_iff.mp hpos)]
    rfl
  next hreq =>
    rw [hs, (Bool.not_eq_true _).mp hreq]
    rfl

/-! ### Words -/

/-- A word that does not exist reads 0. -/
theorem State.Inv.read_of_nb_le (h : s.Inv) (hw : s.nb ≤ w) : s.blk.read w = 0 := by
  have hsize : s.size.toNat ≤ 64 * w := (ceilDiv_le_iff (by decide)).mp hw
  refine BitVec.eq_of_getLsbD_eq fun j hj => ?_
  rw [State.holds_true_word h.padding w j hj, State.holds_true_of_padding h.padding, h.padding _ (by omega)]
  simp

/-- The bits BV_WRWORD masks out are 0 in the words of the vector (10_state.md R51, 42_bitvector.md R195). -/
theorem State.Inv.read_and_mask (h : s.Inv) (w : Nat) : s.blk.read w &&& mask (s.bitsInWord w) = s.blk.read w := by
  refine BitVec.eq_of_getLsbD_eq fun j hj => ?_
  rw [BitVec.getLsbD_and, mask_getLsbD]
  by_cases hin : j < s.bitsInWord w
  · simp [hin, hj]
  · have hout : s.size.toNat ≤ 64 * w + j := by
      unfold State.bitsInWord at hin
      omega
    rw [State.holds_true_word h.padding w j hj, State.holds_true_of_padding h.padding, h.padding _ hout, Bool.false_and]

/-- BV_WRWORD of an existing word in the build phase (42_bitvector.md R195). -/
theorem execBvWrword_of_lt (hf : s.frozen = false) (hw : s.index < s.nb) :
    execBvWrword s = .next (s.writeBlk s.index (s.opnd1 &&& mask (s.bitsInWord s.index))).complete := by
  rw [execBvWrword, if_neg (ne_true_of_eq_false hf), if_neg (Nat.not_le_of_lt hw)]

/-- `DO BV_WRWORD, w, x` in the build phase writes an existing word. -/
theorem doCommand2_bvWrword (hidle : s.running = none) (hf : s.frozen = false) (hw : w < s.nb) (x : Word) :
    doCommand2 .bvWrword (BitVec.ofNat 64 w) x s =
      .next ((s.issued .bvWrword (BitVec.ofNat 64 w) x).writeBlk w (x &&& mask (s.bitsInWord w))).complete := by
  have hindex : (s.issued .bvWrword (BitVec.ofNat 64 w) x).index = w := State.toNat_wordIndex hw
  rw [doCommand2_eq hidle rfl, exec, execBvWrword_of_lt (s := s.issued .bvWrword (BitVec.ofNat 64 w) x) hf (hindex.symm ▸ hw),
    hindex]
  rfl

/-- BV_SET 0 grows an empty vector to `i + 1` bits and lists no word (42_bitvector.md R191, R192). -/
theorem execBvSet_of_empty (hv : s.SameVector State.reset) (hmax : s.index < s.maxBits.toNat) :
    execBvSet false s = .next { s.complete with size := BitVec.ofNat 32 (s.index + 1), blk := [] } := by
  have hsize : s.size = 0 := hv.1
  obtain ⟨-, -, hf, -, -, hblk, -⟩ := hv
  have hblk : s.blk = [] := hblk
  have hwrite : ((s.grow (s.index + 1)).writeBit s.index false).blk = [] := by
    simp [State.writeBit, BlockMem.keepBelow, BlockMem.write, hblk]
  have hgrow : s.size.toNat ≤ s.index := by simp [hsize]
  rw [execBvSet, if_neg (ne_true_of_eq_false hf), if_neg (Nat.not_le_of_lt hmax), if_pos hgrow, ← hwrite]
  rfl

/-! ### Restoring the words -/

/-- `t` is idle, in the build phase, of the size of `s`, and holds the first `w` words of `s` and zeros. -/
structure RestoredTo (s t : State) (w : Nat) : Prop where
  inv : t.Inv
  idle : t.running = none
  building : t.frozen = false
  size : t.size = s.size
  words : ∀ k, t.blk.read k = if k < w then s.blk.read k else 0

namespace RestoredTo

theorem nb (h : RestoredTo s t w) : t.nb = s.nb := by
  unfold State.nb
  rw [h.size]

theorem bitsInWord (h : RestoredTo s t w) (k : Nat) : t.bitsInWord k = s.bitsInWord k := by
  unfold State.bitsInWord
  rw [h.size]

/-- One write of step 4 restores one more word. -/
theorem writeWord (hs : s.Inv) (h : RestoredTo s t w) (hw : w < s.nb) :
    ∃ u, doCommand2 .bvWrword (BitVec.ofNat 64 w) (s.blk.read w) t = .next u ∧ RestoredTo s u (w + 1) := by
  have hu := doCommand2_bvWrword h.idle h.building (h.nb ▸ hw) (s.blk.read w)
  refine ⟨_, hu, doCommand2_keeps_inv h.inv hu, rfl, h.building, h.size, fun k => ?_⟩
  show (t.blk.write w (s.blk.read w &&& mask (t.bitsInWord w))).read k = _
  rw [h.bitsInWord, hs.read_and_mask, BlockMem.read_write, h.words]
  rcases Nat.lt_trichotomy k w with hk | rfl | hk
  · rw [if_neg (by omega), if_pos hk, if_pos (by omega)]
  · rw [if_pos rfl, if_pos (by omega)]
  · rw [if_neg (by omega), if_neg (by omega), if_neg (by omega)]

/-- Step 4 of the load procedure restores every word. -/
theorem writeWords (hs : s.Inv) {n : Nat} (h : RestoredTo s t w) (hn : w + n = s.nb) :
    ∃ u, writeWords w ((List.range' w n).map s.blk.read) t = .next u ∧ RestoredTo s u s.nb := by
  induction n generalizing w t with
  | zero => exact ⟨t, rfl, hn ▸ h⟩
  | succ n ih =>
    obtain ⟨u, hu, hr⟩ := h.writeWord hs (by omega)
    obtain ⟨u', hu', hr'⟩ := ih hr (by omega)
    refine ⟨u', ?_, hr'⟩
    rw [List.range'_succ, List.map_cons, Machine.writeWords, hu, andThen_next, hu']

/-- With every word restored the memories are the same. -/
theorem blk_eq (hs : s.Inv) (h : RestoredTo s t s.nb) : s.blk = t.blk := by
  refine BlockMem.ext_of_read hs.blkWf h.inv.blkWf fun k => ?_
  rw [h.words]
  split
  · rfl
  · exact hs.read_of_nb_le (by omega)

/-- Step 5 of the load procedure rebuilds the vector of `s`. -/
theorem build (hs : s.Inv) (hf : s.frozen = true) (h : RestoredTo s t s.nb) :
    ∃ u, doCommand (.bvBuild s.fs1 s.fs0) t = .next u ∧ IdleWith s u := by
  obtain ⟨a, ha⟩ := execBvBuild_of_building (s := t.issued (.bvBuild s.fs1 s.fs0)) h.inv.padding h.building s.fs1 s.fs0
  have hu := (doCommand_eq (m := .bvBuild s.fs1 s.fs0) h.idle rfl).trans ha
  have hblk : s.blk = t.blk := h.blk_eq hs
  refine ⟨_, hu, hs.sameVector_of_frozen (doCommand_keeps_inv h.inv hu) hf rfl h.size.symm hblk fun v => ?_, rfl⟩
  cases v <;> rfl

end RestoredTo

/-! ### The load procedure -/

theorem State.saved_size_toNat (s : State) : s.saved.size.toNat = s.size.toNat := BitVec.toNat_setWidth_of_le (by decide)

/-- Step 3 of the load procedure, after BV_CLEAR, leaves a vector of zeros of the record's size. -/
theorem growCleared (ht : t.Inv) (hidle : t.running = none) (hv : t.SameVector State.reset)
    (hmax : s.size.toNat ≤ t.maxBits.toNat) :
    ∃ u, (if s.saved.size = 0 then .next t else doCommand1 (.bvSet false) (s.saved.size - 1) t) = .next u ∧
      RestoredTo s u 0 := by
  obtain ⟨hsize, -, hfrozen, -, -, hblk, -⟩ := id hv
  have hsaved := s.saved_size_toNat
  split
  next hzero =>
    have h0 : s.size = 0 := BitVec.eq_of_toNat_eq (by rw [← hsaved, hzero]; rfl)
    exact ⟨t, rfl, ht, hidle, hfrozen, hsize.trans h0.symm, fun k => by rw [hblk]; rfl⟩
  next hne =>
    have hpos : 0 < s.size.toNat := by
      rw [← hsaved]
      exact Nat.pos_of_ne_zero fun h0 => hne (BitVec.eq_of_toNat_eq h0)
    have hlast : (s.saved.size - 1).toNat = s.size.toNat - 1 := by
      rw [BitVec.toNat_sub_of_le (by rw [BitVec.le_def, hsaved]; exact hpos), hsaved]
      rfl
    have hroom : (s.saved.size - 1).toNat < t.maxBits.toNat := by omega
    have hx := execBvSet_of_empty (s := t.issued (.bvSet false) (s.saved.size - 1)) hv hroom
    have hu := (doCommand1_eq (m := .bvSet false) hidle rfl _).trans hx
    refine ⟨_, hu, doCommand1_keeps_inv ht hu, rfl, hfrozen, ?_, fun k => rfl⟩
    show BitVec.ofNat 32 ((s.saved.size - 1).toNat + 1) = s.size
    rw [hlast, Nat.sub_add_cancel hpos, BitVec.ofNat_toNat, BitVec.setWidth_eq]

/-- A saved record passes step 1 on a block with room for it. -/
theorem loadCheck_saved (hs : s.Inv) (hf : s.frozen = true) (hmax : s.size.toNat ≤ t.maxBits.toNat) :
    loadCheck s.saved t = true := by
  have hroom : (t.hostRead 0x30 64).toNat = t.maxBits.toNat :=
    BitVec.toNat_setWidth_of_le (w := 32) (w' := 64) (b := t.maxBits) (by decide)
  have hblocks : s.saved.blocks.length = s.nb := by simp [State.saved]
  have hrank : s.saved.rankTable.length = ceilDiv s.nb 8 + 1 := (hs.rankTable hf).length
  simp [loadCheck, s.saved_size_toNat, hroom, hblocks, hrank, hmax, State.nb]

/-- Step 6 of the load procedure accepts the vector that was saved. -/
theorem verifyRecord_saved (hs : s.Inv) (hf : s.frozen = true) (h : IdleWith s t) :
    ∃ u, verifyRecord s.saved t = .next (true, u) ∧ IdleWith s u := by
  obtain ⟨u1, hu1, hi1⟩ := h.readEntries_eq hf (hs.rt_length_lt hf)
  obtain ⟨u2, hu2, hi2⟩ := hi1.readSamples_eq hf (hs.samples_length_lt hf false)
  obtain ⟨u3, hu3, hi3⟩ := hi2.readSamples_eq hf (hs.samples_length_lt hf true)
  obtain ⟨-, hones, -⟩ := h.vector
  have hcount : t.hostRead 0x28 64 = s.saved.numOfOnes := by
    show t.ones.setWidth 64 = s.ones.setWidth 64
    rw [hones]
  refine ⟨u3, ?_, hi3⟩
  rw [verifyRecord, show s.saved.rankTable = s.rt from rfl, hu1, andThen_next, hu2, andThen_next, hu3, andThen_next, hcount]
  simp [State.saved, State.samples]

/-- A saved record loads into every idle block with room for it, and restores the vector. -/
theorem loadRecord_saved (hs : s.Inv) (hf : s.frozen = true) (ht : t.Inv) (hidle : t.running = none)
    (hmax : s.size.toNat ≤ t.maxBits.toNat) : ∃ u, loadRecord s.saved t = .next (true, u) ∧ s.SameVector u := by
  have hfs1 : (!s.saved.select1Table.isEmpty) = s.fs1 := hs.samples_isEmpty hf true
  have hfs0 : (!s.saved.select0Table.isEmpty) = s.fs0 := hs.samples_isEmpty hf false
  obtain ⟨s2, h2, hcleared, hmax2⟩ := doCommand_bvClear hidle
  obtain ⟨s3, h3, hr3⟩ := growCleared (doCommand_keeps_inv ht h2) (doCommand_idle h2) hcleared (hmax2 ▸ hmax)
  obtain ⟨s4, h4, hr4⟩ := hr3.writeWords hs (n := s.nb) (Nat.zero_add _)
  obtain ⟨s5, h5, hi5⟩ := hr4.build hs hf
  obtain ⟨s6, h6, hi6⟩ := verifyRecord_saved hs hf hi5
  rw [← List.range_eq_range'] at h4
  refine ⟨s6, ?_, hi6.vector⟩
  rw [loadRecord, if_neg (by simp [loadCheck_saved hs hf hmax]), h2, andThen_next, h3, andThen_next,
    show s.saved.blocks = (List.range s.nb).map s.blk.read from rfl, h4, andThen_next, hfs1, hfs0, h5, andThen_next, h6,
    andThen_next, if_pos rfl]

/-- Settles O57: the save answers `State.saved`, which loads. -/
theorem loadRestoresSavedVector : Obligations.LoadRestoresSavedVector := by
  intro s t s' r hs hf hidle hsave hs' hidle' hmax
  obtain ⟨u, hu, -⟩ := saveRecord_eq hs hf hidle
  obtain ⟨rfl, -⟩ := Prod.mk.inj (Host.Outcome.next.inj (hu.symm.trans hsave))
  exact loadRecord_saved hs hf hs' hidle' hmax

end

end Sys2Proof.Machine

/-! SUPPORT. The decoder and the encoder are inverse to each other, and the three ways of writing the opcode map agree: the
decoder, the illegal words of R115, and the printed rows (30_encoding.md R111 to R117). -/

namespace Sys2Proof
open Machine

section
variable {c : Word32} {opc : BitVec 8} {i : Instr} {fmt : Format} {r : OpcodeRow}

/-! ### The fields of a word -/

theorem hiField_append_opcField (c : Word32) : hiField c ++ opcField c = c :=
  BitVec.extractLsb'_append_extractLsb' (w := 24) (len := 8) (x := c)

theorem toNat_opcField (c : Word32) : (opcField c).toNat = c.toNat % 256 := by
  rw [opcField, BitVec.extractLsb'_toNat, Nat.shiftRight_zero]

theorem toNat_hiField (c : Word32) : (hiField c).toNat = c.toNat / 256 := by
  have := c.isLt
  rw [hiField, BitVec.extractLsb'_toNat, Nat.shiftRight_eq_div_pow]
  omega

theorem toNat_kField (c : Word32) : (kField c).toNat = c.toNat / 256 % 8 := by
  rw [kField, BitVec.extractLsb'_toNat, Nat.shiftRight_eq_div_pow]

theorem kField_eq (c : Word32) : kField c = (hiField c).setWidth 3 := by
  apply BitVec.eq_of_toNat_eq
  rw [toNat_kField, BitVec.toNat_setWidth, toNat_hiField]

theorem bit8_eq (c : Word32) : bit8 c = (hiField c).getLsbD 0 := by simp [bit8, hiField]

theorem bit9_eq (c : Word32) : bit9 c = (hiField c).getLsbD 1 := by simp [bit9, hiField]

theorem hiField_ushiftRight_eq_zero_iff {n : Nat} : hiField c >>> n = 0 ↔ c.toNat / (256 * 2 ^ n) = 0 := by
  rw [← BitVec.toNat_inj, BitVec.toNat_ushiftRight, toNat_hiField, Nat.shiftRight_eq_div_pow, Nat.div_div_eq_div_mul]
  rfl

theorem kField_eq_zero_iff : kField c = 0 ↔ c.toNat / 256 % 8 = 0 := by
  rw [← toNat_kField, ← BitVec.toNat_inj]
  rfl

/-- Bits 31:8 of a word of the format, as its fields fill them when the reserved bits are 0 (R111). -/
def Format.fields (c : Word32) : Format → BitVec 24
  | .n => 0
  | .v => (BitVec.ofBool (bit8 c)).setWidth 24
  | .f => (BitVec.ofBool (bit9 c) ++ BitVec.ofBool (bit8 c)).setWidth 24
  | .k => (kField c).setWidth 24

theorem Format.fields_eq (c : Word32) : fmt.fields c = ((hiField c).setWidth fmt.usedBits).setWidth 24 := by
  cases fmt with
  | n => exact congrArg (BitVec.setWidth 24) (Subsingleton.elim (0 : BitVec 0) _)
  | v => rw [fields, usedBits, bit8_eq, BitVec.setWidth_one]
  | f =>
    rw [fields, usedBits, bit8_eq, bit9_eq, BitVec.setWidth_succ (hiField c), BitVec.setWidth_one]
    rfl
  | k => rw [fields, usedBits, kField_eq]

theorem hiField_eq_fields (h : hiField c >>> fmt.usedBits = 0) : hiField c = fmt.fields c := by
  have hlt : (hiField c).toNat < 2 ^ fmt.usedBits := by
    have h0 : (hiField c >>> fmt.usedBits).toNat = 0 := congrArg BitVec.toNat h
    rw [BitVec.toNat_ushiftRight, Nat.shiftRight_eq_div_pow] at h0
    exact (Nat.div_eq_zero_iff_lt (Nat.two_pow_pos _)).mp h0
  apply BitVec.eq_of_toNat_eq
  rw [Format.fields_eq, BitVec.toNat_setWidth, BitVec.toNat_setWidth, Nat.mod_eq_of_lt hlt, Nat.mod_eq_of_lt (hiField c).isLt]

/-! ### The decoder's table -/

/-- The opcodes of a format (R113). -/
def Format.opcodes : Format → List Nat
  | .n => opcodesN
  | .v => opcodesV
  | .f => opcodesF
  | .k => opcodesK

/-- The encoder's halves of `i` are an opcode and the fields of `c` in format `fmt`, and `i` is well-formed unless its K is 0. -/
structure EntryFor (opc : BitVec 8) (c : Word32) (fmt : Format) (i : Instr) : Prop where
  mem : opc.toNat ∈ fmt.opcodes
  opcode : opcodeOf i = opc
  fields : fieldsOf i = fmt.fields c
  wellFormed : i.wellFormed = true ↔ ¬(fmt = .k ∧ kField c = 0)

theorem EntryFor.of_ne_k {n : Nat} (hn : opc.toNat = n) (hi : (opcodeOf i).toNat = n) (hmem : n ∈ fmt.opcodes) (hk : fmt ≠ .k)
    (hfields : fieldsOf i = fmt.fields c) (hw : i.wellFormed = true) : EntryFor opc c fmt i :=
  ⟨hn ▸ hmem, BitVec.eq_of_toNat_eq (hi.trans hn.symm), hfields, iff_of_true hw fun h => hk h.1⟩

theorem EntryFor.of_k {n : Nat} (hn : opc.toNat = n) (hi : (opcodeOf i).toNat = n) (hmem : n ∈ opcodesK)
    (hfields : fieldsOf i = (kField c).setWidth 24) (hw : i.wellFormed = (kField c != 0)) : EntryFor opc c .k i :=
  ⟨hn ▸ hmem, BitVec.eq_of_toNat_eq (hi.trans hn.symm), hfields, by simp [hw]⟩

/-- Each entry of the table is what the encoder writes (R113, R117). The cases are the lines of the table: format N, V or F with
one command; format V with the command chosen by V; format K; and no entry. -/
theorem opcodeEntry_eq_some (h : opcodeEntry opc c = some (fmt, i)) : EntryFor opc c fmt i := by
  revert h
  fun_cases opcodeEntry opc c with
  | case1 ho | case2 ho | case3 ho | case4 ho | case6 ho | case8 ho | case9 ho | case10 ho | case11 ho | case12 ho | case13 ho
  | case14 ho | case15 ho | case16 ho | case17 ho | case20 ho | case22 ho | case23 ho =>
    rintro ⟨⟩
    exact .of_ne_k ho rfl (by decide) (by decide) rfl rfl
  | case18 ho | case19 ho | case21 ho =>
    rintro ⟨⟩
    cases hv : bit8 c <;> exact .of_ne_k ho rfl (by decide) (by decide) (by rw [Format.fields, hv]; rfl) rfl
  | case5 ho | case7 ho =>
    rintro ⟨⟩
    exact .of_k ho rfl (by decide) rfl rfl
  | case24 => rintro ⟨⟩

/-- R115 (a): the opcodes that are none of the 23. -/
def UnassignedOpcode (o : Nat) : Prop :=
  o = 0x00 ∨ (0x03 ≤ o ∧ o ≤ 0x0F) ∨ (0x18 ≤ o ∧ o ≤ 0x1F) ∨ (0x27 ≤ o ∧ o ≤ 0x2F) ∨ (0x33 ≤ o ∧ o ≤ 0x3F) ∨
    (0x43 ≤ o ∧ o ≤ 0xFF)

/-- R115 (b) and (c): a reserved bit of the format is 1, or the format has a K and it is 0. -/
def Format.Violated (c : Word32) (fmt : Format) : Prop := hiField c >>> fmt.usedBits ≠ 0 ∨ (fmt = .k ∧ kField c = 0)

theorem not_unassigned_of_mem {o : Nat} (h : o ∈ fmt.opcodes) : ¬UnassignedOpcode o := by
  unfold UnassignedOpcode
  revert o
  cases fmt <;> decide

/-- No opcode has two formats. -/
theorem Format.eq_of_mem_opcodes {fmt' : Format} {o : Nat} (h : o ∈ fmt.opcodes) (h' : o ∈ fmt'.opcodes) : fmt = fmt' := by
  revert o
  cases fmt <;> cases fmt' <;> decide

theorem opcodeEntry_eq_none_iff : opcodeEntry opc c = none ↔ UnassignedOpcode opc.toNat := by
  constructor
  · have := opc.isLt
    fun_cases opcodeEntry opc c with
    | case24 =>
      intro
      simp only [imp_false] at *
      unfold UnassignedOpcode
      omega
    | _ => exact nofun
  · intro hu
    cases he : opcodeEntry opc c with
    | none => rfl
    | some p => exact absurd hu (not_unassigned_of_mem (opcodeEntry_eq_some he).mem)

/-! ### The decoder -/

theorem decode_of_not_violated (he : opcodeEntry (opcField c) c = some (fmt, i)) (hv : ¬fmt.Violated c) : decode c = .ok i := by
  obtain ⟨hr, hk⟩ := not_or.mp hv
  simp only [decode, he, if_neg hr, if_neg hk]

theorem decode_of_violated (he : opcodeEntry (opcField c) c = some (fmt, i)) (hv : fmt.Violated c) :
    ∃ e, decode c = .error e := by
  simp only [decode, he]
  by_cases hr : hiField c >>> fmt.usedBits ≠ 0
  · exact ⟨.reservedBits, if_pos hr⟩
  · exact ⟨.zeroSubfield, by rw [if_neg hr, if_pos (hv.resolve_left hr)]⟩

/-- What the decoder can answer. -/
theorem decode_cases (c : Word32) :
    (opcodeEntry (opcField c) c = none ∧ ∃ e, decode c = .error e) ∨
    ∃ fmt i, opcodeEntry (opcField c) c = some (fmt, i) ∧
      ((fmt.Violated c ∧ ∃ e, decode c = .error e) ∨ (¬fmt.Violated c ∧ decode c = .ok i)) := by
  cases he : opcodeEntry (opcField c) c with
  | none => exact .inl ⟨rfl, .unassignedOpcode, by simp only [decode, he]⟩
  | some p =>
    obtain ⟨fmt, i⟩ := p
    refine .inr ⟨fmt, i, rfl, ?_⟩
    by_cases hv : fmt.Violated c
    · exact .inl ⟨hv, decode_of_violated he hv⟩
    · exact .inr ⟨hv, decode_of_not_violated he hv⟩

/-- The illegal words by the fields of the word: R115 (a) of the opcode, (b) and (c) of the format that the opcode has. -/
theorem illegalWord_iff :
    IllegalWord c.toNat ↔
      UnassignedOpcode (opcField c).toNat ∨ ∃ fmt : Format, (opcField c).toNat ∈ fmt.opcodes ∧ fmt.Violated c := by
  have hr (n : Nat) : hiField c >>> n ≠ 0 ↔ c.toNat / (256 * 2 ^ n) ≠ 0 := hiField_ushiftRight_eq_zero_iff.not
  rw [IllegalWord, ← toNat_opcField, ← kField_eq_zero_iff]
  refine or_congr Iff.rfl ⟨?_, ?_⟩
  · rintro ((⟨hm, h⟩ | ⟨hm, h⟩ | ⟨hm, h⟩ | ⟨hm, h⟩) | ⟨hm, h⟩)
    · exact ⟨.n, hm, .inl ((hr 0).mpr h)⟩
    · exact ⟨.v, hm, .inl ((hr 1).mpr h)⟩
    · exact ⟨.f, hm, .inl ((hr 2).mpr h)⟩
    · exact ⟨.k, hm, .inl ((hr 3).mpr h)⟩
    · exact ⟨.k, hm, .inr ⟨rfl, h⟩⟩
  · rintro ⟨fmt, hm, h | ⟨rfl, h⟩⟩
    · refine .inl ?_
      cases fmt with
      | n => exact .inl ⟨hm, (hr 0).mp h⟩
      | v => exact .inr (.inl ⟨hm, (hr 1).mp h⟩)
      | f => exact .inr (.inr (.inl ⟨hm, (hr 2).mp h⟩))
      | k => exact .inr (.inr (.inr ⟨hm, (hr 3).mp h⟩))
    · exact .inr ⟨hm, h⟩

/-- The decoder refuses exactly the illegal words (R115, R116). -/
theorem illegalWord_iff_decode_error : IllegalWord c.toNat ↔ ∃ e, decode c = .error e := by
  rw [illegalWord_iff]
  obtain ⟨hn, he⟩ | ⟨fmt, i, hs, h⟩ := decode_cases c
  · exact iff_of_true (.inl (opcodeEntry_eq_none_iff.mp hn)) he
  have hmem := (opcodeEntry_eq_some hs).mem
  obtain ⟨hv, he⟩ | ⟨hv, hok⟩ := h
  · exact iff_of_true (.inr ⟨fmt, hmem, hv⟩) he
  · refine iff_of_false ?_ (by simp [hok])
    rintro (hu | ⟨fmt', hmem', hv'⟩)
    · exact not_unassigned_of_mem hmem hu
    · exact hv (Format.eq_of_mem_opcodes hmem' hmem ▸ hv')

/-- A word that decodes is the word the encoder writes for its command, which is well-formed (R111, R113, R117). -/
theorem encode_of_decode (h : decode c = .ok i) : i.wellFormed = true ∧ encode i = c := by
  obtain ⟨-, e, he⟩ | ⟨fmt, j, hs, ⟨-, e, he⟩ | ⟨hv, hok⟩⟩ := decode_cases c
  · cases h.symm.trans he
  · cases h.symm.trans he
  cases h.symm.trans hok
  obtain ⟨hr, hk⟩ := not_or.mp hv
  obtain ⟨-, hopc, hfields, hwf⟩ := opcodeEntry_eq_some hs
  refine ⟨hwf.mpr hk, ?_⟩
  rw [encode, hopc, hfields, ← hiField_eq_fields (not_not.mp hr), hiField_append_opcField]

/-! ### The printed rows -/

/-- The word with K in bits 10:8 and the other bits of `t`. -/
def withK (t : Word32) (k : BitVec 3) : Word32 := (t &&& 0xFFFFF8FF#32) ||| k.setWidth 32 <<< 8

theorem withK_kField (c : Word32) : withK c (kField c) = c := by
  have hmask : ∀ j < 32, (0xFFFFF8FF#32).getLsbD j = decide (j < 8 ∨ 11 ≤ j) := by decide
  refine BitVec.eq_of_getLsbD_eq fun j hj => ?_
  simp only [withK, kField, BitVec.getLsbD_or, BitVec.getLsbD_and, hmask j hj, BitVec.getLsbD_shiftLeft, BitVec.getLsbD_setWidth,
    BitVec.getLsbD_extractLsb', hj]
  obtain h8 | ⟨h8, h11⟩ | h11 : j < 8 ∨ (8 ≤ j ∧ j < 11) ∨ 11 ≤ j := by omega
  · simp [h8]
  · simp [show ¬j < 8 by omega, show ¬11 ≤ j by omega, show j - 8 < 3 by omega, show j - 8 < 32 by omega,
      show 8 + (j - 8) = j by omega]
  · simp [h11, show ¬j - 8 < 3 by omega]

/-- Every row fixes all bits but 10:8. -/
theorem eq_withK_of_accepts (hr : r ∈ opcodeRows) (h : r.accepts c = true) : c = withK r.mtch (kField c) := by
  have hmsk : ∀ r ∈ opcodeRows, r.msk &&& 0xFFFFF8FF#32 = 0xFFFFF8FF#32 := by decide
  have hc : c &&& r.msk = r.mtch := by simpa using (Bool.and_eq_true_iff.mp h).1
  calc c = withK c (kField c) := (withK_kField c).symm
    _ = withK r.mtch (kField c) := by rw [withK, withK, ← hc, BitVec.and_assoc, hmsk r hr]

/-- A word that a row accepts is a command. -/
theorem decode_isOk_of_accepts (hr : r ∈ opcodeRows) (h : r.accepts c = true) : (decode c).isOk = true := by
  have hall : ∀ r ∈ opcodeRows, ∀ k, r.accepts (withK r.mtch k) = true → (decode (withK r.mtch k)).isOk = true := by decide
  have hc := eq_withK_of_accepts hr h
  rw [hc] at h ⊢
  exact hall r hr _ h

/-- Exactly one row accepts the word of a command, the one with its mnemonic. -/
theorem rows_accepting_encode (hw : i.wellFormed = true) :
    (opcodeRows.filter fun r => r.accepts (encode i)).map (·.mnemonic) = [mnemonicOf i] := by
  cases i with
  | riSetrel k | riGetrel k =>
    revert k
    decide
  | bvSet v | bvPush v | smpLen v | smpRead v => cases v <;> rfl
  | bvBuild fs1 fs0 => cases fs1 <;> cases fs0 <;> rfl
  | _ => rfl

end

/-! ### The obligations -/

/-- Settles O1: eleven fixed words, each run through the decoder. -/
theorem specWordsDecode : Obligations.SpecWordsDecode := by
  unfold Obligations.SpecWordsDecode
  decide

/-- Settles O2, by cases on the command and its fields. -/
theorem decodeEncodeRoundTrip : Obligations.DecodeEncodeRoundTrip := fun _ => decode_encode

/-- Settles O3: the decoder's entry names the opcode and the fields that the encoder writes. -/
theorem encodeDecodeRoundTrip : Obligations.EncodeDecodeRoundTrip := fun _ _ => encode_of_decode

/-- Settles O4: a word that decodes is an encoded command, which one row accepts; the decoder refuses the illegal words, and no
other; and no row accepts a word that it refuses. -/
theorem everyWordIsOneCommandOrIllegal : Obligations.EveryWordIsOneCommandOrIllegal := by
  intro c
  cases hd : decode c with
  | ok i =>
    obtain ⟨hw, rfl⟩ := encode_of_decode hd
    exact .inl ⟨i, rfl, by simp [illegalWord_iff_decode_error, hd], rows_accepting_encode hw⟩
  | error e =>
    refine .inr ⟨⟨e, rfl⟩, illegalWord_iff_decode_error.mpr ⟨e, hd⟩, List.filter_eq_nil_iff.mpr fun r hr h => ?_⟩
    have hok := decode_isOk_of_accepts hr h
    rw [hd] at hok
    cases hok

/-- Settles O5: the decoder refuses the word, so the engine raises ILLEGAL_COMMAND. -/
theorem illegalWordFaultsIllegalCommand : Obligations.IllegalWordFaultsIllegalCommand := by
  refine ⟨.inl (.inl rfl), fun s l hl hill => ?_⟩
  obtain ⟨e, he⟩ := illegalWord_iff_decode_error.mp hill
  simp only [State.engineTurn, hl, he]
  rfl

end Sys2Proof

/-! SUPPORT. Settled: POPCNT, SELW and the in-word select table. The statements count positions of a list, the units count with
`onesBelow`; one lemma says that the two counts agree. -/

namespace Sys2Proof.Machine

section
variable {s : State}

/-! ### The count of the statements -/

theorem countP_testBit (v n : Nat) : (List.range n).countP (fun j => v.testBit j) = onesBelow v n := by
  induction n with
  | zero => rfl
  | succ n ih => rw [List.range_succ, List.countP_append, ih, onesBelow_succ, List.countP_singleton]

theorem countBits_eq (w : Word) (n : Nat) : countBits w n = onesBelow w.toNat n := countP_testBit w.toNat n

theorem countBits_word (w : Word) : countBits w 64 = popcount w := countBits_eq w 64

theorem countP_byte (b : Byte) (n : Nat) : (List.range n).countP (fun j => b.getLsbD j) = onesBelow b.toNat n :=
  countP_testBit b.toNat n

/-! ### The in-word select table -/

/-- The entries of the in-word select table that are never read hold 0 (40_popcount.md R145): a position that such an entry
could name would be a one with all the ones of `b` below it. -/
theorem lut_eq_zero {r : Nat} {b : Byte} (h : onesBelow b.toNat 8 ≤ r) : lut r b = 0 := by
  have hnone : (List.range 8).find? (fun q => b.getLsbD q && onesBelow b.toNat q == r) = none := by
    refine List.find?_eq_none.mpr fun q hq hfound => ?_
    obtain ⟨hbit, hr⟩ := Bool.and_eq_true_iff.mp hfound
    have hlt := onesBelow_lt_of_testBit hbit (List.mem_range.mp hq)
    rw [beq_iff_eq.mp hr] at hlt
    exact Nat.not_lt_of_le h hlt
  rw [lut, hnone]
  rfl

/-! ### SELW -/

/-- SELW with no more than ARG1 ones in ARG0 finds nothing (40_popcount.md R147). -/
theorem execSelw_notFound (h : popcount s.opnd0 ≤ s.opnd1.toNat) : execSelw s = .next s.notFound := if_pos h

/-- SELW with more than ARG1 ones in ARG0 answers the position of the one that has ARG1 ones below it (40_popcount.md R147). -/
theorem execSelw_found (h : s.opnd1.toNat < popcount s.opnd0) :
    ∃ p, p < 64 ∧ s.opnd0.getLsbD p = true ∧ onesBelow s.opnd0.toNat p = s.opnd1.toNat ∧
      execSelw s = .next (s.completeWith (BitVec.ofNat 64 p)) := by
  obtain ⟨p, hp, hlt, hbit, hcount⟩ := selw_spec h
  refine ⟨p, hlt, hbit, hcount, ?_⟩
  rw [execSelw, if_neg (Nat.not_le_of_lt h), hp, State.finish]

end

/-! ### The obligations -/

/-- Settles O30: the PopCount unit's counter is the count of the statement. -/
theorem popcntCountsOnes : Obligations.PopcntCountsOnes := by
  refine ⟨rfl, fun s => ?_⟩
  rw [countBits_word]
  rfl

/-- Settles O31, by the two outcomes of SELW. -/
theorem selwFindsTheOne : Obligations.SelwFindsTheOne := by
  refine ⟨rfl, fun s => ?_⟩
  rw [countBits_word]
  refine ⟨execSelw_notFound, fun h => ?_⟩
  obtain ⟨p, hlt, hbit, hcount, hexec⟩ := execSelw_found h
  exact ⟨p, hlt, hbit, (countBits_eq _ p).trans hcount, hexec⟩

/-- Settles O32: the entries that are read, and the entries that are not. -/
theorem lutHoldsPositions : Obligations.LutHoldsPositions := by
  intro r b _
  simp only [countP_byte]
  exact ⟨lut_spec, lut_eq_zero⟩

end Sys2Proof.Machine

/-! SUPPORT. Settled: the commands over RIX. The statements give the sub-fields by the table of 20_memory.md R73 and read them as
a quotient and a remainder; one lemma ties the table to the model's offsets and widths, one the decoder to the quotient. -/

namespace Sys2Proof.Machine

section
variable {s : State} {i : Instr} {k : BitVec 3} {n o w : Nat}

/-! ### The sub-fields -/

/-- The rows of the table of R73 are the model's sub-fields 1 to 7, and a K of three bits holds their number. -/
theorem mem_relFields (h : (n, o, w) ∈ relFields) :
    1 ≤ n ∧ n ≤ 7 ∧ o = relOffset n ∧ w = relWidth n ∧ BitVec.ofNat 3 n ≠ 0 ∧ (BitVec.ofNat 3 n).toNat = n := by
  have hall : ∀ f ∈ relFields, 1 ≤ f.1 ∧ f.1 ≤ 7 ∧ f.2.1 = relOffset f.1 ∧ f.2.2 = relWidth f.1 ∧
      BitVec.ofNat 3 f.1 ≠ 0 ∧ (BitVec.ofNat 3 f.1).toNat = f.1 := by decide
  exact hall _ h

/-- The decoder as arithmetic (41_rankindex.md R163). -/
theorem getRel_eq_div_mod (e : RankEntry) (h1 : 1 ≤ n) (h7 : n ≤ 7) :
    getRel e n = e.rel.toNat / 2 ^ relOffset n % 2 ^ relWidth n := by
  obtain ⟨-, hw, -⟩ := rel_field_bounds h1 h7
  refine Nat.eq_of_testBit_eq fun j => ?_
  rw [getRel_testBit, Nat.testBit_mod_two_pow, Nat.testBit_div_two_pow, word_testBit, Nat.add_comm j]
  by_cases hj : j < relWidth n
  · simp [show j < 64 by omega]
  · simp [hj]

/-! ### Command words -/

/-- A command of format K has its K in bits 10:8 (30_encoding.md R111). -/
theorem encode_of_fieldsOf_eq_setWidth (h : fieldsOf i = k.setWidth 24) :
    encode i = BitVec.ofNat 32 ((opcodeOf i).toNat + 256 * k.toNat) := by
  have hk := k.isLt
  have ho := (opcodeOf i).isLt
  refine BitVec.eq_of_toNat_eq ?_
  rw [encode, h, BitVec.toNat_append, ← Nat.shiftLeft_add_eq_or_of_lt ho, Nat.shiftLeft_eq, BitVec.toNat_setWidth_of_le (by decide),
    BitVec.toNat_ofNat]
  omega

/-- A word of format K with K = 0 or a reserved bit set is illegal (30_encoding.md R115). -/
theorem decode_error_of_opcodesK {c : Word32} (ho : c.toNat % 256 ∈ opcodesK) (h : c.toNat / 256 % 8 = 0 ∨ c.toNat / 2048 ≠ 0) :
    ∃ e, decode c = .error e := by
  refine illegalWord_iff_decode_error.mp (.inr ?_)
  obtain hzero | hres := h
  · exact .inr ⟨ho, hzero⟩
  · exact .inl (.inr (.inr (.inr ⟨ho, hres⟩)))

/-! ### Commands -/

theorem execRiSetrel_of_ne_zero (hk : k ≠ 0) :
    execRiSetrel k s = .next { s.complete with rix := setRel s.rix k.toNat s.opnd0 } := if_neg hk

theorem execRiGetrel_of_ne_zero (hk : k ≠ 0) :
    execRiGetrel k s = .next (s.completeWith (BitVec.ofNat 64 (getRel s.rix k.toNat))) := if_neg hk

theorem execRiLoad_of_not_frozen (hf : s.frozen = false) : execRiLoad s = .next (s.raiseFault .notBuilt) := if_pos hf

theorem execRiLoad_of_length_le (hf : s.frozen = true) (hg : s.rt.length ≤ s.index) :
    execRiLoad s = .next (s.raiseFault .indexRange) := by
  rw [execRiLoad, if_neg (by simp [hf]), if_pos hg]

end

/-! ### The obligations -/

/-- Settles O33: each command's effect is its definition, and R161 keeps the low 32 bits of ARG0. -/
theorem rixWholeFieldCommands : Obligations.RixWholeFieldCommands := by
  refine ⟨⟨rfl, rfl, rfl, rfl, rfl⟩, fun s => ⟨rfl, ?_, rfl, rfl, rfl⟩⟩
  rw [BitVec.ofNat_toNat]
  rfl

/-- Settles O34: `setRel` bit by bit, at the offset and width of the table. -/
theorem riSetrelWritesOneField : Obligations.RiSetrelWritesOneField := by
  refine ⟨fun c hc => decode_error_of_opcodesK (by simp [hc, opcodesK]), fun s n o w hmem => ?_⟩
  obtain ⟨h1, h7, rfl, rfl, hk, hn⟩ := mem_relFields hmem
  refine ⟨(encode_of_fieldsOf_eq_setWidth rfl).trans (by rw [hn]; rfl), setRel s.rix n s.opnd0, ?_, rfl, fun j =>
    setRel_getLsbD s.rix h1 h7 s.opnd0⟩
  exact (execRiSetrel_of_ne_zero hk).trans (by rw [hn]; rfl)

/-- Settles O35: `getRel` as a quotient and a remainder, at the offset and width of the table. -/
theorem riGetrelReadsOneField : Obligations.RiGetrelReadsOneField := by
  refine ⟨fun c hc => decode_error_of_opcodesK (by simp [hc, opcodesK]), fun s n o w hmem => ?_⟩
  obtain ⟨h1, h7, rfl, rfl, hk, hn⟩ := mem_relFields hmem
  refine ⟨(encode_of_fieldsOf_eq_setWidth rfl).trans (by rw [hn]; rfl), (execRiGetrel_of_ne_zero hk).trans ?_⟩
  rw [hn, getRel_eq_div_mod s.rix h1 h7]
  rfl

/-- Settles O36, by the three outcomes of RI_LOAD. -/
theorem riLoadReadsEntry : Obligations.RiLoadReadsEntry :=
  ⟨rfl, fun _ => ⟨execRiLoad_of_not_frozen, execRiLoad_of_length_le, fun _ => execRiLoad_of_entry⟩⟩

end Sys2Proof.Machine

/-! SUPPORT. Settled: the bit-store commands and the tables BV_BUILD leaves. BV_SET and BV_PUSH end in the same way: growth adds
no word to a vector of the invariant, so both write one bit and raise `size` to hold it. -/

namespace Sys2Proof.Machine

section
variable {s : State} {v : Bool} {i w : Nat}

/-! ### Writing one bit -/

/-- No word at or past `nb` is listed, so growth drops none (10_state.md R50, 42_bitvector.md R192). -/
theorem State.Inv.keepBelow_nb (h : s.Inv) : s.blk.keepBelow s.nb = s.blk := by
  refine BlockMem.ext_of_read (BlockMem.wf_keepBelow _ h.blkWf) h.blkWf fun w => ?_
  rw [BlockMem.read_keepBelow]
  split
  · rfl
  · exact (h.read_of_nb_le (by omega)).symm

/-- Growth of a vector of the invariant changes `size` only: every new bit already reads 0 (42_bitvector.md R192). -/
theorem State.Inv.grow_eq (h : s.Inv) (n : Nat) : s.grow n = { s with size := BitVec.ofNat 32 n } := by
  rw [State.grow, h.keepBelow_nb]

/-- A bit that reads 1 is inside the vector (10_state.md R51). -/
theorem State.Inv.bit_eq_and (h : s.Inv) (p : Nat) : s.bit p = (decide (p < s.size.toNat) && s.bit p) := by
  by_cases hp : p < s.size.toNat
  · rw [decide_eq_true hp, Bool.true_and]
  · rw [h.padding p (by omega), Bool.and_false]

/-- What BV_SET and BV_PUSH leave (42_bitvector.md R191, R193): bit `i` is `v`, and `size` has grown to hold it. -/
def State.storedBit (s : State) (i : Nat) (v : Bool) : State :=
  (State.writeBit { s with size := BitVec.ofNat 32 (max s.size.toNat (i + 1)) } i v).complete

theorem State.storedBit_frame (s : State) (i : Nat) (v : Bool) :
    s.storedBit i v = { s with
      running := none, err := false, errCode := 0, found := true, size := (s.storedBit i v).size,
      blk := (s.storedBit i v).blk } := rfl

theorem State.Inv.storedBit_size (h : s.Inv) (hi : i < s.maxBits.toNat) (v : Bool) :
    (s.storedBit i v).size.toNat = max s.size.toNat (i + 1) := by
  have hsize := h.sizeLe
  have hmax := s.maxBits.isLt
  show (BitVec.ofNat 32 (max s.size.toNat (i + 1))).toNat = _
  rw [BitVec.toNat_ofNat, Nat.mod_eq_of_lt (by omega)]

theorem State.Inv.storedBit_bit (h : s.Inv) (i : Nat) (v : Bool) (p : Nat) :
    (s.storedBit i v).bit p = if p = i then v else (decide (p < s.size.toNat) && s.bit p) := by
  rw [← h.bit_eq_and]
  exact State.bit_writeBit i v p

theorem State.storedBit_read_of_ne (hw : w ≠ i / 64) (v : Bool) : (s.storedBit i v).blk.read w = s.blk.read w :=
  (BlockMem.read_write _ _ _ _).trans (if_neg hw.symm)

/-! ### BV_SET and BV_PUSH -/

theorem execBvSet_of_capacity (hf : s.frozen = false) (hi : s.maxBits.toNat ≤ s.index) :
    execBvSet v s = .next (s.raiseFault .capacity) := by
  rw [execBvSet, if_neg (ne_true_of_eq_false hf), if_pos hi]

/-- BV_SET in the build phase, below the capacity (42_bitvector.md R191). -/
theorem execBvSet_of_lt (h : s.Inv) (hf : s.frozen = false) (hi : s.index < s.maxBits.toNat) :
    execBvSet v s = .next (s.storedBit s.index v) := by
  have hgrown : (if s.size.toNat ≤ s.index then s.grow (s.index + 1) else s) =
      { s with size := BitVec.ofNat 32 (max s.size.toNat (s.index + 1)) } := by
    split
    next hpast => rw [h.grow_eq, Nat.max_eq_right (by omega)]
    next hin => rw [Nat.max_eq_left (by omega), BitVec.ofNat_toNat, BitVec.setWidth_eq]
  rw [execBvSet, if_neg (ne_true_of_eq_false hf), if_neg (Nat.not_le_of_lt hi), hgrown]
  rfl

theorem execBvPush_of_capacity (hf : s.frozen = false) (hsize : s.maxBits.toNat ≤ s.size.toNat) :
    execBvPush v s = .next (s.raiseFault .capacity) := by
  rw [execBvPush, if_neg (ne_true_of_eq_false hf), if_pos hsize]

/-- Clearing a bit that is 0 changes nothing. -/
theorem and_not_one_shift {x : Word} {k : Nat} (hk : x.getLsbD k = false) : x &&& ~~~(1#64 <<< k) = x := by
  refine BitVec.eq_of_getLsbD_eq fun j hj => ?_
  rw [BitVec.getLsbD_and, BitVec.getLsbD_not, one_shift_getLsbD hj]
  by_cases hjk : j = k
  · rw [hjk, hk, Bool.false_and]
  · simp [hj, hjk]

/-- BV_PUSH in the build phase, below the capacity (42_bitvector.md R193): the bit at `size` is 0, so that its OR is the write of
a bit. -/
theorem execBvPush_of_lt (h : s.Inv) (hf : s.frozen = false) (hsize : s.size.toNat < s.maxBits.toNat) :
    execBvPush v s = .next (s.storedBit s.size.toNat v) := by
  have hzero : (s.blk.read (s.size.toNat / 64)).getLsbD (s.size.toNat % 64) = false := h.padding _ (Nat.le_refl _)
  rw [execBvPush, if_neg (ne_true_of_eq_false hf), if_neg (Nat.not_le_of_lt hsize), State.storedBit, State.writeBit,
    Nat.max_eq_right (Nat.le_succ _)]
  simp only [h.grow_eq, and_not_one_shift hzero]

/-! ### BV_GET, BV_WRWORD and BV_RDWORD -/

theorem execBvGet_of_le (hi : s.size.toNat ≤ s.index) : execBvGet s = .next (s.raiseFault .indexRange) := if_pos hi

/-- BV_GET inside the vector (42_bitvector.md R194). -/
theorem execBvGet_of_lt (hi : s.index < s.size.toNat) : execBvGet s = .next (s.completeWith (if s.bit s.index then 1 else 0)) := by
  have hbit : BitVec.ofNat 64 (s.bit s.index).toNat = if s.bit s.index then 1 else 0 := by cases s.bit s.index <;> rfl
  rw [execBvGet, if_neg (Nat.not_le_of_lt hi), State.blkWord_of_lt_nb (State.word_lt_nb hi), ← hbit]
  rfl

theorem execBvWrword_of_le (hf : s.frozen = false) (hw : s.nb ≤ s.index) :
    execBvWrword s = .next (s.raiseFault .indexRange) := by
  rw [execBvWrword, if_neg (ne_true_of_eq_false hf), if_pos hw]

theorem execBvRdword_of_le (hw : s.nb ≤ s.index) : execBvRdword s = .next (s.raiseFault .indexRange) := if_pos hw

/-- BV_WRWORD keeps the bits of the word that lie inside the vector (42_bitvector.md R195). -/
theorem State.getLsbD_and_mask_bitsInWord (s : State) (w : Nat) (x : Word) {j : Nat} (hj : j < 64) :
    (x &&& mask (s.bitsInWord w)).getLsbD j = (decide (64 * w + j < s.size.toNat) && x.getLsbD j) := by
  have hin : j < s.bitsInWord w ↔ 64 * w + j < s.size.toNat := by
    unfold State.bitsInWord
    omega
  rw [BitVec.getLsbD_and, mask_getLsbD, decide_eq_true hj, Bool.and_true, decide_eq_decide.mpr hin, Bool.and_comm]

/-! ### BV_BUILD -/

/-- BV_BUILD from a building state of the invariant commits what its pass ends in, which is a state of the invariant. -/
theorem exec_bvBuild_of_building (h : s.Inv) (hf : s.frozen = false) (fs1 fs0 : Bool) :
    ∃ a, exec (.bvBuild fs1 fs0) s = .next (s.builtWith fs1 fs0 a) ∧ (s.builtWith fs1 fs0 a).Inv := by
  obtain ⟨a, ha⟩ := execBvBuild_of_building h.padding hf fs1 fs0
  exact ⟨a, ha, exec_keeps_inv (i := .bvBuild fs1 fs0) h ha⟩

theorem State.hostRead_ones (s : State) : (s.hostRead 0x28 64).toNat = s.ones.toNat :=
  BitVec.toNat_setWidth_of_le (b := s.ones) (show 32 ≤ 64 by decide)

/-- The unused bits 63:59 of a packed word, as a quotient (20_memory.md R73). -/
theorem toNat_div_of_unused {x : Word} (h : x.extractLsb' 59 5 = 0) : x.toNat / 2 ^ 59 = 0 := by
  have hx := x.isLt
  have hnat := congrArg BitVec.toNat h
  rw [BitVec.extractLsb'_toNat, Nat.shiftRight_eq_div_pow, Nat.mod_eq_of_lt (by omega)] at hnat
  exact hnat

/-- The elements of a sampling table before the sentinel exist (42_bitvector.md R206). -/
theorem State.SamplesOk.exists_sample (h : s.SamplesOk v) {k : Nat} (hk : k < ceilDiv (s.countOf v) 512) :
    ∃ p, (s.samples v)[k]? = some p ∧ s.IsSelect v (512 * k) p.toNat := by
  have hp := List.getElem?_eq_getElem (l := s.samples v) (i := k) (by rw [h.length]; omega)
  exact ⟨_, hp, h.sample k _ hk hp⟩

/-- The elements of a sampling table strictly rise, and all but the sentinel are positions of the vector (42_bitvector.md R206). -/
theorem State.SamplesOk.lt (h : s.SamplesOk v) {j k : Nat} {p q : Word32} (hjk : j < k) (hp : (s.samples v)[j]? = some p)
    (hq : (s.samples v)[k]? = some q) : p.toNat < q.toNat ∧ p.toNat < s.size.toNat := by
  have hk : k < (s.samples v).length := (List.getElem?_eq_some_iff.mp hq).1
  have hlen := h.length
  have hpsel := h.sample j p (by omega) hp
  have hpsize := State.holds_lt hpsel.1
  refine ⟨?_, hpsize⟩
  rcases Nat.lt_or_ge k (ceilDiv (s.countOf v) 512) with hlt | hge
  · exact hpsel.lt (h.sample k q hlt hq) (by omega)
  · obtain rfl : k = ceilDiv (s.countOf v) 512 := by omega
    obtain rfl : s.size = q := Option.some.inj (h.sentinel.symm.trans hq)
    exact hpsize

end

/-! ### The obligations -/

/-- Settles O38, by the three outcomes of BV_SET. -/
theorem bvSetWritesOneBit : Obligations.BvSetWritesOneBit :=
  fun v s => ⟨by cases v <;> rfl, fun hf => frozenWritesFault s v false false _ hf (by simp), execBvSet_of_capacity,
    fun h hf hi => ⟨s.storedBit s.index v, execBvSet_of_lt h hf hi, s.storedBit_frame _ v, h.storedBit_size hi v,
      h.storedBit_bit _ v, fun w hw => State.storedBit_read_of_ne hw v⟩⟩

/-- Settles O39: BV_PUSH ends as BV_SET at position `size` does. -/
theorem bvPushAppendsOneBit : Obligations.BvPushAppendsOneBit := by
  refine fun v s => ⟨by cases v <;> rfl, fun hf => frozenWritesFault s v false false _ hf (by simp), execBvPush_of_capacity,
    fun h hf hsize => ⟨s.storedBit s.size.toNat v, execBvPush_of_lt h hf hsize, s.storedBit_frame _ v, ?_, h.storedBit_bit _ v,
      fun w hw => State.storedBit_read_of_ne hw v⟩⟩
  rw [h.storedBit_size hsize, Nat.max_eq_right (Nat.le_succ _)]

/-- Settles O41, by the three outcomes of BV_WRWORD. -/
theorem bvWrwordWritesOneWord : Obligations.BvWrwordWritesOneWord := by
  refine ⟨rfl, fun s => ⟨fun hf => frozenWritesFault s false false false _ hf (by simp), execBvWrword_of_le,
    fun hf hw => ⟨_, execBvWrword_of_lt hf hw, rfl, fun j hj => ?_, fun w hw => ?_⟩⟩⟩
  · rw [← s.getLsbD_and_mask_bitsInWord _ _ hj]
    exact congrArg (BitVec.getLsbD · j) ((BlockMem.read_write _ _ _ _).trans (if_pos rfl))
  · exact (BlockMem.read_write _ _ _ _).trans (if_neg hw.symm)

/-- Settles O43: what BV_BUILD writes, and the 1-count of the invariant. -/
theorem bvBuildFreezesVector : Obligations.BvBuildFreezesVector := by
  refine fun fs1 fs0 s => ⟨by cases fs1 <;> cases fs0 <;> rfl, fun h hf => ?_⟩
  obtain ⟨a, hexec, ht⟩ := exec_bvBuild_of_building h hf fs1 fs0
  have hones := (ht.onesOk rfl).trans (State.builtWith_rank true _)
  exact ⟨_, hexec, rfl, hones, (State.hostRead_ones _).trans hones⟩

/-- Settles O44: the rank table of the invariant, with its fields read as quotients and remainders. -/
theorem bvBuildRankTableClosedForm : Obligations.BvBuildRankTableClosedForm := by
  intro fs1 fs0 s h hf
  obtain ⟨a, hexec, ht⟩ := exec_bvBuild_of_building h hf fs1 fs0
  have htable := ht.rankTable rfl
  have hcnt : ∀ lo hi, (s.builtWith fs1 fs0 a).cnt true lo hi = s.cnt true lo hi := State.cnt_congr rfl rfl
  refine ⟨_, hexec, htable.length, fun g e he => ⟨(htable.abs g e he).trans (hcnt _ _), fun k o w hmem => ?_,
    toNat_div_of_unused (htable.unused g e he)⟩⟩
  obtain ⟨h1, h7, rfl, rfl, -⟩ := mem_relFields hmem
  rw [← getRel_eq_div_mod e h1 h7, htable.rel g e he k h1 h7, hcnt]

/-- Settles O45: the sampling tables of the invariant. -/
theorem bvBuildSamplingClosedForm : Obligations.BvBuildSamplingClosedForm := by
  intro fs1 fs0 s h hf
  obtain ⟨a, hexec, ht⟩ := exec_bvBuild_of_building h hf fs1 fs0
  refine ⟨_, hexec, fun v table fs hmem => ?_⟩
  obtain ⟨rfl, rfl⟩ : table = (s.builtWith fs1 fs0 a).samples v ∧ fs = (s.builtWith fs1 fs0 a).hasSamples v := by
    simp only [List.mem_cons, Prod.mk.injEq, List.not_mem_nil, or_false] at hmem
    obtain ⟨rfl, rfl, rfl⟩ | ⟨rfl, rfl, rfl⟩ := hmem <;> exact ⟨rfl, rfl⟩
  have hcount : (s.builtWith fs1 fs0 a).countOf v = s.rank v s.size.toNat :=
    (ht.countOf_eq rfl v).trans (State.builtWith_rank v _)
  have htable := ht.sampling rfl v
  rw [← hcount]
  split at htable
  next hreq =>
    refine ⟨fun hno => absurd hreq (ne_true_of_eq_false hno), fun _ => ⟨htable.length, fun k hk => ?_, htable.sentinel⟩,
      fun j k p q => htable.lt⟩
    obtain ⟨p, hp, hsel⟩ := htable.exists_sample hk
    exact ⟨p, hp, (State.isSelect_congr (s := s.builtWith fs1 fs0 a) (t := s) rfl rfl _ _).mp hsel⟩
  next hreq => exact ⟨fun _ => htable, fun hyes => absurd hyes hreq, fun j k p q _ hp => by simp [htable] at hp⟩

/-- Settles O37: BV_CLEAR is its definition. -/
theorem bvClearEmptiesVector : Obligations.BvClearEmptiesVector := ⟨rfl, fun _ => rfl⟩

/-- Settles O40, by the two outcomes of BV_GET. -/
theorem bvGetReadsOneBit : Obligations.BvGetReadsOneBit := ⟨rfl, fun _ => ⟨execBvGet_of_le, execBvGet_of_lt⟩⟩

/-- Settles O42, by the two outcomes of BV_RDWORD. -/
theorem bvRdwordReadsOneWord : Obligations.BvRdwordReadsOneWord := ⟨rfl, fun _ => ⟨execBvRdword_of_le, execBvRdword_of_lt⟩⟩

end Sys2Proof.Machine

/-! SUPPORT. Settled: the rank unit and the counts. RANK1 and RANK0 are one command with a bit value, as SELECT1 and SELECT0 are:
each answers `cnt_v(0, i)` of 00_scope.md R10, and their laws are those of that count. -/

namespace Sys2Proof.Machine

section
variable {s : State} {i : Nat}

/-! ### RANK1 and RANK0 -/

theorem exec_rank_of_size_lt (v : Bool) (hf : s.frozen = true) (hi : s.size.toNat < s.index) :
    exec (if v then .rank1 else .rank0) s = .next (s.raiseFault .indexRange) := by
  cases v with
  | true => exact (if_neg (by simp [hf])).trans (if_pos hi)
  | false => exact (if_neg (by simp [hf])).trans (if_pos hi)

/-- R231 for both values: RANK0's `i - rank1(i)` counts the zeros, since below `size` every position is a one or a zero. -/
theorem State.Inv.exec_rank (h : s.Inv) (v : Bool) (hf : s.frozen = true) (hi : s.index ≤ s.size.toNat) :
    exec (if v then .rank1 else .rank0) s = .next (s.completeWith (BitVec.ofNat 64 (s.rank v s.index))) := by
  have hrank := rank1At_eq h.padding (h.rankTable hf) hi
  cases v with
  | true =>
    show execRank1 s = _
    rw [execRank1, if_neg (by simp [hf]), if_neg (by omega), hrank, State.finish_ok]
  | false =>
    show execRank0 s = _
    have hsum := State.rank_add_rank hi
    have hzeros : s.rank false s.index = s.index - s.rank true s.index := by omega
    rw [execRank0, if_neg (by simp [hf]), if_neg (by omega), hrank, hzeros]
    rfl

/-- What the rank commands answer: the count of 00_scope.md R10. -/
theorem State.Inv.rankAnswer_eq (h : s.Inv) (hf : s.frozen = true) (v : Bool) (hi : i ≤ s.size.toNat) :
    rankAnswer s v i = some (s.rank v i) := by
  have hsize := s.size.isLt
  have hle := State.rank_le (s := s) (v := v) i
  have hindex : (s.withOperand i).index = i := (BitVec.toNat_ofNat i 64).trans (Nat.mod_eq_of_lt (by omega))
  have hinv : (s.withOperand i).Inv := h.of_sameVector (.refl s) rfl rfl rfl rfl
  have hrank : (s.withOperand i).rank v i = s.rank v i := State.rank_congr (s := s.withOperand i) (t := s) rfl rfl v i
  rw [rankAnswer, hinv.exec_rank v hf (hindex.symm ▸ hi), hindex, hrank]
  exact congrArg some ((BitVec.toNat_ofNat _ 64).trans (Nat.mod_eq_of_lt (by omega)))

/-! ### COUNT1, COUNT0 and RT_LEN -/

theorem State.Inv.exec_count (h : s.Inv) (v : Bool) (hf : s.frozen = true) :
    exec (if v then .count1 else .count0) s = .next (s.completeWith (BitVec.ofNat 64 (s.rank v s.size.toNat))) := by
  rw [← h.countOf_eq hf v]
  cases v with
  | true => exact if_neg (by simp [hf])
  | false => exact if_neg (by simp [hf])

theorem State.Inv.exec_rtLen (h : s.Inv) (hf : s.frozen = true) :
    exec .rtLen s = .next (s.completeWith (BitVec.ofNat 64 (ceilDiv s.nb 8 + 1))) := by
  rw [← (h.rankTable hf).length]
  exact if_neg (by simp [hf])

end

/-! ### The obligations -/

/-- Settles O46, by the three outcomes of a rank command. -/
theorem rank1CountsOnesBefore : Obligations.Rank1CountsOnesBefore :=
  ⟨rfl, fun s => ⟨fun hf => tableCommandsNeedBuild s true _ hf (by simp), exec_rank_of_size_lt true, fun h => h.exec_rank true⟩⟩

/-- Settles O47, by the three outcomes of a rank command. -/
theorem rank0CountsZerosBefore : Obligations.Rank0CountsZerosBefore :=
  ⟨rfl, fun s => ⟨fun hf => tableCommandsNeedBuild s true _ hf (by simp), exec_rank_of_size_lt false, fun h => h.exec_rank false⟩⟩

/-- Settles O48: the counts and the table's length are those of the invariant. -/
theorem countsAndRankTableLength : Obligations.CountsAndRankTableLength := by
  refine ⟨⟨rfl, rfl, rfl⟩, fun s i hf hi => tableCommandsNeedBuild s true i hf ?_, fun s h hf =>
    ⟨h.exec_count true hf, h.exec_count false hf, h.exec_rtLen hf⟩⟩
  exact (by decide : ([.count1, .count0, .rtLen] : List Instr) ⊆ _) hi

/-- Settles O49: the laws of the counts, carried to the commands by what they answer. -/
theorem rankCommandLaws : Obligations.RankCommandLaws := by
  intro s h hf
  have hcount : ∀ v, rankAnswer s v s.size.toNat = some (s.countOf v) := fun v => by
    rw [h.rankAnswer_eq hf v (Nat.le_refl _), h.countOf_eq hf]
  refine ⟨fun i hi => ?_, h.rankAnswer_eq hf true (Nat.zero_le _), hcount true, hcount false, fun i hi => ?_⟩
  · have hsum := State.rank_add_rank hi
    exact ⟨_, _, h.rankAnswer_eq hf true hi, h.rankAnswer_eq hf false hi, hsum, by omega, by omega⟩
  · refine ⟨_, h.rankAnswer_eq hf true (Nat.le_of_lt hi), ?_⟩
    rw [h.rankAnswer_eq hf true hi, State.rank_succ, State.holds_true_of_padding h.padding]

end Sys2Proof.Machine

/-! SUPPORT. Settled: the select unit and the sampling tables. Every answer of SELECT1 and SELECT0 comes from one fact: the
command finds a position exactly where that position is `select_v(x)` of 00_scope.md R10. -/

namespace Sys2Proof.Machine

section
variable {s : State} {v : Bool} {x p : Nat}

/-! ### SELECT1 and SELECT0 -/

theorem exec_select_eq (v : Bool) (s : State) : exec (if v then .select1 else .select0) s = selectBody v s := by
  cases v <;> rfl

/-- A rank that has a position is below the count (44_select.md R260). -/
theorem State.IsSelect.lt_rank_size (hp : s.IsSelect v x p) : x < s.rank v s.size.toNat := by
  obtain ⟨hholds, rfl⟩ := hp
  exact State.rank_lt_of_holds hholds (State.holds_lt hholds)

/-- R268: the command answers `select_v` of its operand, with or without a sampling table. -/
theorem State.Inv.exec_select_of_isSelect (h : s.Inv) (hf : s.frozen = true) (hp : s.IsSelect v s.index p) :
    exec (if v then .select1 else .select0) s = .next (s.completeWith (BitVec.ofNat 64 p)) := by
  have hcount : s.index < s.countOf v := h.countOf_eq hf v ▸ hp.lt_rank_size
  rw [exec_select_eq, selectBody, if_neg (by simp [hf]), if_neg (Nat.not_le_of_lt hcount),
    selectAt_eq h.padding (h.rankTable hf) (h.sampling hf v) hcount hp, State.finish_ok]

theorem State.Inv.exec_select_of_rank_le (h : s.Inv) (hf : s.frozen = true) (hx : s.rank v s.size.toNat ≤ s.index) :
    exec (if v then .select1 else .select0) s = .next s.notFound := by
  rw [exec_select_eq, selectBody, if_neg (by simp [hf]), if_pos (h.countOf_eq hf v ▸ hx)]

/-! ### What they answer, as the laws put it -/

/-- The operand a command reads is the low 64 bits of the number it was given. -/
theorem State.withOperand_index (s : State) (x : Nat) : (s.withOperand x).index = x % 2 ^ 64 := BitVec.toNat_ofNat x 64

/-- Positions of the vector, and so the ranks that have one, fit the operand registers. -/
theorem State.IsSelect.lt_two_pow (hp : s.IsSelect v x p) : p < 2 ^ 64 ∧ x < 2 ^ 64 := by
  obtain ⟨hholds, rfl⟩ := hp
  have hpos := State.holds_lt hholds
  have hsize := s.size.isLt
  have hle := State.rank_le (s := s) (v := v) p
  omega

theorem State.Inv.withOperand (h : s.Inv) (x : Nat) : (s.withOperand x).Inv := h.of_sameVector (.refl s) rfl rfl rfl rfl

theorem State.Inv.exec_select_withOperand_of_rank_le (h : s.Inv) (hf : s.frozen = true)
    (hx : s.rank v s.size.toNat ≤ x % 2 ^ 64) :
    exec (if v then .select1 else .select0) (s.withOperand x) = .next (s.withOperand x).notFound := by
  refine (h.withOperand x).exec_select_of_rank_le hf ?_
  rw [State.withOperand_index, State.rank_congr (s := s.withOperand x) (t := s) rfl rfl]
  exact hx

/-- The select commands answer `p` exactly where `p = select_v(x)`: no answer is missed and none is made up. -/
theorem State.Inv.selectAnswer_eq_some_iff (h : s.Inv) (hf : s.frozen = true) :
    selectAnswer s v x = some p ↔ s.IsSelect v (x % 2 ^ 64) p := by
  rcases Nat.lt_or_ge (x % 2 ^ 64) (s.rank v s.size.toNat) with hlt | hge
  · obtain ⟨q, -, hq⟩ := State.exists_isSelect hlt
    have hq' : (s.withOperand x).IsSelect v (s.withOperand x).index q := by
      rwa [State.withOperand_index, State.isSelect_congr (s := s.withOperand x) (t := s) rfl rfl]
    have hanswer : selectAnswer s v x = some q := by
      rw [selectAnswer, (h.withOperand x).exec_select_of_isSelect hf hq']
      exact congrArg some ((BitVec.toNat_ofNat q 64).trans (Nat.mod_eq_of_lt hq.lt_two_pow.1))
    rw [hanswer, Option.some.injEq]
    exact ⟨fun hqp => hqp ▸ hq, hq.unique⟩
  · rw [selectAnswer, h.exec_select_withOperand_of_rank_le hf hge]
    exact ⟨nofun, fun hp => absurd hp.lt_rank_size (Nat.not_lt_of_le hge)⟩

theorem State.Inv.selectAnswer_of_isSelect (h : s.Inv) (hf : s.frozen = true) (hp : s.IsSelect v x p) :
    selectAnswer s v x = some p := by
  rw [h.selectAnswer_eq_some_iff hf, Nat.mod_eq_of_lt hp.lt_two_pow.2]
  exact hp

/-! ### The group searches -/

/-- `A_v` can be read at every entry of the table, the last one included. -/
theorem State.RankTableOk.groupCount_of_lt (h : s.RankTableOk) {g : Nat} (hg : g < s.rt.length) (v : Bool) :
    groupCount s v g = .ok (s.paddedRank v (512 * g)) :=
  groupCount_eq h (List.getElem?_eq_getElem hg) v

/-- A group qualifies for rank `x`: `A_v(g) <= x` (44_select.md R264). -/
abbrev State.GroupQualifies (s : State) (v : Bool) (x g : Nat) : Prop := s.paddedRank v (512 * g) ≤ x

/-- The group of R264: the largest of a bracket whose count does not exceed `x`. -/
structure State.IsGroup (s : State) (v : Bool) (x lo hi g : Nat) : Prop where
  lo_le : lo ≤ g
  le_hi : g ≤ hi
  qualifies : s.GroupQualifies v x g
  not_qualifies : ∀ k, g < k → k ≤ hi → ¬s.GroupQualifies v x k

variable {lo hi g : Nat}

/-- It exists where the first group of the bracket qualifies (44_select.md R264). -/
theorem State.exists_isGroup (hle : lo ≤ hi) (hlo : s.GroupQualifies v x lo) : ∃ g, s.IsGroup v x lo hi g :=
  ⟨Nat.findGreatest (s.GroupQualifies v x) hi, Nat.le_findGreatest hle hlo, Nat.findGreatest_le hi,
    Nat.findGreatest_spec hle hlo, fun _ => Nat.findGreatest_is_greatest⟩

theorem State.IsGroup.linearSearch_eq (hg : s.IsGroup v x lo hi g) (h : s.RankTableOk) (hhi : hi < s.rt.length) :
    linearSearch s v x lo (hi + 1 - lo) = .ok g := by
  obtain ⟨hlo, hle, hcount, hpast⟩ := hg
  exact Machine.linearSearch_eq (A := fun k => s.paddedRank v (512 * k)) _
    (fun k _ hk => h.groupCount_of_lt (by omega) v) hlo (by omega) hcount
    fun k hgk hk => Nat.lt_of_not_le (hpast k hgk (by omega))

/-- The groups before it qualify too, since `A_v` is non-decreasing: the halvings keep it in the bracket. -/
theorem State.IsGroup.binarySearch_eq (hg : s.IsGroup v x lo hi g) (h : s.RankTableOk) (hhi : hi < s.rt.length) :
    binarySearch s v x (hi - lo + 1) lo hi = .ok g := by
  obtain ⟨hlo, hle, hcount, hpast⟩ := hg
  exact Machine.binarySearch_eq (A := fun k => s.paddedRank v (512 * k)) _ _ _
    (fun k _ hk => h.groupCount_of_lt (by omega) v) (by omega) hlo hle
    (fun k _ hk => (State.paddedRank_mono (by omega)).trans hcount) fun k hgk hk => Nat.lt_of_not_le (hpast k hgk hk)

theorem findGroup_of_le (hn : hi - lo + 1 ≤ 10) : findGroup s v x lo hi = linearSearch s v x lo (hi + 1 - lo) := if_pos hn

theorem findGroup_of_lt (hn : 10 < hi - lo + 1) : findGroup s v x lo hi = binarySearch s v x (hi - lo + 1) lo hi :=
  if_neg (Nat.not_le_of_lt hn)

/-- The unit finds the group whichever way it searches; `Machine.findGroup_eq` is for brackets that end inside the vector. -/
theorem State.IsGroup.findGroup_eq (hg : s.IsGroup v x lo hi g) (h : s.RankTableOk) (hhi : hi < s.rt.length) :
    findGroup s v x lo hi = .ok g := by
  rcases Nat.lt_or_ge 10 (hi - lo + 1) with hn | hn
  · exact (findGroup_of_lt hn).trans (hg.binarySearch_eq h hhi)
  · exact (findGroup_of_le hn).trans (hg.linearSearch_eq h hhi)

/-! ### SMP_READ -/

theorem execSmpRead_of_length_le (hf : s.frozen = true) (hk : (s.samples v).length ≤ s.index) :
    execSmpRead v s = .next (s.raiseFault .indexRange) := by
  rw [execSmpRead, if_neg (by simp [hf]), if_pos hk]

end

/-! ### The obligations -/

/-- Settles O50, by the three outcomes of a select command. -/
theorem selectFindsPosition : Obligations.SelectFindsPosition := by
  refine ⟨⟨rfl, rfl⟩, fun s i hf hi => tableCommandsNeedBuild s true i hf ?_, fun s v i hmem h hf => ?_⟩
  · exact (by decide : ([.select1, .select0] : List Instr) ⊆ _) hi
  · obtain rfl : i = if v then .select1 else .select0 := by
      simp only [List.mem_cons, Prod.mk.injEq, List.not_mem_nil, or_false] at hmem
      obtain ⟨rfl, rfl⟩ | ⟨rfl, rfl⟩ := hmem <;> rfl
    refine ⟨fun hx => ?_, h.exec_select_of_rank_le hf⟩
    obtain ⟨p, -, hp⟩ := State.exists_isSelect hx
    exact ⟨p, hp, h.exec_select_of_isSelect hf hp⟩

/-- Settles O51: the laws of `select_v` and `cnt_v` (00_scope.md R10), carried to the commands by what they answer. -/
theorem selectRankLaws : Obligations.SelectRankLaws := by
  refine fun s v h hf => ⟨fun i hi hbit => ?_, fun x hx => ?_, fun x y hxy hy => ?_, fun x hx h64 => ?_,
    fun s' x h' hf' hsize hblk => ?_⟩
  · have hsel : s.IsSelect v (s.rank v i) i := ⟨by simp [State.holds, hi, hbit], rfl⟩
    have hanswer := h.selectAnswer_of_isSelect hf hsel
    refine ⟨_, _, h.rankAnswer_eq hf v (Nat.le_of_lt hi), hanswer, h.rankAnswer_eq hf v hi, ?_⟩
    rw [State.rank_succ_of_holds hsel.1, Nat.add_sub_cancel]
    exact hanswer
  · obtain ⟨p, hp, hsel⟩ := State.exists_isSelect hx
    obtain ⟨hholds, hrank⟩ := id hsel
    refine ⟨p, h.selectAnswer_of_isSelect hf hsel, hrank ▸ h.rankAnswer_eq hf v (Nat.le_of_lt hp), ?_⟩
    simpa [State.holds, hp] using hholds
  · obtain ⟨p, -, hp⟩ := State.exists_isSelect (hxy.trans hy)
    obtain ⟨q, -, hq⟩ := State.exists_isSelect hy
    exact ⟨p, q, h.selectAnswer_of_isSelect hf hp, h.selectAnswer_of_isSelect hf hq, hp.lt hq hxy⟩
  · have hexec := h.exec_select_withOperand_of_rank_le hf (hx.trans_eq (Nat.mod_eq_of_lt h64).symm)
    exact ⟨congrArg answer hexec, _, hexec, rfl, rfl, rfl⟩
  · refine Option.ext fun p => ?_
    rw [h'.selectAnswer_eq_some_iff hf', h.selectAnswer_eq_some_iff hf]
    exact State.isSelect_congr hsize hblk _ _

/-- Settles O52: both searches find the group of R264, and the unit is one of them. -/
theorem searchStrategiesAgree : Obligations.SearchStrategiesAgree := by
  rintro s v x lo hi h hf hle hhi ⟨a, ha, hax⟩
  have htable := h.rankTable hf
  have hcount : ∀ {k}, k ≤ hi → groupCount s v k = .ok (s.paddedRank v (512 * k)) :=
    fun hk => htable.groupCount_of_lt (by omega) v
  obtain rfl : s.paddedRank v (512 * lo) = a := Except.ok.inj ((hcount hle).symm.trans ha)
  obtain ⟨g, hg⟩ := State.exists_isGroup hle hax
  exact ⟨g, hg.lo_le, hg.le_hi, ⟨_, hcount hg.le_hi, hg.qualifies⟩,
    fun k hgk hk => ⟨_, hcount hk, Nat.lt_of_not_le (hg.not_qualifies k hgk hk)⟩, hg.linearSearch_eq htable hhi,
    hg.binarySearch_eq htable hhi, hg.findGroup_eq htable hhi, findGroup_of_le, findGroup_of_lt⟩

/-- Settles O53, by the outcomes of SMP_LEN and SMP_READ. -/
theorem samplingTableReadOut : Obligations.SamplingTableReadOut := by
  refine ⟨fun s v i hf hi => tableCommandsNeedBuild s v i hf (List.mem_of_mem_drop (i := 8) hi), fun s v table hmem hf => ?_⟩
  obtain rfl : table = s.samples v := by
    simp only [List.mem_cons, Prod.mk.injEq, List.not_mem_nil, or_false] at hmem
    obtain ⟨rfl, rfl⟩ | ⟨rfl, rfl⟩ := hmem <;> rfl
  refine ⟨by cases v <;> rfl, by cases v <;> rfl, execSmpLen_of_frozen hf v, execSmpRead_of_length_le hf, fun p hp => ?_⟩
  rw [BitVec.ofNat_toNat]
  exact execSmpRead_of_element hf hp

end Sys2Proof.Machine

/-! SUPPORT. Settled: what a command that faults and a command that does not leave in STATUS (60_exceptions.md R292, R293, R295). -/

namespace Sys2Proof.Machine

section
variable {i : Instr} {s t : State}

/-- The fault codes of R291. -/
theorem ErrCode.toBits_cases (c : ErrCode) :
    c.toBits = 1 ∨ c.toBits = 2 ∨ c.toBits = 3 ∨ c.toBits = 4 ∨ c.toBits = 5 := by
  cases c <;> decide

/-- ERR = 1 after a command means that it raised a fault: every other ending clears ERR. -/
theorem exec_raises_of_err (h : exec i s = .next t) (he : t.err = true) : ∃ c, t = s.raiseFault c := by
  cases exec_ends h with
  | raised c hc => exact ⟨c, hc⟩
  | notFound _ ht | result _ ht | rix _ _ ht | cleared _ ht | stored _ _ _ _ ht | built _ _ _ _ _ _ ht =>
    subst ht
    nomatch he

/-- ERR = 0 after a command means that it found what it looked for, or that an in-word or table select ended in NotFound. -/
theorem exec_found_or_notFound_of_not_err (h : exec i s = .next t) (he : t.err = false) :
    t.errCode = 0 ∧ (t.found = true ∨ ((i = .selw ∨ i = .select0 ∨ i = .select1) ∧ t = s.notFound)) := by
  cases exec_ends h with
  | raised c ht =>
    subst ht
    nomatch he
  | notFound hi ht => exact ⟨ht ▸ rfl, .inr ⟨hi, ht⟩⟩
  | result _ ht | rix _ _ ht | cleared _ ht | stored _ _ _ _ ht | built _ _ _ _ _ _ ht => exact ⟨ht ▸ rfl, .inl (ht ▸ rfl)⟩

theorem CommandFrame.not_busy (hframe : CommandFrame s t) : t.busy = false := by simp [State.busy, hframe.running]

theorem CommandFrame.stickyErr_of_not_err (hframe : CommandFrame s t) (he : t.err = false) : t.stickyErr = s.stickyErr := by
  rw [hframe.stickyErr, he, Bool.or_false]

end

/-- Settles O22: a command with ERR = 1 ended in a raised fault, which writes STATUS only. -/
theorem faultsChangeOnlyStatus : Obligations.FaultsChangeOnlyStatus := by
  intro i s t h he
  obtain ⟨c, rfl⟩ := exec_raises_of_err h he
  exact ⟨c.toBits_cases, rfl⟩

/-- Settles O23, by the frame of a command and the two endings that leave ERR = 0. -/
theorem normalCompletionStatus : Obligations.NormalCompletionStatus := by
  intro i s t h he
  have hframe := exec_frame h
  obtain ⟨hcode, hfound⟩ := exec_found_or_notFound_of_not_err h he
  exact ⟨hcode, hframe.not_busy, hframe.stickyErr_of_not_err he, hframe.overrun, hfound⟩

end Sys2Proof.Machine

/-! SUPPORT. Settled: reset (70_reset_and_hazards.md R320, R321). -/

namespace Sys2Proof.Machine

/-- The open parameter MAX_BITS is within 00_scope.md R7, whatever value stands behind it. -/
theorem one_le_config_maxBits : 1 ≤ Config.maxBits.toNat := by
  unfold Config.maxBits
  split
  case isTrue => decide
  case isFalse hraw => bv_omega

/-- Settles O17: the step takes the reset input whatever command runs, and the reset input is the record of R320. -/
theorem resetInputResets : Obligations.ResetInputResets := fun _ _ ha => ⟨_, step_reset ha, rfl⟩

/-- Settles O19: the reset state is the emptied vector with the configured capacity. -/
theorem resetMeetsInvariant : Obligations.ResetMeetsInvariant :=
  inv_of_emptied one_le_config_maxBits (.refl State.reset) rfl rfl

end Sys2Proof.Machine
